-- ==== Sys2Proof/Word.lean ====
section
/-! DEFINITION. The word types of the converter (00_scope.md R6, R7). -/

namespace Sys2Proof

/-- A sample, a channel or one byte of memory (R6: SAMPLE_W = CHANNEL_W = 8). -/
abbrev Byte := BitVec 8

/-- The WIDTH and HEIGHT fields and the engine's row and column (R6: DIM_W = 16). -/
abbrev Half := BitVec 16

/-- A register, a bus address or an output pixel (R6: ADDR_W = STRIDE_W = WORD_W = 32). -/
abbrev Word := BitVec 32

/-- The HA9 transaction selector (30_encoding.md R94): bit 8 is RW, bits 7:0 are OFFSET. -/
abbrev Selector := BitVec 9

/-- A byte offset in the 256-byte register window (10_state.md R21). -/
abbrev Offset := BitVec 8

end Sys2Proof
end

