-- ==== Sys2Proof/Syntax.lean ====
section
/-! DEFINITION. The converter's instructions, one constructor per row of spec/opcode_table.json, the
registers they name, and the raw messages of the host port they are decoded from. -/

namespace Sys2Proof

/-- The two operations (30_encoding.md R91). -/
inductive Op
  | sp
  | fp
  deriving DecidableEq, Repr

/-- The host-visible registers of 10_state.md R21. -/
inductive Reg
  | cmd
  | status
  | ctrl
  | width
  | height
  | yStride
  | c0Stride
  | c1Stride
  | yBase
  | c0Base
  | c1Base
  | dstBase
  | faultAddr
  deriving DecidableEq, Repr

/-- The direction of a register-access transaction (30_encoding.md R94). -/
inductive Direction
  | read
  | write
  deriving DecidableEq, Repr

/-- One instruction per row of the opcode table. The commands (format CMD32) are words written to
CMD; `d` is the 32-bit value a write carries beside its selector (30_encoding.md R94). -/
inductive Instr
  | convertSp
  | convertFp
  | illegalCommand (c : Word)
  | rdCmd
  | wrCmd (d : Word)
  | rdStatus
  | wrStatus (d : Word)
  | rdCtrl
  | wrCtrl (d : Word)
  | rdWidth
  | wrWidth (d : Word)
  | rdHeight
  | wrHeight (d : Word)
  | rdYStride
  | wrYStride (d : Word)
  | rdC0Stride
  | wrC0Stride (d : Word)
  | rdC1Stride
  | wrC1Stride (d : Word)
  | rdYBase
  | wrYBase (d : Word)
  | rdC0Base
  | wrC0Base (d : Word)
  | rdC1Base
  | wrC1Base (d : Word)
  | rdDstBase
  | wrDstBase (d : Word)
  | rdFaultAddr
  | wrFaultAddr (d : Word)
  | rdReserved (o : Offset)
  | wrReserved (o : Offset) (d : Word)
  | illegalAccess (dir : Direction) (o : Offset) (size : Nat) (d : Word)
  deriving DecidableEq, Repr

/-- What reaches the host port, before decoding: a command word on its way into CMD (format CMD32,
30_encoding.md R90), or a register-access transaction (format HA9, R94) with its size in bytes and
the data beside the selector (log 1). -/
inductive Message
  | command (c : Word)
  | access (selector : Selector) (size : Nat) (data : Word)
  deriving DecidableEq, Repr

/-- Why raw table bits are no message of the port. -/
inductive DecodeError
  /-- A command word has 32 bits (30_encoding.md R93). -/
  | commandTooWide
  /-- A selector has 9 bits (30_encoding.md R94). -/
  | selectorTooWide
  /-- No format has this many bits. -/
  | noSuchFormat (nbits : Nat)
  deriving DecidableEq, Repr

end Sys2Proof
end

