-- ==== Sys2Proof/WellFormed.lean ====
section
/-! DEFINITION. Which instruction terms and messages the encoding admits. -/

namespace Sys2Proof

/-- An offset at which a legal transaction may stand: a multiple of 4 (30_encoding.md R94). -/
def alignedOffset (o : Offset) : Bool := o.toNat % 4 == 0

/-- A term that some message decodes to. A command is illegal when it is neither 1 nor 2 (R91, R92);
reserved offsets are the multiples of 4 in 0x34 to 0xFC (45_register_access.md R233); an illegal
access is misaligned or not 4 bytes (R232), and carries data only when it is a write (R94). -/
def Instr.wf : Instr → Bool
  | .illegalCommand c => c != 1#32 && c != 2#32
  | .rdReserved o => alignedOffset o && decide (0x34 ≤ o.toNat)
  | .wrReserved o _ => alignedOffset o && decide (0x34 ≤ o.toNat)
  | .illegalAccess dir o size d =>
      (!alignedOffset o || size != 4) && (dir == .write || d == 0#32)
  | .convertSp | .convertFp | .rdCmd | .wrCmd _ | .rdStatus | .wrStatus _ | .rdCtrl | .wrCtrl _
  | .rdWidth | .wrWidth _ | .rdHeight | .wrHeight _ | .rdYStride | .wrYStride _
  | .rdC0Stride | .wrC0Stride _ | .rdC1Stride | .wrC1Stride _ | .rdYBase | .wrYBase _
  | .rdC0Base | .wrC0Base _ | .rdC1Base | .wrC1Base _ | .rdDstBase | .wrDstBase _
  | .rdFaultAddr | .wrFaultAddr _ => true

/-- A read transaction carries no data (30_encoding.md R94); its data lines are taken as 0
(log 1). -/
def Message.wf : Message → Bool
  | .command _ => true
  | .access sel _ d => sel.getLsbD 8 || d == 0#32

end Sys2Proof
end

