-- ==== Sys2Proof/Decode.lean ====
section
/-! DEFINITION. Decoding of command words (30_encoding.md R91) and of register-access transactions
(R94, R95), and the encoder written from the same tables. Every message decodes: an illegal one
decodes to the opcode table's own row for it. -/

namespace Sys2Proof

/-- The operation a command word selects: the whole word must equal 1 or 2 (30_encoding.md R91). -/
def opOf (c : Word) : Option Op :=
  if c = 0x00000001#32 then some .sp
  else if c = 0x00000002#32 then some .fp
  else none

/-- The register map of 10_state.md R21. -/
def registerMap : List (Offset × Reg) :=
  [(0x00#8, .cmd), (0x04#8, .status), (0x08#8, .ctrl), (0x0C#8, .width), (0x10#8, .height),
   (0x14#8, .yStride), (0x18#8, .c0Stride), (0x1C#8, .c1Stride), (0x20#8, .yBase),
   (0x24#8, .c0Base), (0x28#8, .c1Base), (0x2C#8, .dstBase), (0x30#8, .faultAddr)]

/-- The register at a window offset, if R21 lists one (30_encoding.md R95). -/
def regAt (o : Offset) : Option Reg := (registerMap.find? fun e => e.1 == o).map Prod.snd

/-- The window offset of a register (10_state.md R21). -/
def offsetOf : Reg → Offset
  | .cmd => 0x00#8
  | .status => 0x04#8
  | .ctrl => 0x08#8
  | .width => 0x0C#8
  | .height => 0x10#8
  | .yStride => 0x14#8
  | .c0Stride => 0x18#8
  | .c1Stride => 0x1C#8
  | .yBase => 0x20#8
  | .c0Base => 0x24#8
  | .c1Base => 0x28#8
  | .dstBase => 0x2C#8
  | .faultAddr => 0x30#8

/-- The read of a register, as an instruction (one opcode-table row each). -/
def readOf : Reg → Instr
  | .cmd => .rdCmd
  | .status => .rdStatus
  | .ctrl => .rdCtrl
  | .width => .rdWidth
  | .height => .rdHeight
  | .yStride => .rdYStride
  | .c0Stride => .rdC0Stride
  | .c1Stride => .rdC1Stride
  | .yBase => .rdYBase
  | .c0Base => .rdC0Base
  | .c1Base => .rdC1Base
  | .dstBase => .rdDstBase
  | .faultAddr => .rdFaultAddr

/-- The write of a register, as an instruction (one opcode-table row each). -/
def writeOf (d : Word) : Reg → Instr
  | .cmd => .wrCmd d
  | .status => .wrStatus d
  | .ctrl => .wrCtrl d
  | .width => .wrWidth d
  | .height => .wrHeight d
  | .yStride => .wrYStride d
  | .c0Stride => .wrC0Stride d
  | .c1Stride => .wrC1Stride d
  | .yBase => .wrYBase d
  | .c0Base => .wrC0Base d
  | .c1Base => .wrC1Base d
  | .dstBase => .wrDstBase d
  | .faultAddr => .wrFaultAddr d

/-- RW of a selector: bit 8, 1 for a write (30_encoding.md R94). -/
def directionOf (sel : Selector) : Direction := if sel.getLsbD 8 then .write else .read

/-- OFFSET of a selector: bits 7:0 (30_encoding.md R94). -/
def offsetBits (sel : Selector) : Offset := sel.extractLsb' 0 8

/-- A read carries no data (30_encoding.md R94). -/
def carriedData : Direction → Word → Word
  | .read, _ => 0#32
  | .write, d => d

/-- 30_encoding.md R95: a misaligned or wrong-sized transaction is illegal (R232), an offset that
R21 does not list is reserved (R233). -/
def decodeAccess (dir : Direction) (o : Offset) (size : Nat) (d : Word) : Instr :=
  if !alignedOffset o || size != 4 then .illegalAccess dir o size (carriedData dir d)
  else match dir with
    | .read => match regAt o with
        | some r => readOf r
        | none => .rdReserved o
    | .write => match regAt o with
        | some r => writeOf d r
        | none => .wrReserved o d

/-- 30_encoding.md R91, R92. -/
def decodeCommand (c : Word) : Instr :=
  match opOf c with
  | some .sp => .convertSp
  | some .fp => .convertFp
  | none => .illegalCommand c

/-- The decoder: total on messages. -/
def decode : Message → Instr
  | .command c => decodeCommand c
  | .access sel size d => decodeAccess (directionOf sel) (offsetBits sel) size d

/-- The table's numbering: a word of 32 bits is a CMD32 command word, a word of up to 16 bits is an
HA9 selector, whose size is then 4 bytes and whose data is 0. DESIGN CHOICE (log 2): the spec gives HA9
nine bits and no layout in bytes, so which lengths are a selector is the model's; no bits at all are
none. -/
def tableMessage (nbits w : Nat) : Except DecodeError Message :=
  if nbits = 32 then
    if w < 2 ^ 32 then .ok (.command (BitVec.ofNat 32 w)) else .error .commandTooWide
  else if 0 < nbits ∧ nbits ≤ 16 then
    if w < 2 ^ 9 then .ok (.access (BitVec.ofNat 9 w) 4 0#32) else .error .selectorTooWide
  else .error (.noSuchFormat nbits)

/-- A little-endian byte string as a number: bit 0 is the least significant bit of the first byte. -/
def leValue : List Byte → Nat
  | [] => 0
  | b :: bs => b.toNat + 256 * leValue bs

/-- The decoder on any bytes: four are a command word, one or two a selector; any other length, none
included, is rejected by name (DESIGN CHOICE, log 2). -/
def decodeBytes (bs : List Byte) : Except DecodeError Instr :=
  (tableMessage (8 * bs.length) (leValue bs)).map decode

/-- The instruction the decoder reads from a table word (none where it refuses). -/
def decodeTableWord (nbits w : Nat) : Option Instr :=
  match tableMessage nbits w with
  | .ok m => some (decode m)
  | .error _ => none

/-- The HA9 selector of a transaction (30_encoding.md R94, R99): `0x100 + offset` for a write. -/
def selectorOf : Direction → Offset → Selector
  | .read, o => 0#1 ++ o
  | .write, o => 1#1 ++ o

/-- A read transaction of 4 bytes at an offset (30_encoding.md R99). -/
def readAt (o : Offset) : Message := .access (selectorOf .read o) 4 0#32

/-- A write transaction of 4 bytes at an offset (30_encoding.md R99). -/
def writeAt (o : Offset) (d : Word) : Message := .access (selectorOf .write o) 4 d

/-- The encoder, from opcode_table.json's `match` column. -/
def encode : Instr → Message
  | .convertSp => .command 0x00000001#32
  | .convertFp => .command 0x00000002#32
  | .illegalCommand c => .command c
  | .rdCmd => readAt 0x00#8
  | .wrCmd d => writeAt 0x00#8 d
  | .rdStatus => readAt 0x04#8
  | .wrStatus d => writeAt 0x04#8 d
  | .rdCtrl => readAt 0x08#8
  | .wrCtrl d => writeAt 0x08#8 d
  | .rdWidth => readAt 0x0C#8
  | .wrWidth d => writeAt 0x0C#8 d
  | .rdHeight => readAt 0x10#8
  | .wrHeight d => writeAt 0x10#8 d
  | .rdYStride => readAt 0x14#8
  | .wrYStride d => writeAt 0x14#8 d
  | .rdC0Stride => readAt 0x18#8
  | .wrC0Stride d => writeAt 0x18#8 d
  | .rdC1Stride => readAt 0x1C#8
  | .wrC1Stride d => writeAt 0x1C#8 d
  | .rdYBase => readAt 0x20#8
  | .wrYBase d => writeAt 0x20#8 d
  | .rdC0Base => readAt 0x24#8
  | .wrC0Base d => writeAt 0x24#8 d
  | .rdC1Base => readAt 0x28#8
  | .wrC1Base d => writeAt 0x28#8 d
  | .rdDstBase => readAt 0x2C#8
  | .wrDstBase d => writeAt 0x2C#8 d
  | .rdFaultAddr => readAt 0x30#8
  | .wrFaultAddr d => writeAt 0x30#8 d
  | .rdReserved o => readAt o
  | .wrReserved o d => writeAt o d
  | .illegalAccess dir o size d => .access (selectorOf dir o) size d

end Sys2Proof
end

