-- ==== Sys2Proof/Config.lean ====
section
/-! DEFINITION. What an implementation fixes (00_scope.md R6, 93 section 4) and the free values the
spec leaves open (93 section 3). The free values have no body: nothing can evaluate them. -/

namespace Sys2Proof.Config

/-- The size of the bus space, 2^ADDR_W bytes (R6, 20_memory.md R60b). -/
def busSize : Nat := 2 ^ 32

/-- The Saturation Table's domain (R6: SAT_LO, SAT_HI). -/
def satLo : Int := -278

@[inherit_doc satLo] def satHi : Int := 535

/-- REG_BASE, where the host's address map holds the register window (92 D41: OPEN). -/
opaque regBase : Nat

/-- Whether the engine's bus port is coherent with the host's caches (20_memory.md R80; 92 D28:
OPEN). -/
opaque coherent : Bool

/-- How many converters the system holds beside this one (60_exceptions.md R267; 92 D29: OPEN). -/
opaque otherInstances : Nat

/-- N_INSTANCES, at least 1 (00_scope.md R6, 93 section 4). The model is one of them: they share no
mutable state (log 20). -/
def nInstances : Nat := otherInstances + 1

/-- Which of the admitted outcomes a race has (20_memory.md R78, R79, 93 S5 to S7): the `k`-th choice
taken when the free-value counter is `n`. -/
opaque raceChoice (n k : Nat) : Nat

/-- The unspecified working register number `k` after a command ended by a bus error or a reset
(60_exceptions.md R256, 93 S1 and S2). -/
opaque freeWord (n k : Nat) : Word

end Sys2Proof.Config
end

