-- ==== Sys2Proof/Machine/State.lean ====
section
/-! DEFINITION. The converter's state (10_state.md), the outside world's pending inputs, and the
reasons a step can stop. -/

namespace Sys2Proof.Machine

/-- The result codes of 60_exceptions.md R250; codes 10 to 15 are never produced. -/
inductive ErrCode
  | ok
  | badCmd
  | zeroDim
  | oddWidth
  | stride
  | null
  | range
  | align
  | overlap
  | bus
  deriving DecidableEq, Repr

/-- The host-visible registers (10_state.md R21 to R33), less their reserved bits, which read 0 and
ignore writes (R22). CMD stores nothing (R23). -/
structure Regs where
  busy : Bool
  done : Bool
  err : ErrCode
  irqEn : Bool
  width : Half
  height : Half
  yStride : Word
  c0Stride : Word
  c1Stride : Word
  yBase : Word
  c0Base : Word
  c1Base : Word
  dstBase : Word
  faultAddr : Word
  deriving DecidableEq, Repr

/-- The engine's working registers: the latched parameters (10_state.md R35) and the iteration state
(R36). -/
structure Working where
  op : BitVec 4
  width : Half
  height : Half
  ys : Word
  cs0 : Word
  cs1 : Word
  db : Word
  j : Half
  x : Half
  yp : Word
  cp0 : Word
  cp1 : Word
  dp : Word
  deriving DecidableEq, Repr

/-- Bytes of the bus space by address, in one canonical form (`Memory.wf`). -/
abbrev Memory := List Host.Cell

/-- The kind of an engine access (20_memory.md R61). -/
inductive BusKind
  | read
  | write
  deriving DecidableEq, Repr

/-- How the platform answers an access it does not admit: with a bus error (20_memory.md R61) or
never (70_reset_and_hazards.md R295, 93 S12). -/
inductive BusAnswer
  | busError
  | noAnswer
  deriving DecidableEq, Repr

/-- A half-open range of addresses whose accesses of one kind the platform does not admit. -/
structure BusHole where
  lo : Nat
  hi : Nat
  kind : BusKind
  answer : BusAnswer
  deriving DecidableEq, Repr

/-- A half-open byte extent `[lo, hi)` in unbounded integers (20_memory.md R73). -/
structure Extent where
  lo : Nat
  hi : Nat
  deriving DecidableEq, Repr

/-- A store into the aligned word at `addr`, of the bytes in `mask`, that reached the bus while a
command ran, with the word's former value (20_memory.md R79). -/
structure HostStore where
  addr : Nat
  mask : BitVec 4
  former : Word
  deriving DecidableEq, Repr

/-- A word the engine wrote at `addr`, with the word's former value, kept while the host may still see
either (20_memory.md R66, R78). -/
structure EngineStore where
  addr : Nat
  value : Word
  former : Word
  deriving DecidableEq, Repr

/-- The host cache's copy of the aligned word at `addr`, with the bytes stored in it and not yet
cleaned (20_memory.md R80; log 19). -/
structure CachedWord where
  addr : Nat
  value : Word
  dirty : BitVec 4
  deriving DecidableEq, Repr

/-- What the slave port answered to the last host access (45_register_access.md R230 to R232); `idle`
before the first. `loaded` and `loadedWord` are host loads of memory, `irqLevel` a look at `irq`. -/
inductive Response
  | idle
  | data (v : Word)
  | written
  | slaveError
  | loaded (b : Byte)
  | loadedWord (v : Word)
  | irqLevel (on : Bool)
  deriving DecidableEq, Repr

/-- One thing the outside world does between two engine steps (00_scope.md R3): a host transaction, a
turn left to the engine, a reset (`resetMidPair`: after the first of a pair step's two writes), a host
access to memory, the maintenance of the host's cache, a look at `irq`, or `busStore`, a store straight
to the bus: another bus master's, or the host's past its cache. `i` names the aligned word at byte
address `4 * i`. -/
inductive Input
  | transaction (m : Message)
  | engine
  | reset
  | resetMidPair
  | storeByte (a : Word) (b : Byte)
  | storeWord (i : BitVec 30) (v : Word)
  | loadByte (a : Word)
  | loadWord (i : BitVec 30)
  | cacheClean (i : BitVec 30)
  | cacheInvalidate (i : BitVec 30)
  | busStore (i : BitVec 30) (mask : BitVec 4) (v : Word)
  | observeIrq
  deriving DecidableEq, Repr

/-- The machine. `regs`, `w` and `mem` are the spec's (10_state.md R20); `platform` is its parameter
`admits` (20_memory.md R61); `hung` says that an engine access was never answered (93 S12); `cache` is
the host's (R80); `inputs` are the outside world's next actions, oldest first. The model's own are
`response`; `raced`, the stores of others during the command; `unseen`, the engine's writes for the last
command the host issued, until it sees DONE = 1 (R78); `missed`, such writes of earlier commands (these
three newest first); and `freeCount`, the free values taken so far. -/
structure State where
  regs : Regs
  w : Working
  mem : Memory
  platform : List BusHole
  inputs : List Input
  response : Response
  hung : Bool
  cache : List CachedWord
  raced : List HostStore
  unseen : List EngineStore
  missed : List EngineStore
  freeCount : Nat
  deriving DecidableEq, Repr

/-- Why a step faults. Both are raised only in states that no run reaches, so a fault is safe. -/
inductive Fault
  /-- An engine access at or above 2^32, where the bus space has no byte (20_memory.md R60b, R74).
  Raised by the engine's bus accesses; safe. -/
  | addressBeyondBus
  /-- An engine word write not to a multiple of 4, for which 20_memory.md R65 has no rule. Raised by
  the engine's word writes; safe. -/
  | misalignedWrite
  deriving DecidableEq, Repr

/-- Why a step is refused. -/
inductive Refusal
  /-- An instruction that has no meaning in the model. Raised by `exec` only; safe. -/
  | notModelled (mnemonic : String)
  deriving DecidableEq, Repr

/-- What stops a pair step at one of its accesses (00_scope.md R10). -/
inductive EngineStop
  | busError (a : Word)
  | noAnswer
  | fault (f : Fault)
  deriving DecidableEq, Repr

/-- The host-visible registers after reset (10_state.md R41). -/
def Regs.reset : Regs where
  busy := false
  done := false
  err := .ok
  irqEn := false
  width := 0
  height := 0
  yStride := 0
  c0Stride := 0
  c1Stride := 0
  yBase := 0
  c0Base := 0
  c1Base := 0
  dstBase := 0
  faultAddr := 0

/-- The working registers at State.reset. DESIGN CHOICE (log 7; unsafe): R41 leaves them unspecified
and never read. -/
def Working.reset : Working where
  op := 0
  width := 0
  height := 0
  ys := 0
  cs0 := 0
  cs1 := 0
  db := 0
  j := 0
  x := 0
  yp := 0
  cp0 := 0
  cp1 := 0
  dp := 0

/-- The machine right after reset (10_state.md R41), with nothing listed in memory, nothing pending
an empty host cache and a platform that admits every access (DESIGN CHOICE, log 3, 5, 6, 9, 10, 11, 14,
15, 19). -/
def State.reset : State where
  regs := .reset
  w := .reset
  mem := []
  platform := []
  inputs := []
  response := .idle
  hung := false
  cache := []
  raced := []
  unseen := []
  missed := []
  freeCount := 0

end Sys2Proof.Machine
end

