-- ==== Sys2Proof/Machine/Operands.lean ====
section
/-! DEFINITION. A command's operands (30_encoding.md R96), the addresses of a frame's samples and
words (20_memory.md R68 to R71) and the byte extents of its buffers (R73), all in unbounded
integers. -/

namespace Sys2Proof.Machine

/-- W, zero-extended (30_encoding.md R96). -/
abbrev frameW (r : Regs) : Nat := r.width.toNat

/-- H, zero-extended (30_encoding.md R96). -/
abbrev frameH (r : Regs) : Nat := r.height.toNat

/-- The chroma rows a frame of `h` luma rows uses: `Hc = (H + 1) >> 1` (43_convert_sp.md R196). -/
abbrev chromaRows (h : Nat) : Nat := (h + 1) / 2

/-- The luma sample at column `x` of row `j` (20_memory.md R68). -/
def lumaAddr (r : Regs) (j x : Nat) : Nat := r.yBase.toNat + j * r.yStride.toNat + x

/-- CONVERT.SP's C-first byte, the V role (20_memory.md R69, 43_convert_sp.md R193). -/
def cfirstAddr (r : Regs) (j x : Nat) : Nat := r.c0Base.toNat + j / 2 * r.c0Stride.toNat + x

/-- CONVERT.SP's C-second byte, the U role (20_memory.md R69, 43_convert_sp.md R193). -/
def csecondAddr (r : Regs) (j x : Nat) : Nat := r.c0Base.toNat + j / 2 * r.c0Stride.toNat + x + 1

/-- CONVERT.FP's U byte (20_memory.md R70). -/
def uAddr (r : Regs) (j x : Nat) : Nat := r.c0Base.toNat + j / 2 * r.c0Stride.toNat + x / 2

/-- CONVERT.FP's V byte (20_memory.md R70). -/
def vAddr (r : Regs) (j x : Nat) : Nat := r.c1Base.toNat + j / 2 * r.c1Stride.toNat + x / 2

/-- The output word of luma sample `(j, x)` (20_memory.md R71). -/
def dstAddr (r : Regs) (j x : Nat) : Nat := r.dstBase.toNat + 4 * (j * frameW r + x)

/-- The extent of a plane of `rows` rows of `rowLen` bytes, the padding between rows included
(20_memory.md R73). -/
def planeExtent (base stride rows rowLen : Nat) : Extent :=
  ⟨base, base + (rows - 1) * stride + rowLen⟩

/-- 20_memory.md R73, row luma. -/
def lumaExtent (r : Regs) : Extent :=
  planeExtent r.yBase.toNat r.yStride.toNat (frameH r) (frameW r)

/-- 20_memory.md R73, row interleaved chroma. -/
def chromaExtent (r : Regs) : Extent :=
  planeExtent r.c0Base.toNat r.c0Stride.toNat (chromaRows (frameH r)) (frameW r)

/-- 20_memory.md R73, row U plane. -/
def uExtent (r : Regs) : Extent :=
  planeExtent r.c0Base.toNat r.c0Stride.toNat (chromaRows (frameH r)) (frameW r / 2)

/-- 20_memory.md R73, row V plane. -/
def vExtent (r : Regs) : Extent :=
  planeExtent r.c1Base.toNat r.c1Stride.toNat (chromaRows (frameH r)) (frameW r / 2)

/-- 20_memory.md R73, row destination. -/
def dstExtent (r : Regs) : Extent :=
  ⟨r.dstBase.toNat, r.dstBase.toNat + 4 * frameW r * frameH r⟩

/-- The source extents an operation uses (42_command_accept.md R172). -/
def sourceExtents (op : Op) (r : Regs) : List Extent :=
  match op with
  | .sp => [lumaExtent r, chromaExtent r]
  | .fp => [lumaExtent r, uExtent r, vExtent r]

/-- The bases an operation uses (42_command_accept.md R172). -/
def usedBases (op : Op) (r : Regs) : List Word :=
  match op with
  | .sp => [r.yBase, r.c0Base, r.dstBase]
  | .fp => [r.yBase, r.c0Base, r.c1Base, r.dstBase]

/-- Two extents meet (42_command_accept.md R180). -/
def Extent.meets (src dst : Extent) : Bool := decide (src.lo < dst.hi) && decide (dst.lo < src.hi)

end Sys2Proof.Machine
end

