-- ==== Sys2Proof/Machine/Checks.lean ====
section
/-! DEFINITION. The precondition checks of a command (42_command_accept.md R172 to R180), on the
parameter registers as they stand at the CMD write. -/

namespace Sys2Proof.Machine

/-- Check 2 (42_command_accept.md R174). -/
def zeroDimension (r : Regs) : Bool := frameW r == 0 || frameH r == 0

/-- Check 3 (42_command_accept.md R175). -/
def widthOdd (r : Regs) : Bool := r.width.getLsbD 0

/-- Check 4 (42_command_accept.md R176). -/
def strideShort (op : Op) (r : Regs) : Bool :=
  match op with
  | .sp => decide (r.yStride.toNat < frameW r) || decide (r.c0Stride.toNat < frameW r)
  | .fp => decide (r.yStride.toNat < frameW r) || decide (r.c0Stride.toNat < frameW r / 2)
      || decide (r.c1Stride.toNat < frameW r / 2)

/-- Check 5 (42_command_accept.md R177). -/
def baseNull (op : Op) (r : Regs) : Bool := (usedBases op r).any fun b => b == 0#32

/-- Check 6 (42_command_accept.md R178). -/
def outOfRange (op : Op) (r : Regs) : Bool :=
  (dstExtent r :: sourceExtents op r).any fun e => decide (Config.busSize < e.hi)

/-- Check 7 (42_command_accept.md R179). -/
def dstMisaligned (r : Regs) : Bool := r.dstBase.extractLsb' 0 2 != 0#2

/-- Check 8 (42_command_accept.md R180). -/
def overlaps (op : Op) (r : Regs) : Bool :=
  (sourceExtents op r).any fun e => e.meets (dstExtent r)

/-- Checks 2 to 8 in order, the first failing one reported (42_command_accept.md R170, R181;
60_exceptions.md R252). -/
def frameError (op : Op) (r : Regs) : Option ErrCode :=
  if zeroDimension r then some .zeroDim
  else if widthOdd r then some .oddWidth
  else if strideShort op r then some .stride
  else if baseNull op r then some .null
  else if outOfRange op r then some .range
  else if dstMisaligned r then some .align
  else if overlaps op r then some .overlap
  else none

/-- All the checks on a command word: check 1, then checks 2 to 8 of a legal opcode
(42_command_accept.md R173). -/
def commandError (c : Word) (r : Regs) : Option ErrCode :=
  match opOf c with
  | none => some .badCmd
  | some op => frameError op r

end Sys2Proof.Machine
end

