-- ==== Sys2Proof/Machine/Flags.lean ====
section
/-! DEFINITION. STATUS, CTRL and the interrupt output: their values as words and their updates. -/

namespace Sys2Proof.Machine

/-- The code of a result (60_exceptions.md R250). -/
def ErrCode.code : ErrCode → BitVec 4
  | .ok => 0
  | .badCmd => 1
  | .zeroDim => 2
  | .oddWidth => 3
  | .stride => 4
  | .null => 5
  | .range => 6
  | .align => 7
  | .overlap => 8
  | .bus => 9

/-- STATUS as read: `{24'b0, ERR[3:0], 2'b00, DONE, BUSY}` (45_register_access.md R235). -/
def statusWord (r : Regs) : Word :=
  0#24 ++ r.err.code ++ 0#2 ++ BitVec.ofBool r.done ++ BitVec.ofBool r.busy

/-- CTRL as read: `{31'b0, IRQ_EN}` (45_register_access.md R236). -/
def ctrlWord (r : Regs) : Word := 0#31 ++ BitVec.ofBool r.irqEn

/-- The interrupt output: `DONE AND IRQ_EN` (60_exceptions.md R260). -/
def irq (r : Regs) : Bool := r.done && r.irqEn

/-- The end of a command with a result: ERR, DONE <- 1, BUSY <- 0 (42_command_accept.md R181,
43_convert_sp.md R195, 60_exceptions.md R256). -/
def Regs.ended (r : Regs) (e : ErrCode) : Regs := { r with busy := false, done := true, err := e }

/-- The start of a frame: FAULT_ADDR <- 0, ERR <- 0, DONE <- 0, BUSY <- 1 (42_command_accept.md
R182). -/
def Regs.started (r : Regs) : Regs :=
  { r with busy := true, done := false, err := .ok, faultAddr := 0 }

/-- A write to STATUS: bit 1 clears DONE, every other bit is ignored (45_register_access.md R235). -/
def Regs.writeStatus (r : Regs) (d : Word) : Regs :=
  { r with done := r.done && !d.getLsbD 1 }

/-- A write to CTRL stores bit 0 (45_register_access.md R236). -/
def Regs.writeCtrl (r : Regs) (d : Word) : Regs := { r with irqEn := d.getLsbD 0 }

/-- How a host reads BUSY, DONE and ERR out of a STATUS value (30_encoding.md R101). -/
def busyBit (s : Word) : Bool := s.getLsbD 0

@[inherit_doc busyBit] def doneBit (s : Word) : Bool := s.getLsbD 1

@[inherit_doc busyBit] def errField (s : Word) : BitVec 4 := s.extractLsb' 4 4

end Sys2Proof.Machine
end

