-- ==== Sys2Proof/Machine/Ops.lean ====
section
/-! DEFINITION. The operations every meaning is made of: bytes of memory, the engine's bus accesses,
the end of a command (the converter's exception entry) and the clearing of its report (the return),
command acceptance, reset, and the reads and writes of the register window. -/

namespace Sys2Proof.Machine

/-! ### Memory -/

/-- What a byte that nothing has written reads as. DESIGN CHOICE (log 6; unsafe). -/
def unlistedByte : Byte := 0#8

/-- The canonical form: addresses strictly rising, inside the bus space, and no entry equal to what
an unlisted address reads as. -/
abbrev Memory.wf (m : Memory) : Prop :=
  m.Pairwise (fun c d => c.1 < d.1) ∧ ∀ c ∈ m, c.2 ≠ unlistedByte ∧ c.1 < Config.busSize

/-- The byte at an address. -/
def readByte : Memory → Nat → Byte
  | [], _ => unlistedByte
  | (k, b) :: m, a => if a = k then b else readByte m a

/-- A byte stored at an address, keeping the canonical form. -/
def writeByte : Memory → Nat → Byte → Memory
  | [], a, b => if b = unlistedByte then [] else [(a, b)]
  | (k, c) :: m, a, b =>
      if a < k then (if b = unlistedByte then (k, c) :: m else (a, b) :: (k, c) :: m)
      else if a = k then (if b = unlistedByte then m else (a, b) :: m)
      else (k, c) :: writeByte m a b

/-- Bytes stored at rising addresses from `a`. -/
def writeBytes : Memory → Nat → List Byte → Memory
  | m, _, [] => m
  | m, a, b :: bs => writeBytes (writeByte m a b) (a + 1) bs

/-- The four bytes of a word in little-endian order (20_memory.md R64). -/
def leBytes (v : Word) : List Byte :=
  [v.extractLsb' 0 8, v.extractLsb' 8 8, v.extractLsb' 16 8, v.extractLsb' 24 8]

/-- A word stored in little-endian byte order (20_memory.md R64). -/
def writeWord (m : Memory) (a : Nat) (v : Word) : Memory := writeBytes m a (leBytes v)

/-- The word at an address, by the byte order of 20_memory.md R64. -/
def readWord (m : Memory) (a : Nat) : Word :=
  readByte m (a + 3) ++ readByte m (a + 2) ++ readByte m (a + 1) ++ readByte m a

/-- Byte `i` of a word, little-endian (20_memory.md R64). -/
def byteOf (v : Word) (i : Nat) : Byte := v.extractLsb' (8 * i) 8

/-- The aligned word that holds the byte at `a`. -/
def wordBase (a : Nat) : Nat := 4 * (a / 4)

/-- Byte `i` of `mergeWord`. -/
def mergeByte (old new : Word) (mask : BitVec 4) (i : Nat) : Byte :=
  if mask.getLsbD i then byteOf new i else byteOf old i

/-- The word `old` with the bytes in `mask` taken from `new`. -/
def mergeWord (old new : Word) (mask : BitVec 4) : Word :=
  mergeByte old new mask 3 ++ mergeByte old new mask 2 ++ mergeByte old new mask 1
    ++ mergeByte old new mask 0

/-! ### The engine's bus accesses -/

/-- The hole catches an access of `size` bytes at `a`. -/
def BusHole.catches (h : BusHole) (a size : Nat) (kind : BusKind) : Bool :=
  h.kind == kind && decide (h.lo < a + size) && decide (a < h.hi)

/-- How the platform answers an access it does not admit; none when it admits it (20_memory.md
R61). -/
def busAnswer (p : List BusHole) (a size : Nat) (kind : BusKind) : Option BusAnswer :=
  (p.find? fun h => h.catches a size kind).map BusHole.answer

/-- `admits(addr, size, kind)` (20_memory.md R61). -/
def admits (p : List BusHole) (a size : Nat) (kind : BusKind) : Bool :=
  (busAnswer p a size kind).isNone

/-- The store wrote the byte at `a`. -/
def HostStore.covers (st : HostStore) (a : Nat) : Bool :=
  st.addr == wordBase a && st.mask.getLsbD (a % 4)

/-- The values the byte at `a` had before the stores of it during the running command, newest first. -/
def formerValues (raced : List HostStore) (a : Nat) : List Byte :=
  (raced.filter fun st => st.covers a).map fun st => byteOf st.former (a % 4)

/-- The byte the engine's `k`-th access of a step reads: memory's, or, where the host wrote it during
the command, that or any former value (20_memory.md R79, 93 S6). -/
def engineByte (k a : Nat) (s : State) : Byte :=
  match formerValues s.raced a with
  | [] => readByte s.mem a
  | old :: olds =>
      (readByte s.mem a :: old :: olds).getD
        (Config.raceChoice s.freeCount k % (olds.length + 2)) (readByte s.mem a)

/-- The stores into the word at `a` that land after the engine's write of it: some number of the newest
(20_memory.md R79, 93 S7; log 14). -/
def laterStores (k a : Nat) (s : State) : List HostStore :=
  match s.raced.filter fun st => st.addr == a with
  | [] => []
  | st :: sts => (st :: sts).take (Config.raceChoice s.freeCount k % (sts.length + 2))

/-- The bytes that any of the stores wrote. -/
def storedMask (sts : List HostStore) : BitVec 4 := sts.foldr (fun st m => st.mask ||| m) 0#4

/-- The word that the engine's write of `v` at `a` leaves there: the host's bytes where a store of the
host lands after it, else the engine's (20_memory.md R79, 93 S7). -/
def racedWord (k a : Nat) (v : Word) (s : State) : Word :=
  mergeWord v (readWord s.mem a) (storedMask (laterStores k a s))

/-- The engine's write of `v` at `a` lands, and the host may not see it yet (20_memory.md R66, R78). -/
def engineWrite (k a : Nat) (v : Word) (s : State) : State :=
  { s with
    mem := writeWord s.mem a (racedWord k a v s)
    unseen := ⟨a, v, readWord s.mem a⟩ :: s.unseen }

/-- `MemRead(a, 1)` (00_scope.md R9, 20_memory.md R62), the `k`-th access of its step. -/
def memRead (k a : Nat) (s : State) : Except EngineStop Byte :=
  if Config.busSize ≤ a then .error (.fault .addressBeyondBus)
  else match busAnswer s.platform a 1 .read with
    | some .busError => .error (.busError (BitVec.ofNat 32 a))
    | some .noAnswer => .error .noAnswer
    | none => .ok (engineByte k a s)

/-- `MemWrite(a, 4, v)` (00_scope.md R9, 20_memory.md R62, R64 to R66), the `k`-th access of its
step. -/
def memWrite (k a : Nat) (v : Word) (s : State) : Except EngineStop State :=
  if a % 4 ≠ 0 then .error (.fault .misalignedWrite)
  else if Config.busSize ≤ a then .error (.fault .addressBeyondBus)
  else match busAnswer s.platform a 4 .write with
    | some .busError => .error (.busError (BitVec.ofNat 32 a))
    | some .noAnswer => .error .noAnswer
    | none => .ok (engineWrite k a v s)

/-! ### The end of a command, and the clearing of its report -/

/-- Working registers nobody may rely on: the free value number `n` (60_exceptions.md R256, 93 S1 and
S2; log 8). -/
def freeWorking (n : Nat) : Working where
  op := (Config.freeWord n 0).setWidth 4
  width := (Config.freeWord n 1).setWidth 16
  height := (Config.freeWord n 2).setWidth 16
  ys := Config.freeWord n 3
  cs0 := Config.freeWord n 4
  cs1 := Config.freeWord n 5
  db := Config.freeWord n 6
  j := (Config.freeWord n 7).setWidth 16
  x := (Config.freeWord n 8).setWidth 16
  yp := Config.freeWord n 9
  cp0 := Config.freeWord n 10
  cp1 := Config.freeWord n 11
  dp := Config.freeWord n 12

/-- A command ends with a result: the one entry shared by COMPLETE (43_convert_sp.md R195), an
acceptance error (42_command_accept.md R181) and a bus error (60_exceptions.md R256). There is no
vector, mode or saved program counter (R255). -/
def endCommand (e : ErrCode) (s : State) : State := { s with regs := s.regs.ended e }

/-- A bus error at address `a` ends the command (60_exceptions.md R256). -/
def busErrorEnd (a : Word) (s : State) : State :=
  endCommand .bus { s with
    regs := { s.regs with faultAddr := a }
    w := freeWorking s.freeCount
    freeCount := s.freeCount + 1 }

/-- The host ends a report by clearing DONE (60_exceptions.md R258): the write of `d` to STATUS. -/
def clearReport (d : Word) (s : State) : State := { s with regs := s.regs.writeStatus d }

/-! ### Command acceptance -/

/-- The working registers latched at acceptance (42_command_accept.md R182; 10_state.md R35, R36). -/
def latch (c : Word) (r : Regs) : Working where
  op := c.extractLsb' 0 4
  width := r.width
  height := r.height
  ys := r.yStride
  cs0 := r.c0Stride
  cs1 := r.c1Stride
  db := r.dstBase
  j := 0
  x := 0
  yp := r.yBase
  cp0 := r.c0Base
  cp1 := r.c1Base
  dp := r.dstBase

/-- Every check passed: the frame starts (42_command_accept.md R182). No byte is raced yet and no access
waits. -/
def startFrame (c : Word) (s : State) : State :=
  { s with regs := s.regs.started, w := latch c s.regs, hung := false, raced := [] }

/-- A new command: what the host has not seen of the last one joins what it missed of earlier ones,
which this command's DONE = 1 says nothing of (20_memory.md R78; log 15). -/
def setAside (s : State) : State := { s with unseen := [], missed := s.unseen ++ s.missed }

/-- A write of the word `c` to CMD: dropped while BUSY (42_command_accept.md R171), else checked
(R170) and rejected (R181) or started (R182), in one step. -/
def issueCommand (c : Word) (s : State) : State :=
  if s.regs.busy then s
  else match commandError c s.regs with
    | some e => endCommand e (setAside s)
    | none => startFrame c (setAside s)

/-! ### Completion seen by the host -/

/-- The host sees DONE, in STATUS or through `irq`: once DONE = 1, every write of that command is visible
to it (20_memory.md R78, 70_reset_and_hazards.md R287), so an earlier missed write of the same word no
longer hides it. -/
def seeDone (s : State) : State :=
  if s.regs.done then
    { s with
      unseen := []
      missed := s.missed.filter fun e => !s.unseen.any fun u => u.addr == e.addr }
  else s

/-- The host looks at the interrupt output, which is 1 only with DONE = 1 (60_exceptions.md R260,
20_memory.md R78). -/
def observeIrq (s : State) : State :=
  { (if irq s.regs then seeDone s else s) with response := .irqLevel (irq s.regs) }

/-! ### The register window -/

/-- The value a read returns, reserved bits 0 (45_register_access.md R234 to R238). -/
def readValue (q : Reg) (r : Regs) : Word :=
  match q with
  | .cmd => 0#32
  | .status => statusWord r
  | .ctrl => ctrlWord r
  | .width => r.width.setWidth 32
  | .height => r.height.setWidth 32
  | .yStride => r.yStride
  | .c0Stride => r.c0Stride
  | .c1Stride => r.c1Stride
  | .yBase => r.yBase
  | .c0Base => r.c0Base
  | .c1Base => r.c1Base
  | .dstBase => r.dstBase
  | .faultAddr => r.faultAddr

/-- A read of a register: it changes no state, the port answers with the value
(45_register_access.md R230). -/
def hostRead (q : Reg) (s : State) : State := { s with response := .data (readValue q s.regs) }

/-- The write rule of each register (45_register_access.md R234 to R238). -/
def writeRegister (q : Reg) (d : Word) (s : State) : State :=
  match q with
  | .cmd => issueCommand d s
  | .status => clearReport d s
  | .ctrl => { s with regs := s.regs.writeCtrl d }
  | .width => { s with regs := { s.regs with width := d.extractLsb' 0 16 } }
  | .height => { s with regs := { s.regs with height := d.extractLsb' 0 16 } }
  | .yStride => { s with regs := { s.regs with yStride := d } }
  | .c0Stride => { s with regs := { s.regs with c0Stride := d } }
  | .c1Stride => { s with regs := { s.regs with c1Stride := d } }
  | .yBase => { s with regs := { s.regs with yBase := d } }
  | .c0Base => { s with regs := { s.regs with c0Base := d } }
  | .c1Base => { s with regs := { s.regs with c1Base := d } }
  | .dstBase => { s with regs := { s.regs with dstBase := d } }
  | .faultAddr => s

/-- The port acknowledges a write. -/
def acknowledge (s : State) : State := { s with response := .written }

/-- A write of a register (45_register_access.md R231). -/
def hostWrite (q : Reg) (d : Word) (s : State) : State := acknowledge (writeRegister q d s)

/-- A command word arriving in CMD: the write of it, seen as a command (30_encoding.md R90). -/
def hostCommand (c : Word) (s : State) : State := acknowledge (issueCommand c s)

/-- A legal read at a reserved offset returns 0 (45_register_access.md R233). -/
def hostReadReserved (s : State) : State := { s with response := .data 0#32 }

/-- A legal write at a reserved offset has no effect (45_register_access.md R233). -/
def hostWriteReserved (s : State) : State := acknowledge s

/-- An illegal transaction changes no state and gets a slave error (45_register_access.md R232). -/
def hostSlaveError (s : State) : State := { s with response := .slaveError }

/-! ### Reset -/

/-- Reset: every host-visible register at its reset value, the working registers unspecified (a free
value), memory and platform unchanged (70_reset_and_hazards.md R280 to R282; 10_state.md R41). The host
has still not seen the words an abandoned command wrote (log 15). -/
def assertReset (s : State) : State :=
  { s with
    regs := .reset
    w := freeWorking s.freeCount
    response := .idle
    hung := false
    raced := []
    freeCount := s.freeCount + 1 }

end Sys2Proof.Machine
end

