-- ==== Sys2Proof/Machine/Command.lean ====
section
/-! DEFINITION. The meanings of the command words (format CMD32): what the write of each to CMD does.
The frame of an accepted command is then the engine's pair steps (Engine.lean). -/

namespace Sys2Proof.Machine

/-- CONVERT.SP (43_convert_sp.md R190, R191): the word 0x00000001 written to CMD. -/
def execConvertSp (s : State) : Host.Outcome State Fault Refusal :=
  .next (hostCommand 0x00000001#32 s)

/-- CONVERT.FP (44_convert_fp.md R210, R211): the word 0x00000002 written to CMD. -/
def execConvertFp (s : State) : Host.Outcome State Fault Refusal :=
  .next (hostCommand 0x00000002#32 s)

/-- Any other word written to CMD (30_encoding.md R92): ERR_BAD_CMD, or dropped while BUSY. -/
def execIllegalCommand (c : Word) (s : State) : Host.Outcome State Fault Refusal :=
  .next (hostCommand c s)

end Sys2Proof.Machine
end

