-- ==== Sys2Proof/Machine/RegisterAccess.lean ====
section
/-! DEFINITION. The meanings of the register-access transactions (format HA9, 45_register_access.md),
one definition per row of the opcode table over the shared reads and writes of Ops.lean. -/

namespace Sys2Proof.Machine

/-- RD CMD (45_register_access.md R234). -/
def execRdCmd (s : State) : Host.Outcome State Fault Refusal := .next (hostRead .cmd s)

/-- WR CMD (45_register_access.md R234). -/
def execWrCmd (d : Word) (s : State) : Host.Outcome State Fault Refusal :=
  .next (hostWrite .cmd d s)

/-- RD STATUS (45_register_access.md R235); a read of DONE = 1 is the point at which the command's
writes become visible to the host (20_memory.md R78). -/
def execRdStatus (s : State) : Host.Outcome State Fault Refusal :=
  .next (hostRead .status (seeDone s))

/-- WR STATUS (45_register_access.md R235). -/
def execWrStatus (d : Word) (s : State) : Host.Outcome State Fault Refusal :=
  .next (hostWrite .status d s)

/-- RD CTRL (45_register_access.md R236). -/
def execRdCtrl (s : State) : Host.Outcome State Fault Refusal := .next (hostRead .ctrl s)

/-- WR CTRL (45_register_access.md R236). -/
def execWrCtrl (d : Word) (s : State) : Host.Outcome State Fault Refusal :=
  .next (hostWrite .ctrl d s)

/-- RD WIDTH (45_register_access.md R237). -/
def execRdWidth (s : State) : Host.Outcome State Fault Refusal := .next (hostRead .width s)

/-- WR WIDTH (45_register_access.md R237). -/
def execWrWidth (d : Word) (s : State) : Host.Outcome State Fault Refusal :=
  .next (hostWrite .width d s)

/-- RD HEIGHT (45_register_access.md R237). -/
def execRdHeight (s : State) : Host.Outcome State Fault Refusal := .next (hostRead .height s)

/-- WR HEIGHT (45_register_access.md R237). -/
def execWrHeight (d : Word) (s : State) : Host.Outcome State Fault Refusal :=
  .next (hostWrite .height d s)

/-- RD Y_STRIDE (45_register_access.md R237). -/
def execRdYStride (s : State) : Host.Outcome State Fault Refusal := .next (hostRead .yStride s)

/-- WR Y_STRIDE (45_register_access.md R237). -/
def execWrYStride (d : Word) (s : State) : Host.Outcome State Fault Refusal :=
  .next (hostWrite .yStride d s)

/-- RD C0_STRIDE (45_register_access.md R237). -/
def execRdC0Stride (s : State) : Host.Outcome State Fault Refusal := .next (hostRead .c0Stride s)

/-- WR C0_STRIDE (45_register_access.md R237). -/
def execWrC0Stride (d : Word) (s : State) : Host.Outcome State Fault Refusal :=
  .next (hostWrite .c0Stride d s)

/-- RD C1_STRIDE (45_register_access.md R237). -/
def execRdC1Stride (s : State) : Host.Outcome State Fault Refusal := .next (hostRead .c1Stride s)

/-- WR C1_STRIDE (45_register_access.md R237). -/
def execWrC1Stride (d : Word) (s : State) : Host.Outcome State Fault Refusal :=
  .next (hostWrite .c1Stride d s)

/-- RD Y_BASE (45_register_access.md R237). -/
def execRdYBase (s : State) : Host.Outcome State Fault Refusal := .next (hostRead .yBase s)

/-- WR Y_BASE (45_register_access.md R237). -/
def execWrYBase (d : Word) (s : State) : Host.Outcome State Fault Refusal :=
  .next (hostWrite .yBase d s)

/-- RD C0_BASE (45_register_access.md R237). -/
def execRdC0Base (s : State) : Host.Outcome State Fault Refusal := .next (hostRead .c0Base s)

/-- WR C0_BASE (45_register_access.md R237). -/
def execWrC0Base (d : Word) (s : State) : Host.Outcome State Fault Refusal :=
  .next (hostWrite .c0Base d s)

/-- RD C1_BASE (45_register_access.md R237). -/
def execRdC1Base (s : State) : Host.Outcome State Fault Refusal := .next (hostRead .c1Base s)

/-- WR C1_BASE (45_register_access.md R237). -/
def execWrC1Base (d : Word) (s : State) : Host.Outcome State Fault Refusal :=
  .next (hostWrite .c1Base d s)

/-- RD DST_BASE (45_register_access.md R237). -/
def execRdDstBase (s : State) : Host.Outcome State Fault Refusal := .next (hostRead .dstBase s)

/-- WR DST_BASE (45_register_access.md R237). -/
def execWrDstBase (d : Word) (s : State) : Host.Outcome State Fault Refusal :=
  .next (hostWrite .dstBase d s)

/-- RD FAULT_ADDR (45_register_access.md R238). -/
def execRdFaultAddr (s : State) : Host.Outcome State Fault Refusal := .next (hostRead .faultAddr s)

/-- WR FAULT_ADDR (45_register_access.md R238). -/
def execWrFaultAddr (d : Word) (s : State) : Host.Outcome State Fault Refusal :=
  .next (hostWrite .faultAddr d s)

/-- RD of a reserved offset (45_register_access.md R233). The offset plays no part. -/
def execRdReserved (_o : Offset) (s : State) : Host.Outcome State Fault Refusal :=
  .next (hostReadReserved s)

/-- WR of a reserved offset (45_register_access.md R233). Offset and data play no part. -/
def execWrReserved (_o : Offset) (_d : Word) (s : State) : Host.Outcome State Fault Refusal :=
  .next (hostWriteReserved s)

/-- A misaligned or wrong-sized transaction (45_register_access.md R232). -/
def execIllegalAccess (_dir : Direction) (_o : Offset) (_size : Nat) (_d : Word) (s : State) :
    Host.Outcome State Fault Refusal :=
  .next (hostSlaveError s)

end Sys2Proof.Machine
end

