-- ==== Sys2Proof/Machine/Dispatch.lean ====
section
/-! DEFINITION. One arm per row of spec/opcode_table.json. -/

namespace Sys2Proof.Machine

def exec (i : Instr) (s : State) : Host.Outcome State Fault Refusal :=
  match i with
  | .convertSp => Sys2Proof.Machine.execConvertSp s
  | .convertFp => Sys2Proof.Machine.execConvertFp s
  | .illegalCommand c => Sys2Proof.Machine.execIllegalCommand c s
  | .rdCmd => Sys2Proof.Machine.execRdCmd s
  | .wrCmd d => Sys2Proof.Machine.execWrCmd d s
  | .rdStatus => Sys2Proof.Machine.execRdStatus s
  | .wrStatus d => Sys2Proof.Machine.execWrStatus d s
  | .rdCtrl => Sys2Proof.Machine.execRdCtrl s
  | .wrCtrl d => Sys2Proof.Machine.execWrCtrl d s
  | .rdWidth => Sys2Proof.Machine.execRdWidth s
  | .wrWidth d => Sys2Proof.Machine.execWrWidth d s
  | .rdHeight => Sys2Proof.Machine.execRdHeight s
  | .wrHeight d => Sys2Proof.Machine.execWrHeight d s
  | .rdYStride => Sys2Proof.Machine.execRdYStride s
  | .wrYStride d => Sys2Proof.Machine.execWrYStride d s
  | .rdC0Stride => Sys2Proof.Machine.execRdC0Stride s
  | .wrC0Stride d => Sys2Proof.Machine.execWrC0Stride d s
  | .rdC1Stride => Sys2Proof.Machine.execRdC1Stride s
  | .wrC1Stride d => Sys2Proof.Machine.execWrC1Stride d s
  | .rdYBase => Sys2Proof.Machine.execRdYBase s
  | .wrYBase d => Sys2Proof.Machine.execWrYBase d s
  | .rdC0Base => Sys2Proof.Machine.execRdC0Base s
  | .wrC0Base d => Sys2Proof.Machine.execWrC0Base d s
  | .rdC1Base => Sys2Proof.Machine.execRdC1Base s
  | .wrC1Base d => Sys2Proof.Machine.execWrC1Base d s
  | .rdDstBase => Sys2Proof.Machine.execRdDstBase s
  | .wrDstBase d => Sys2Proof.Machine.execWrDstBase d s
  | .rdFaultAddr => Sys2Proof.Machine.execRdFaultAddr s
  | .wrFaultAddr d => Sys2Proof.Machine.execWrFaultAddr d s
  | .rdReserved o => Sys2Proof.Machine.execRdReserved o s
  | .wrReserved o d => Sys2Proof.Machine.execWrReserved o d s
  | .illegalAccess dir o size d => Sys2Proof.Machine.execIllegalAccess dir o size d s

end Sys2Proof.Machine
end

