-- ==== Sys2Proof/Machine/Datapath.lean ====
section
/-! DEFINITION. The Saturation Table (40_saturation.md) and the pixel datapath (41_pixel_datapath.md),
in unbounded integers (R146). -/

namespace Sys2Proof.Machine

/-- Truncating division for `d > 0` (00_scope.md R8). -/
def tdiv (n d : Int) : Int := if 0 ≤ n then n / d else -(-n / d)

/-- `clamp(v, 0, 255)` as a byte, the two-comparator form of the table (40_saturation.md R122). -/
def clampByte (v : Int) : Byte :=
  if v < 0 then 0 else if 255 < v then 255 else BitVec.ofInt 8 v

/-- The Saturation Table: a byte inside its domain, refused outside (40_saturation.md R120, R121). -/
def SAT (v : Int) : Option Byte :=
  if Config.satLo ≤ v ∧ v ≤ Config.satHi then some (clampByte v) else none

/-- The Saturation ROM's 814 entries (40_saturation.md R123). -/
def lut (i : Fin 814) : Byte :=
  if i.val ≤ 278 then 0 else if i.val ≤ 532 then BitVec.ofNat 8 (i.val - 278) else 255

/-- The entry at a 10-bit index; the ROM has none from 814 on (40_saturation.md R123). -/
def romEntry (i : BitVec 10) : Option Byte :=
  if h : i.toNat < 814 then some (lut ⟨i.toNat, h⟩) else none

/-- The three channels of one pixel (41_pixel_datapath.md R140). -/
structure Channels where
  r : Byte
  g : Byte
  b : Byte
  deriving DecidableEq, Repr

/-- `y = Ys - 16` (41_pixel_datapath.md R141). -/
def lumaOffset (ys : Byte) : Int := (ys.toNat : Int) - 16

/-- `u = Us - 128`, `v = Vs - 128` (41_pixel_datapath.md R142). -/
def chromaOffset (c : Byte) : Int := (c.toNat : Int) - 128

/-- The red numerator `nr` (41_pixel_datapath.md R143, R144). -/
def redNum (ys vs : Byte) : Int := 298 * lumaOffset ys + 409 * chromaOffset vs

/-- The green numerator `ng`, one sum of both chroma terms (41_pixel_datapath.md R143, R144). -/
def greenNum (ys us vs : Byte) : Int :=
  298 * lumaOffset ys + -208 * chromaOffset vs + -100 * chromaOffset us

/-- The blue numerator `nb` (41_pixel_datapath.md R143, R144). -/
def blueNum (ys us : Byte) : Int := 298 * lumaOffset ys + 517 * chromaOffset us

/-- PIXEL (41_pixel_datapath.md R140): each channel is divided by 256 and saturated. The saturation is
the clamp; every argument lies in the table's domain (40_saturation.md R125). -/
def pixel (ys us vs : Byte) : Channels where
  r := clampByte (tdiv (redNum ys vs) 256)
  g := clampByte (tdiv (greenNum ys us vs) 256)
  b := clampByte (tdiv (blueNum ys us) 256)

/-- PACK_SP (41_pixel_datapath.md R148): bytes R, G, B, 0 from the least significant. -/
def packSp (c : Channels) : Word := 0#8 ++ c.b ++ c.g ++ c.r

/-- PACK_FP (41_pixel_datapath.md R149): bytes B, G, R, 0 from the least significant. -/
def packFp (c : Channels) : Word := 0#8 ++ c.r ++ c.g ++ c.b

/-- The packing of an operation. -/
def pack (op : Op) (c : Channels) : Word :=
  match op with
  | .sp => packSp c
  | .fp => packFp c

end Sys2Proof.Machine
end

