-- ==== Sys2Proof/Machine/Engine.lean ====
section
/-! DEFINITION. The engine: one atomic pair step per turn (43_convert_sp.md R192, 44_convert_fp.md
R212), ADVANCE and COMPLETE. -/

namespace Sys2Proof.Machine

/-- COMPLETE (43_convert_sp.md R195, 44_convert_fp.md R215). -/
def complete (s : State) : State := endCommand .ok s

/-- The working registers when row w.J is finished (43_convert_sp.md R194): pointer sums are taken
modulo 2^32. -/
def nextRow (w : Working) : Working :=
  { w with
    x := 0
    yp := w.yp + w.ys
    cp0 := if w.j.getLsbD 0 then w.cp0 + w.cs0 else w.cp0
    cp1 := if w.j.getLsbD 0 && w.op == 2#4 then w.cp1 + w.cs1 else w.cp1
    dp := w.dp + 4#32 * w.width.setWidth 32
    j := w.j + 1 }

/-- ADVANCE (43_convert_sp.md R194, 44_convert_fp.md R214). -/
def advance (s : State) : State :=
  if s.w.x + 2 = s.w.width then
    if s.w.j + 1 = s.w.height then complete { s with w := nextRow s.w }
    else { s with w := nextRow s.w }
  else { s with w := { s.w with x := s.w.x + 2 } }

/-- The addresses of a pair step's six accesses, in their order (20_memory.md R72). -/
structure PairPlan where
  lumaA : Nat
  lumaB : Nat
  chromaU : Nat
  chromaV : Nat
  dstA : Nat
  dstB : Nat
  deriving DecidableEq, Repr

/-- SP_PAIR_STEP's addresses: C-second (U role) at `x + 1` is read before C-first (V role) at `x`
(43_convert_sp.md R192, R193). -/
def spPlan (w : Working) : PairPlan where
  lumaA := w.yp.toNat + w.x.toNat
  lumaB := w.yp.toNat + w.x.toNat + 1
  chromaU := w.cp0.toNat + w.x.toNat + 1
  chromaV := w.cp0.toNat + w.x.toNat
  dstA := w.dp.toNat + 4 * w.x.toNat
  dstB := w.dp.toNat + 4 * w.x.toNat + 4

/-- FP_PAIR_STEP's addresses (44_convert_fp.md R212, R213). -/
def fpPlan (w : Working) : PairPlan where
  lumaA := w.yp.toNat + w.x.toNat
  lumaB := w.yp.toNat + w.x.toNat + 1
  chromaU := w.cp0.toNat + w.x.toNat / 2
  chromaV := w.cp1.toNat + w.x.toNat / 2
  dstA := w.dp.toNat + 4 * w.x.toNat
  dstB := w.dp.toNat + 4 * w.x.toNat + 4

/-- The two output words of a pair: one lane per luma sample, the chroma shared
(41_pixel_datapath.md R152). -/
structure PairWords where
  a : Word
  b : Word
  deriving DecidableEq, Repr

/-- A pair step's four reads, in order, and its two words. -/
def pairWords (op : Op) (p : PairPlan) (s : State) : Except EngineStop PairWords :=
  match memRead 0 p.lumaA s with
  | .error e => .error e
  | .ok ya =>
    match memRead 1 p.lumaB s with
    | .error e => .error e
    | .ok yb =>
      match memRead 2 p.chromaU s with
      | .error e => .error e
      | .ok u =>
        match memRead 3 p.chromaV s with
        | .error e => .error e
        | .ok v => .ok ⟨pack op (pixel ya u v), pack op (pixel yb u v)⟩

/-- How a pair step ends at the access that stopped it, from the state its earlier accesses left
(00_scope.md R10): a bus error ends the command (60_exceptions.md R256); with no answer the engine
hangs there and takes no further step (93 S12, log 11). Either way the free values of this step are used
up (log 9). -/
def stopPair (e : EngineStop) (s : State) : Host.Outcome State Fault Refusal :=
  match e with
  | .busError a => .next (busErrorEnd a s)
  | .noAnswer => .next { s with hung := true, freeCount := s.freeCount + 1 }
  | .fault f => .fault f

/-- One pair step: four reads, two writes, ADVANCE. -/
def pairStep (op : Op) (p : PairPlan) (s : State) : Host.Outcome State Fault Refusal :=
  match pairWords op p s with
  | .error e => stopPair e s
  | .ok v =>
    match memWrite 4 p.dstA v.a s with
    | .error e => stopPair e s
    | .ok s1 =>
      match memWrite 5 p.dstB v.b s1 with
      | .error e => stopPair e s1
      | .ok s2 => .next (advance { s2 with freeCount := s2.freeCount + 1 })

/-- SP_PAIR_STEP (43_convert_sp.md R192). -/
def spPairStep (s : State) : Host.Outcome State Fault Refusal := pairStep .sp (spPlan s.w) s

/-- FP_PAIR_STEP (44_convert_fp.md R212). -/
def fpPairStep (s : State) : Host.Outcome State Fault Refusal := pairStep .fp (fpPlan s.w) s

/-- The engine's turn: the pair step that is enabled, if one is. Idle while BUSY = 0; stuck once an
access was never answered (93 S12); with w.OP neither 1 nor 2, which no run reaches, no step is enabled
(log 13). -/
def engineTurn (s : State) : Host.Outcome State Fault Refusal :=
  if s.regs.busy && !s.hung then
    if s.w.op = 1#4 then spPairStep s
    else if s.w.op = 2#4 then fpPairStep s
    else .next s
  else .next s

/-- The state after the first of the running pair step's two writes, if the step gets that far. -/
def afterFirstWrite (op : Op) (p : PairPlan) (s : State) : State :=
  match pairWords op p s with
  | .error _ => s
  | .ok v =>
    match memWrite 4 p.dstA v.a s with
    | .error _ => s
    | .ok s1 => s1

/-- Reset between a pair step's two writes, which are two atomic writes (20_memory.md R66): the first
word is new, the second old (70_reset_and_hazards.md R280, R281; log 16). -/
def resetMidPair (s : State) : State :=
  assertReset
    (if s.regs.busy && !s.hung then
      if s.w.op = 1#4 then afterFirstWrite .sp (spPlan s.w) s
      else if s.w.op = 2#4 then afterFirstWrite .fp (fpPlan s.w) s
      else s
    else s)

end Sys2Proof.Machine
end

