-- ==== Sys2Proof/Machine/HostMemory.lean ====
section
/-! DEFINITION. Memory as the host and the other bus masters use it, between engine steps: stores that
race with a running command (20_memory.md R79, 70_reset_and_hazards.md R286), loads that may see a word
old or new (R78, R287), and the host's cache (R80). -/

namespace Sys2Proof.Machine

/-! ### The bus -/

/-- A store changes the word whichever value of it the host sees. -/
def storeSeen (a : Nat) (mask : BitVec 4) (v : Word) (l : List EngineStore) : List EngineStore :=
  l.map fun e => if e.addr = a then { e with former := mergeWord e.former v mask } else e

/-- What a store into the word at `a` does to memory. While no command runs it lands. While one runs it
is a race (20_memory.md R79, 93 S7; log 14): over a word the engine has written, either it lands or the
engine's word is the last; any other word takes it, and its former value is kept in `raced`, since the
engine may still read either, or write the word before the store or after it. -/
def raceStore (a : Nat) (mask : BitVec 4) (v : Word) (s : State) : State :=
  if !s.regs.busy then
    { s with mem := writeWord s.mem a (mergeWord (readWord s.mem a) v mask) }
  else match s.unseen.find? fun e => e.addr == a with
    | none =>
      { s with
        mem := writeWord s.mem a (mergeWord (readWord s.mem a) v mask)
        raced := ⟨a, mask, readWord s.mem a⟩ :: s.raced }
    | some e =>
      if Config.raceChoice s.freeCount 0 % 2 = 1 then { s with mem := writeWord s.mem a e.value }
      else { s with mem := writeWord s.mem a (mergeWord (readWord s.mem a) v mask) }

/-- A store of the bytes in `mask` into the aligned word at `a` reaches the bus. -/
def busStore (a : Nat) (mask : BitVec 4) (v : Word) (s : State) : State :=
  { raceStore a mask v s with
    unseen := storeSeen a mask v s.unseen
    missed := storeSeen a mask v s.missed
    freeCount := s.freeCount + 1 }

/-- The word at `a` as a load from the bus sees it: memory's, or, where the engine wrote it and the host
has not seen DONE = 1 since, that or a value from before such a write, whole (20_memory.md R66, R78;
70_reset_and_hazards.md R286, R287; 93 S5; log 15). BUSY plays no part. -/
def busView (a : Nat) (s : State) : Word :=
  match (s.unseen ++ s.missed).filter fun e => e.addr == a with
  | [] => readWord s.mem a
  | e :: es =>
      (readWord s.mem a :: e.former :: es.map EngineStore.former).getD
        (Config.raceChoice s.freeCount 0 % (es.length + 2)) (readWord s.mem a)

/-! ### The host's cache (20_memory.md R80, 70_reset_and_hazards.md R284; log 19) -/

/-- The cache's copy of the word at `a`, which counts only where COHERENT is false. -/
def cachedCopy (a : Nat) (s : State) : Option CachedWord :=
  match s.cache.find? fun c => c.addr == a with
  | none => none
  | some c => if Config.coherent then none else some c

/-- The word at `a` as the host sees it. -/
def hostWord (a : Nat) (s : State) : Word :=
  match cachedCopy a s with
  | some c => c.value
  | none => busView a s

/-- The bytes of the word at `a` that the host has stored in its cache and not cleaned. -/
def dirtyMask (a : Nat) (s : State) : BitVec 4 :=
  match cachedCopy a s with
  | some c => c.dirty
  | none => 0#4

/-- The cache takes a copy of a word, where COHERENT is false. -/
def putCached (c : CachedWord) (s : State) : State :=
  if Config.coherent then s
  else { s with cache := c :: s.cache.filter fun d => d.addr != c.addr }

/-! ### The host's accesses -/

/-- A load of the word at `a` brings it into the cache. -/
def hostLoad (a : Nat) (s : State) : State :=
  { putCached ⟨a, hostWord a s, dirtyMask a s⟩ s with freeCount := s.freeCount + 1 }

/-- The host loads the aligned word at `a`. -/
def hostLoadWord (a : Nat) (s : State) : State :=
  { hostLoad a s with response := .loadedWord (hostWord a s) }

/-- The host loads the byte at `a`. -/
def hostLoadByte (a : Nat) (s : State) : State :=
  { hostLoad (wordBase a) s with response := .loaded (byteOf (hostWord (wordBase a) s) (a % 4)) }

/-- The host stores the bytes in `mask` of the aligned word at `a`: on the bus where COHERENT is true,
else in its cache. -/
def hostStore (a : Nat) (mask : BitVec 4) (v : Word) (s : State) : State :=
  if Config.coherent then busStore a mask v s
  else
    { putCached ⟨a, mergeWord (hostWord a s) v mask, dirtyMask a s ||| mask⟩ s with
      freeCount := s.freeCount + 1 }

/-- The byte `a % 4` of a word, as a mask. -/
def laneMask (a : Nat) : BitVec 4 := BitVec.ofNat 4 (2 ^ (a % 4))

/-- A byte in every byte of a word. -/
def lanes (b : Byte) : Word := b ++ b ++ b ++ b

/-- The host stores the byte at `a`. -/
def hostStoreByte (a : Nat) (b : Byte) (s : State) : State :=
  hostStore (wordBase a) (laneMask a) (lanes b) s

/-- The host cleans the word at `a` from its cache: its stored bytes reach the bus. -/
def cacheClean (a : Nat) (s : State) : State :=
  match cachedCopy a s with
  | none => s
  | some c =>
    if c.dirty = 0#4 then s
    else busStore a c.dirty c.value (putCached { c with dirty := 0#4 } s)

/-- The host invalidates the word at `a` in its cache. -/
def cacheInvalidate (a : Nat) (s : State) : State :=
  { s with cache := s.cache.filter fun c => c.addr != a }

end Sys2Proof.Machine
end

