-- ==== Sys2Proof/Machine/Step.lean ====
section
/-! DEFINITION. One step: the oldest pending input, or the engine's turn when none is pending. -/

namespace Sys2Proof.Machine

/-- One step (00_scope.md R3, R10; 45_register_access.md R231; log 3). A transaction is decoded and
executed; every other input is its operation; with no input left the engine moves
(70_reset_and_hazards.md R295). -/
def step (s : State) : Host.Outcome State Fault Refusal :=
  match s.inputs with
  | [] => engineTurn s
  | .transaction m :: rest => exec (decode m) { s with inputs := rest }
  | .engine :: rest => engineTurn { s with inputs := rest }
  | .reset :: rest => .next (assertReset { s with inputs := rest })
  | .resetMidPair :: rest => .next (resetMidPair { s with inputs := rest })
  | .storeByte a b :: rest => .next (hostStoreByte a.toNat b { s with inputs := rest })
  | .storeWord i v :: rest => .next (hostStore (4 * i.toNat) 0xF#4 v { s with inputs := rest })
  | .loadByte a :: rest => .next (hostLoadByte a.toNat { s with inputs := rest })
  | .loadWord i :: rest => .next (hostLoadWord (4 * i.toNat) { s with inputs := rest })
  | .cacheClean i :: rest => .next (cacheClean (4 * i.toNat) { s with inputs := rest })
  | .cacheInvalidate i :: rest => .next (cacheInvalidate (4 * i.toNat) { s with inputs := rest })
  | .busStore i mask v :: rest => .next (busStore (4 * i.toNat) mask v { s with inputs := rest })
  | .observeIrq :: rest => .next (observeIrq { s with inputs := rest })

/-- The host's next transaction is the table word `w` of `nbits` bits (log 4): it is put before the
pending inputs. A word the decoder refuses changes nothing. -/
def State.withFetchWord (s : State) (nbits w : Nat) : State :=
  match tableMessage nbits w with
  | .ok m => { s with inputs := .transaction m :: s.inputs }
  | .error _ => s

end Sys2Proof.Machine
end

