-- ==== Sys2Proof/Machine/HostProgram.lean ====
section
/-! DEFINITION. The host's program notation (30_encoding.md R98 to R101): statements, the transactions
they make and the pseudo-instructions' expansions. The host's own processor is outside the converter
(R40, log 24): only the transactions reach it. -/

namespace Sys2Proof.Machine

/-- A value written: a number or a command mnemonic (30_encoding.md R98, R99). -/
inductive HostValue
  | number (v : Word)
  | command (op : Op)
  deriving DecidableEq, Repr

/-- A statement of a host program (30_encoding.md R99); `status` is the last line of the entry-point
calls, `st = s[7:4]` (R100). -/
inductive HostStmt
  | wr (r : Reg) (v : HostValue)
  | rd (r : Reg) (name : String)
  | label (name : String)
  | bz (name : String) (mask : Word) (target : String)
  | status (result name : String)
  deriving DecidableEq, Repr

/-- The command word a mnemonic names (30_encoding.md R98). -/
def commandWord : Op → Word
  | .sp => 0x00000001#32
  | .fp => 0x00000002#32

/-- The number a written value stands for (30_encoding.md R99). -/
def HostValue.word : HostValue → Word
  | .number v => v
  | .command op => commandWord op

/-- The transaction of a statement; none for the host's own instructions (30_encoding.md R99). -/
def transactionOf : HostStmt → Option Message
  | .wr r v => some (writeAt (offsetOf r) v.word)
  | .rd r _ => some (readAt (offsetOf r))
  | .label _ => none
  | .bz _ _ _ => none
  | .status _ _ => none

/-- `BZ` goes to its label when `(v & mask) == 0` (30_encoding.md R99). -/
def bzTaken (v mask : Word) : Bool := v &&& mask == 0#32

/-- Where the host's address map holds a register (10_state.md R21, 92 D41). -/
def registerAddress (r : Reg) : Nat := Config.regBase + (offsetOf r).toNat

/-- `WR r, v` with a number. -/
def wrNumber (r : Reg) (v : Word) : HostStmt := .wr r (.number v)

/-- `CLRDONE` (30_encoding.md R100). -/
def clrDone : List HostStmt := [wrNumber .status 0x00000002#32]

/-- `POLL DONE -> s`, with `fresh` a fresh label (30_encoding.md R100). -/
def pollDone (s fresh : String) : List HostStmt :=
  [.label fresh, .rd .status s, .bz s 0x2#32 fresh]

/-- `SETUP.SP w, h, ys, cs, yb, cb, db` (30_encoding.md R100). -/
def setupSp (w h ys cs yb cb db : Word) : List HostStmt :=
  [wrNumber .width w, wrNumber .height h, wrNumber .yStride ys, wrNumber .c0Stride cs,
   wrNumber .yBase yb, wrNumber .c0Base cb, wrNumber .dstBase db]

/-- `SETUP.FP w, h, ys, us, vs, yb, ub, vb, db` (30_encoding.md R100). -/
def setupFp (w h ys us vs yb ub vb db : Word) : List HostStmt :=
  [wrNumber .width w, wrNumber .height h, wrNumber .yStride ys, wrNumber .c0Stride us,
   wrNumber .c1Stride vs, wrNumber .yBase yb, wrNumber .c0Base ub, wrNumber .c1Base vb,
   wrNumber .dstBase db]

/-- `convert_semi_planar(w, h, ys, cs, yb, cb, db) -> st` (30_encoding.md R100). -/
def convertSemiPlanar (w h ys cs yb cb db : Word) (st s fresh : String) : List HostStmt :=
  setupSp w h ys cs yb cb db ++ [.wr .cmd (.command .sp)] ++ pollDone s fresh ++ [.status st s]

/-- `convert_fully_planar(w, h, ys, us, vs, yb, ub, vb, db) -> st` (30_encoding.md R100). -/
def convertFullyPlanar (w h ys us vs yb ub vb db : Word) (st s fresh : String) : List HostStmt :=
  setupFp w h ys us vs yb ub vb db ++ [.wr .cmd (.command .fp)] ++ pollDone s fresh
    ++ [.status st s]

/-- The inputs a straight run through statements gives the converter, in order. -/
def inputsOf (p : List HostStmt) : List Input :=
  (p.filterMap transactionOf).map Input.transaction

end Sys2Proof.Machine
end

