-- ==== Sys2Proof/Safety.lean ====
section
/-! DEFINITION. The terms claims are made in: the invariant of the machine, the accesses a frame makes
and the platforms that admit them. -/

namespace Sys2Proof.Machine

/-- The operation the engine runs (43_convert_sp.md R192, 44_convert_fp.md R212). -/
def runningOp (w : Working) : Option Op :=
  if w.op = 1#4 then some .sp else if w.op = 2#4 then some .fp else none

/-- The luma base latched at acceptance, recovered from the pointer (10_state.md R37). -/
def latchedY (w : Working) : Word := w.yp - w.j.setWidth 32 * w.ys

/-- The chroma or U base latched at acceptance (10_state.md R37). -/
def latchedC0 (w : Working) : Word := w.cp0 - (w.j >>> 1).setWidth 32 * w.cs0

/-- The V base latched at acceptance, under CONVERT.FP (10_state.md R37). -/
def latchedC1 (w : Working) : Word := w.cp1 - (w.j >>> 1).setWidth 32 * w.cs1

/-- The parameters the running command latched, as parameter registers (10_state.md R35). -/
def latchedParams (w : Working) : Regs :=
  { Regs.reset with
    width := w.width
    height := w.height
    yStride := w.ys
    c0Stride := w.cs0
    c1Stride := w.cs1
    yBase := latchedY w
    c0Base := latchedC0 w
    c1Base := latchedC1 w
    dstBase := w.db }

/-- What holds of the working registers between the pair steps of a running command: its latched
parameters pass every check (42_command_accept.md R184), its position is inside the frame (10_state.md
R36), and its pointers are where R37 says, with no wrap. -/
structure FrameInv (op : Op) (w : Working) : Prop where
  checked : frameError op (latchedParams w) = none
  row : w.j.toNat < w.height.toNat
  column : w.x.toNat < w.width.toNat
  columnEven : w.x.toNat % 2 = 0
  lumaPointer : w.yp.toNat = (latchedY w).toNat + w.j.toNat * w.ys.toNat
  chromaPointer : w.cp0.toNat = (latchedC0 w).toNat + w.j.toNat / 2 * w.cs0.toNat
  vPointer : op = .fp → w.cp1.toNat = (latchedC1 w).toNat + w.j.toNat / 2 * w.cs1.toNat
  dstPointer : w.dp.toNat = w.db.toNat + 4 * w.width.toNat * w.j.toNat

/-- The end of what the running command has written: its position in the destination (20_memory.md R71,
R72), or, where the second write of a pair was never answered, one word further. -/
def writtenEnd (s : State) : Nat :=
  s.w.dp.toNat + 4 * s.w.x.toNat + if s.hung then 4 else 0

/-- The invariant of the machine: memory is canonical, BUSY and DONE are never both 1 (10_state.md
R24), and while BUSY = 1 the result is OK, FAULT_ADDR is 0 (R33, 45_register_access.md R239), the
working registers are those of a running frame, and every write the engine has made for the command lies
in the part of the destination it has been through (20_memory.md R72). -/
structure Inv (s : State) : Prop where
  memory : s.mem.wf
  status : ¬ (s.regs.busy = true ∧ s.regs.done = true)
  running : s.regs.busy = true → s.regs.err = .ok ∧ s.regs.faultAddr = 0#32
  frame : s.regs.busy = true → ∃ op, runningOp s.w = some op ∧ FrameInv op s.w
  written : s.regs.busy = true → ∀ e ∈ s.unseen,
    s.w.db.toNat ≤ e.addr ∧ e.addr + 4 ≤ writtenEnd s

/-- One engine access (20_memory.md R62). -/
structure BusAccess where
  addr : Nat
  size : Nat
  kind : BusKind
  deriving DecidableEq, Repr

/-- The six accesses of the pair at `(j, x)`, in order (20_memory.md R72; 43_convert_sp.md R192,
44_convert_fp.md R212). -/
def pairAccesses (op : Op) (r : Regs) (j x : Nat) : List BusAccess :=
  (match op with
    | .sp => [lumaAddr r j x, lumaAddr r j (x + 1), csecondAddr r j x, cfirstAddr r j x]
    | .fp => [lumaAddr r j x, lumaAddr r j (x + 1), uAddr r j x, vAddr r j x]).map
      (fun a => ⟨a, 1, .read⟩)
  ++ [⟨dstAddr r j x, 4, .write⟩, ⟨dstAddr r j (x + 1), 4, .write⟩]

/-- The platform admits an access (20_memory.md R61). -/
def BusAccess.admitted (p : List BusHole) (b : BusAccess) : Prop := admits p b.addr b.size b.kind = true

/-- The platform admits every access of the pair at `(j, x)`. -/
def admitsPair (op : Op) (p : List BusHole) (r : Regs) (j x : Nat) : Prop :=
  ∀ b ∈ pairAccesses op r j x, b.admitted p

/-- The platform admits every access of a frame (70_reset_and_hazards.md R284 (1)). -/
def admitsFrame (op : Op) (p : List BusHole) (r : Regs) : Prop :=
  ∀ j x, j < frameH r → x < frameW r → x % 2 = 0 → admitsPair op p r j x

/-- The byte in the U role of the block of sample `(j, x)` (43_convert_sp.md R193, 44_convert_fp.md
R213). -/
def uRoleAddr (op : Op) (r : Regs) (j x : Nat) : Nat :=
  match op with
  | .sp => csecondAddr r j (x / 2 * 2)
  | .fp => uAddr r j x

/-- The byte in the V role of the block of sample `(j, x)` (43_convert_sp.md R193, 44_convert_fp.md
R213). -/
def vRoleAddr (op : Op) (r : Regs) (j x : Nat) : Nat :=
  match op with
  | .sp => cfirstAddr r j (x / 2 * 2)
  | .fp => vAddr r j x

/-- The word the frame law gives sample `(j, x)`, from the memory before the command
(43_convert_sp.md R190, 44_convert_fp.md R210). -/
def frameWord (op : Op) (r : Regs) (m : Memory) (j x : Nat) : Word :=
  pack op (pixel (readByte m (lumaAddr r j x)) (readByte m (uRoleAddr op r j x))
    (readByte m (vRoleAddr op r j x)))

/-- The word of sample `(j, x)` as a pair step computes it: the frame law's, from the bytes its accesses
read, which a store during the command may have raced with (20_memory.md R79). The luma sample at an
even column is the step's first access, the other its second; the pair shares the two chroma bytes. -/
def seenWord (op : Op) (r : Regs) (s : State) (j x : Nat) : Word :=
  pack op (pixel (engineByte (x % 2) (lumaAddr r j x) s) (engineByte 2 (uRoleAddr op r j x) s)
    (engineByte 3 (vRoleAddr op r j x) s))

/-- The word that a pair step's write leaves at sample `(j, x)`, where a store during the command may
have raced with it (20_memory.md R79, 93 S7). -/
def landedWord (op : Op) (r : Regs) (s : State) (j x : Nat) : Word :=
  racedWord (4 + x % 2) (dstAddr r j x) (seenWord op r s j x) s

/-- No store during the command wrote a byte the access touches. -/
def BusAccess.unraced (s : State) (b : BusAccess) : Prop :=
  ∀ i, i < b.size → ∀ st ∈ s.raced, st.covers (b.addr + i) = false

/-- The command of an operation, as an instruction. -/
def convertOf : Op → Instr
  | .sp => .convertSp
  | .fp => .convertFp

/-- Check `e` fails for the command word `c`, in the words of 42_command_accept.md R173 to R180. -/
def checkFails (c : Word) (r : Regs) (e : ErrCode) : Prop :=
  let sp := c.extractLsb' 0 4 = 1#4
  let w := r.width.toNat
  let h := r.height.toNat
  let hc := (h + 1) / 2
  let lumaHi := r.yBase.toNat + (h - 1) * r.yStride.toNat + w
  let chromaHi := r.c0Base.toNat + (hc - 1) * r.c0Stride.toNat + w
  let uHi := r.c0Base.toNat + (hc - 1) * r.c0Stride.toNat + w / 2
  let vHi := r.c1Base.toNat + (hc - 1) * r.c1Stride.toNat + w / 2
  let dstHi := r.dstBase.toNat + 4 * w * h
  let meetsDst := fun (base : Word) (hi : Nat) => base.toNat < dstHi ∧ r.dstBase.toNat < hi
  match e with
  | .badCmd => c.extractLsb' 4 28 ≠ 0#28 ∨ (c.extractLsb' 0 4 ≠ 1#4 ∧ c.extractLsb' 0 4 ≠ 2#4)
  | .zeroDim => w = 0 ∨ h = 0
  | .oddWidth => w % 2 = 1
  | .stride => r.yStride.toNat < w ∨ (sp ∧ r.c0Stride.toNat < w) ∨
      (¬ sp ∧ (r.c0Stride.toNat < w / 2 ∨ r.c1Stride.toNat < w / 2))
  | .null => r.yBase = 0#32 ∨ r.c0Base = 0#32 ∨ r.dstBase = 0#32 ∨ (¬ sp ∧ r.c1Base = 0#32)
  | .range => 2 ^ 32 < lumaHi ∨ 2 ^ 32 < dstHi ∨ (sp ∧ 2 ^ 32 < chromaHi) ∨
      (¬ sp ∧ (2 ^ 32 < uHi ∨ 2 ^ 32 < vHi))
  | .align => r.dstBase.toNat % 4 ≠ 0
  | .overlap => meetsDst r.yBase lumaHi ∨ (sp ∧ meetsDst r.c0Base chromaHi) ∨
      (¬ sp ∧ (meetsDst r.c0Base uHi ∨ meetsDst r.c1Base vHi))
  | .ok => False
  | .bus => False

/-- `n` steps of the machine, stopping at the first fault or refusal. -/
def run : Nat → State → Host.Outcome State Fault Refusal
  | 0, s => .next s
  | n + 1, s =>
    match run n s with
    | .next t => step t
    | .fault f => .fault f
    | .refused r => .refused r

end Sys2Proof.Machine
end

