-- ==== Sys2Proof/Certificates/Slice0/Obligations.lean ====
section
/-! DEFINITION. The statements for the provers. Each names the rule of spec/ it formalises, or the
log entry it rests on. -/

open Sys2Proof Sys2Proof.Machine

/-! ### Encoding -/

/-- Decoding an encoded well-formed instruction gives it back, with every operand at every value. -/
def Obligations.DecodeEncodeRoundTrip : Prop := ∀ i : Instr, i.wf = true → decode (encode i) = i

/-- Every message in which a read carries no data decodes to a well-formed instruction whose encoding
it is. -/
def Obligations.EncodeDecodeRoundTrip : Prop :=
  ∀ m : Message, m.wf = true → (decode m).wf = true ∧ encode (decode m) = m

/-- 30_encoding.md R91: the opcode map. -/
def Obligations.CommandWordMap : Prop :=
  ∀ c : Word,
    (decode (.command c) = .convertSp ↔ c = 0x00000001#32) ∧
    (decode (.command c) = .convertFp ↔ c = 0x00000002#32) ∧
    (decode (.command c) = .illegalCommand c ↔ c ≠ 0x00000001#32 ∧ c ≠ 0x00000002#32)

/-- Words of the opcode table, written out (30_encoding.md R91, R94; 95 section 4). -/
def Obligations.TableWordsDecode : Prop :=
  decodeTableWord 32 0x00000001 = some .convertSp ∧
  decodeTableWord 32 0x00000002 = some .convertFp ∧
  decodeTableWord 32 0x80000001 = some (.illegalCommand 0x80000001#32) ∧
  decodeTableWord 16 0b000000100 = some .rdStatus ∧
  decodeTableWord 16 0b000110000 = some .rdFaultAddr ∧
  decodeTableWord 16 0b100000000 = some (.wrCmd 0#32) ∧
  decodeTableWord 16 0b100101100 = some (.wrDstBase 0#32) ∧
  decodeTableWord 16 0b001000000 = some (.rdReserved 0x40#8) ∧
  decodeTableWord 16 0b111111100 = some (.wrReserved 0xFC#8 0#32) ∧
  decodeTableWord 16 0b000000110 = some (.illegalAccess .read 0x06#8 4 0#32) ∧
  decode (.access 0b100001100#9 1 0x55#32) = .illegalAccess .write 0x0C#8 1 0x55#32

/-! ### Steps -/

/-- A step runs the decoded transaction: with a transaction as the oldest pending input, `step` is
`exec` of what it decodes to, on the state with that input taken. The input list is the model's form
of the host (log 3). -/
def Obligations.StepRunsTheDecodedTransaction : Prop :=
  ∀ (s : State) (rest : List Input),
    (∀ m, s.inputs = .transaction m :: rest →
      step s = exec (decode m) { s with inputs := rest }) ∧
    (∀ i : Instr, i.wf = true → s.inputs = .transaction (encode i) :: rest →
      step s = exec i { s with inputs := rest }) ∧
    (∀ nbits w i, decodeTableWord nbits w = some i → step (s.withFetchWord nbits w) = exec i s)

/-- With nothing pending, or a turn left to it, the engine moves (log 3). -/
def Obligations.StepOtherwiseIsTheEngines : Prop :=
  ∀ s : State,
    (s.inputs = [] → step s = engineTurn s) ∧
    (∀ rest, s.inputs = .engine :: rest → step s = engineTurn { s with inputs := rest })

/-- 60_exceptions.md R251, 42_command_accept.md R181: no host transaction stops the machine, and none
touches memory, the host's cache, the platform, the pending inputs or the count of free values. -/
def Obligations.EveryTransactionCompletesAndSparesMemory : Prop :=
  ∀ (i : Instr) (s : State), ∃ t, exec i s = .next t ∧ t.mem = s.mem ∧ t.platform = s.platform ∧
    t.inputs = s.inputs ∧ t.cache = s.cache ∧ t.freeCount = s.freeCount

/-! ### Commands -/

/-- 42_command_accept.md R173 to R180, with R252's order: the reported check is the first that fails,
and a command passes exactly when none does; the checks' codes. -/
def Obligations.FirstFailingCheckIsReported : Prop :=
  ∀ (c : Word) (r : Regs),
    (∀ e, commandError c r = some e ↔
      checkFails c r e ∧ ∀ e' : ErrCode, e'.code.toNat < e.code.toNat → ¬ checkFails c r e') ∧
    (commandError c r = none ↔ ∀ e, ¬ checkFails c r e) ∧
    [ErrCode.badCmd, .zeroDim, .oddWidth, .stride, .null, .range, .align, .overlap].map ErrCode.code
      = [1#4, 2#4, 3#4, 4#4, 5#4, 6#4, 7#4, 8#4]

/-- From 42_command_accept.md R182: a command that passes every check latches its parameters and starts;
everything else is unchanged but for the port's acknowledgement and, the model's own, the records of stores
(log 14, 15), and no access waits (log 11). The same for the write of the command word to CMD. The engine's
next turn is the operation's pair step. -/
def Obligations.PassingCommandStartsTheFrame : Prop :=
  ∀ (op : Op) (s : State), s.regs.busy = false → (∀ e, ¬ checkFails (commandWord op) s.regs e) →
    let t : State :=
      { s with
        regs := { s.regs with busy := true, done := false, err := .ok, faultAddr := 0#32 }
        w :=
          { op := match op with | .sp => 1#4 | .fp => 2#4
            width := s.regs.width, height := s.regs.height
            ys := s.regs.yStride, cs0 := s.regs.c0Stride, cs1 := s.regs.c1Stride
            db := s.regs.dstBase
            j := 0#16, x := 0#16
            yp := s.regs.yBase, cp0 := s.regs.c0Base, cp1 := s.regs.c1Base
            dp := s.regs.dstBase }
        hung := false
        raced := []
        unseen := []
        missed := s.unseen ++ s.missed
        response := .written }
    exec (convertOf op) s = .next t ∧ exec (.wrCmd (commandWord op)) s = .next t ∧
    engineTurn t = (match op with | .sp => spPairStep t | .fp => fpPairStep t)

/-- From 42_command_accept.md R181: the first failing check ends the command with its code; nothing else
changes but the port's acknowledgement and the model's record of the writes the host has not seen (log
15). The write of any word that fails a check, and the command itself. -/
def Obligations.RejectedCommandReportsItsCheck : Prop :=
  ∀ (c : Word) (s : State) (e : ErrCode), s.regs.busy = false → checkFails c s.regs e →
    (∀ e' : ErrCode, e'.code.toNat < e.code.toNat → ¬ checkFails c s.regs e') →
    let t : State :=
      { s with
        regs := { s.regs with busy := false, done := true, err := e }
        unseen := []
        missed := s.unseen ++ s.missed
        response := .written }
    exec (.wrCmd c) s = .next t ∧ exec (decode (.command c)) s = .next t

/-- From 42_command_accept.md R173 and R181, 30_encoding.md R92: an illegal command word ends the command
with ERR_BAD_CMD, code 1, whatever the parameters are; nothing else changes but the port's acknowledgement
and the model's record of the writes the host has not seen (log 15). -/
def Obligations.IllegalCommandWordIsReported : Prop :=
  ∀ (c : Word) (s : State), s.regs.busy = false →
    (c.extractLsb' 4 28 ≠ 0#28 ∨ (c.extractLsb' 0 4 ≠ 1#4 ∧ c.extractLsb' 0 4 ≠ 2#4)) →
    let t : State :=
      { s with
        regs := { s.regs with busy := false, done := true, err := .badCmd }
        unseen := []
        missed := s.unseen ++ s.missed
        response := .written }
    exec (.illegalCommand c) s = .next t ∧ exec (.wrCmd c) s = .next t ∧
    ErrCode.badCmd.code = 1#4

/-- 42_command_accept.md R171: a command while BUSY = 1 is dropped and changes nothing but the port's
acknowledgement; CMD reads 0 whether or not a command runs. -/
def Obligations.CommandWhileBusyIsDropped : Prop :=
  (∀ (c : Word) (s : State), s.regs.busy = true →
    exec (.wrCmd c) s = .next { s with response := .written } ∧
    exec (decode (.command c)) s = .next { s with response := .written }) ∧
  (∀ s : State, exec .rdCmd s = .next { s with response := .data 0x00000000#32 })

/-- 10_state.md R42: acceptance overwrites every working register, so what a command starts with
depends on the parameter registers alone. -/
def Obligations.StartedFrameForgetsThePast : Prop :=
  ∀ (op : Op) (s s' t t' : State), s.regs.busy = false → s'.regs.busy = false →
    (∀ e, ¬ checkFails (commandWord op) s.regs e) →
    s'.regs = { s.regs with done := s'.regs.done, err := s'.regs.err, irqEn := s'.regs.irqEn,
                            faultAddr := s'.regs.faultAddr } →
    exec (convertOf op) s = .next t → exec (convertOf op) s' = .next t' →
    t'.w = t.w ∧ t'.hung = t.hung ∧ t'.raced = t.raced ∧ t'.unseen = t.unseen ∧
    t'.regs = { t.regs with irqEn := s'.regs.irqEn }

/-- 42_command_accept.md R172, 43_convert_sp.md R190: a CONVERT.SP command reads neither C1_STRIDE nor
C1_BASE, in its checks, its acceptance or its frame law; and its pair steps read neither w.CS1 nor
w.CP1: other values there give the same outcome but for themselves. -/
def Obligations.SemiPlanarIgnoresTheVPlane : Prop :=
  ∀ cs cb : Word,
    (∀ (r : Regs) (m : Memory) (j x : Nat),
      frameError .sp { r with c1Stride := cs, c1Base := cb } = frameError .sp r ∧
      frameWord .sp { r with c1Stride := cs, c1Base := cb } m j x = frameWord .sp r m j x) ∧
    (∀ s t : State, exec .convertSp s = .next t →
      ∃ u, exec .convertSp { s with regs := { s.regs with c1Stride := cs, c1Base := cb } } = .next u ∧
        u = { t with
          regs := { t.regs with c1Stride := cs, c1Base := cb }
          w := { t.w with cs1 := u.w.cs1, cp1 := u.w.cp1 } }) ∧
    (∀ s t : State, runningOp s.w = some .sp → engineTurn s = .next t →
      ∃ u, engineTurn { s with w := { s.w with cs1 := cs, cp1 := cb } } = .next u ∧
        u = { t with w := { t.w with cs1 := u.w.cs1, cp1 := u.w.cp1 } })

/-! ### Register access -/

/-- 45_register_access.md R237: the parameter registers' writes and reads, at any time, running
command or not. -/
def Obligations.ParameterRegisterAccess : Prop :=
  ∀ (d : Word) (s : State),
    exec (.wrWidth d) s = .next { s with
      regs := { s.regs with width := d.extractLsb' 0 16 }, response := .written } ∧
    exec (.wrHeight d) s = .next { s with
      regs := { s.regs with height := d.extractLsb' 0 16 }, response := .written } ∧
    exec (.wrYStride d) s = .next { s with
      regs := { s.regs with yStride := d }, response := .written } ∧
    exec (.wrC0Stride d) s = .next { s with
      regs := { s.regs with c0Stride := d }, response := .written } ∧
    exec (.wrC1Stride d) s = .next { s with
      regs := { s.regs with c1Stride := d }, response := .written } ∧
    exec (.wrYBase d) s = .next { s with
      regs := { s.regs with yBase := d }, response := .written } ∧
    exec (.wrC0Base d) s = .next { s with
      regs := { s.regs with c0Base := d }, response := .written } ∧
    exec (.wrC1Base d) s = .next { s with
      regs := { s.regs with c1Base := d }, response := .written } ∧
    exec (.wrDstBase d) s = .next { s with
      regs := { s.regs with dstBase := d }, response := .written } ∧
    exec .rdWidth s = .next { s with response := .data (0#16 ++ s.regs.width) } ∧
    exec .rdHeight s = .next { s with response := .data (0#16 ++ s.regs.height) } ∧
    exec .rdYStride s = .next { s with response := .data s.regs.yStride } ∧
    exec .rdC0Stride s = .next { s with response := .data s.regs.c0Stride } ∧
    exec .rdC1Stride s = .next { s with response := .data s.regs.c1Stride } ∧
    exec .rdYBase s = .next { s with response := .data s.regs.yBase } ∧
    exec .rdC0Base s = .next { s with response := .data s.regs.c0Base } ∧
    exec .rdC1Base s = .next { s with response := .data s.regs.c1Base } ∧
    exec .rdDstBase s = .next { s with response := .data s.regs.dstBase }

/-- 45_register_access.md R235: a STATUS read packs ERR, DONE and BUSY and changes no state of the
converter, only, with DONE = 1, the model's record of the writes the host has not seen (log 15); a write
clears DONE when its bit 1 is set, which lowers `irq`, and does nothing else. -/
def Obligations.StatusAccess : Prop :=
  ∀ (d : Word) (s : State),
    (∃ (v : Word) (t : State), exec .rdStatus s = .next t ∧
      t = { s with response := .data v, unseen := t.unseen, missed := t.missed } ∧
      (s.regs.done = false → t.unseen = s.unseen ∧ t.missed = s.missed) ∧
      v.getLsbD 0 = s.regs.busy ∧ v.getLsbD 1 = s.regs.done ∧ v.extractLsb' 2 2 = 0#2 ∧
      v.extractLsb' 4 4 = s.regs.err.code ∧ v.extractLsb' 8 24 = 0#24) ∧
    (d.getLsbD 1 = true → ∃ t, exec (.wrStatus d) s = .next t ∧ irq t.regs = false ∧
      t = { s with regs := { s.regs with done := false }, response := .written }) ∧
    (d.getLsbD 1 = false → exec (.wrStatus d) s = .next { s with response := .written })

/-- 45_register_access.md R236: CTRL holds IRQ_EN alone, and a write of it acts on `irq` at once. -/
def Obligations.CtrlAccess : Prop :=
  ∀ (d : Word) (s : State),
    exec .rdCtrl s = .next { s with response := .data (0#31 ++ BitVec.ofBool s.regs.irqEn) } ∧
    ∃ t, exec (.wrCtrl d) s = .next t ∧
      t = { s with regs := { s.regs with irqEn := d.getLsbD 0 }, response := .written } ∧
      irq t.regs = (s.regs.done && d.getLsbD 0)

/-- 45_register_access.md R238: FAULT_ADDR is read, and a write of it is ignored without error. -/
def Obligations.FaultAddrAccess : Prop :=
  ∀ (d : Word) (s : State),
    exec .rdFaultAddr s = .next { s with response := .data s.regs.faultAddr } ∧
    exec (.wrFaultAddr d) s = .next { s with response := .written }

/-- 45_register_access.md R233: reserved offsets read 0 and ignore writes, and so do the reserved bits
of STATUS, CTRL, WIDTH and HEIGHT: reading gives 0 there, and two written values that differ only in
them do the same. -/
def Obligations.ReservedOffsetsAndBits : Prop :=
  ∀ (o : Offset) (d d' : Word) (s : State),
    exec (.rdReserved o) s = .next { s with response := .data 0x00000000#32 } ∧
    exec (.wrReserved o d) s = .next { s with response := .written } ∧
    (readValue .status s.regs).extractLsb' 2 2 = 0#2 ∧
    (readValue .status s.regs).extractLsb' 8 24 = 0#24 ∧
    (readValue .ctrl s.regs).extractLsb' 1 31 = 0#31 ∧
    (readValue .width s.regs).extractLsb' 16 16 = 0#16 ∧
    (readValue .height s.regs).extractLsb' 16 16 = 0#16 ∧
    (d.getLsbD 1 = d'.getLsbD 1 → exec (.wrStatus d) s = exec (.wrStatus d') s) ∧
    (d.getLsbD 0 = d'.getLsbD 0 → exec (.wrCtrl d) s = exec (.wrCtrl d') s) ∧
    (d.extractLsb' 0 16 = d'.extractLsb' 0 16 →
      exec (.wrWidth d) s = exec (.wrWidth d') s ∧ exec (.wrHeight d) s = exec (.wrHeight d') s)

/-- 45_register_access.md R232: a host access whose size is not 4 bytes or whose offset is not a
multiple of 4 changes no state, is answered with a slave error and returns no data. -/
def Obligations.IllegalAccessGetsASlaveError : Prop :=
  ∀ (sel : Selector) (size : Nat) (d : Word) (s : State),
    (size ≠ 4 ∨ (sel.extractLsb' 0 8).toNat % 4 ≠ 0) →
    (∃ dir o d', decode (.access sel size d) = .illegalAccess dir o size d') ∧
    ∀ dir o d', exec (.illegalAccess dir o size d') s = .next { s with response := .slaveError }

/-- 45_register_access.md R230: a legal read returns the read value of the register at its offset, or
0 at a reserved one, and changes no state of the converter; a read of STATUS with DONE = 1 changes the
model's record of the writes the host has not seen (log 15). -/
def Obligations.LegalReadReturnsTheRegister : Prop :=
  ∀ (o : Offset) (s : State), o.toNat % 4 = 0 →
    ∃ t, exec (decode (.access (0#1 ++ o) 4 0#32)) s = .next t ∧
      t = { s with
        response := .data (match regAt o with
          | some q => readValue q s.regs
          | none => 0x00000000#32)
        unseen := t.unseen
        missed := t.missed } ∧
      (o ≠ 0x04#8 ∨ s.regs.done = false → t.unseen = s.unseen ∧ t.missed = s.missed)

/-- 45_register_access.md R231, R237: a parameter register reads back what was written, cut to its
width, and every other register reads as before. -/
def Obligations.WriteThenReadBack : Prop :=
  ∀ (q : Reg) (d : Word) (s t : State),
    q ∉ [Reg.cmd, Reg.status, Reg.ctrl, Reg.faultAddr] → exec (writeOf d q) s = .next t →
    exec (readOf q) t = .next { t with
      response := .data (if q = .width ∨ q = .height then d &&& 0xFFFF#32 else d) } ∧
    ∀ q', q' ≠ q → readValue q' t.regs = readValue q' s.regs

/-- 70_reset_and_hazards.md R285: writes of two different parameter registers commute. -/
def Obligations.SetupOrderDoesNotMatter : Prop :=
  ∀ (q q' : Reg) (d d' : Word) (s t u t' u' : State),
    q ≠ q' → q ∉ [Reg.cmd, Reg.status, Reg.ctrl, Reg.faultAddr] →
    q' ∉ [Reg.cmd, Reg.status, Reg.ctrl, Reg.faultAddr] →
    exec (writeOf d q) s = .next t → exec (writeOf d' q') t = .next u →
    exec (writeOf d' q') s = .next t' → exec (writeOf d q) t' = .next u' → u = u'

/-- 45_register_access.md R239, 10_state.md R25: no host transaction stops or alters a running
command. -/
def Obligations.NoTransactionAltersARunningCommand : Prop :=
  ∀ (i : Instr) (s t : State), s.regs.busy = true → exec i s = .next t →
    t.regs.busy = true ∧ t.w = s.w ∧ t.hung = s.hung ∧ t.raced = s.raced ∧ t.regs.err = s.regs.err ∧
    t.regs.faultAddr = s.regs.faultAddr

/-- 10_state.md R35: a running command reads only its working copies. Other values in the parameter
registers, CTRL or FAULT_ADDR give the same pair step. -/
def Obligations.RunningCommandReadsOnlyItsCopies : Prop :=
  ∀ (s t : State) (r : Regs), r.busy = s.regs.busy → engineTurn s = .next t →
    ∃ t', engineTurn { s with regs := r } = .next t' ∧ t'.mem = t.mem ∧ t'.w = t.w ∧
      t'.regs.busy = t.regs.busy

/-! ### STATUS, FAULT_ADDR and the interrupt over any step -/

/-- 60_exceptions.md R260: `irq` is DONE and IRQ_EN, as STATUS and CTRL read. It rises only when a
command ends with IRQ_EN = 1 or IRQ_EN is set while DONE = 1. It falls only when DONE is cleared by a
write of 1 to STATUS bit 1 or by the acceptance of a command, when IRQ_EN is cleared, or at reset. -/
def Obligations.InterruptIsDoneAndEnabled : Prop :=
  (∀ r : Regs, irq r = ((readValue .status r).getLsbD 1 && (readValue .ctrl r).getLsbD 0)) ∧
  (∀ s t : State, step s = .next t → irq s.regs = false → irq t.regs = true →
    (s.regs.irqEn = true ∧ s.regs.done = false ∧ t.regs.done = true ∧ t.regs.busy = false) ∨
    (s.regs.done = true ∧ ∃ m rest d, s.inputs = .transaction m :: rest ∧ decode m = .wrCtrl d ∧
      d.getLsbD 0 = true)) ∧
  (∀ s t : State, step s = .next t → irq s.regs = true → irq t.regs = false →
    (∃ rest, s.inputs = .reset :: rest ∨ s.inputs = .resetMidPair :: rest) ∨
    (∃ m rest, s.inputs = .transaction m :: rest ∧
      ((∃ d, decode m = .wrStatus d ∧ d.getLsbD 1 = true) ∨
       (∃ d, decode m = .wrCtrl d ∧ d.getLsbD 0 = false) ∨
       (s.regs.busy = false ∧ t.regs.busy = true))))

/-- 10_state.md R25: BUSY falls only when the engine completes the frame or meets a bus error, or at
reset; it rises only at the acceptance of a command. -/
def Obligations.BusyChangesOnlyAtStartAndEnd : Prop :=
  ∀ s t : State, step s = .next t →
    (s.regs.busy = true → t.regs.busy = false →
      (∃ rest, s.inputs = .reset :: rest ∨ s.inputs = .resetMidPair :: rest) ∨
      ((s.inputs = [] ∨ ∃ rest, s.inputs = .engine :: rest) ∧ t.regs.done = true ∧
        (t.regs.err = .ok ∨ t.regs.err = .bus))) ∧
    (s.regs.busy = false → t.regs.busy = true →
      ∃ m rest, s.inputs = .transaction m :: rest ∧ ∃ op,
        (decode m = convertOf op ∨ decode m = .wrCmd (commandWord op)) ∧
        ∀ e, ¬ checkFails (commandWord op) s.regs e)

/-- 10_state.md R26: DONE rises only when a command ends: by completion or a bus error in an engine
turn, or rejected at a CMD write. It falls only at an acceptance, by a write of 1 to STATUS bit 1, or
at reset. -/
def Obligations.DoneChangesOnlyAtEndStartAndClearing : Prop :=
  ∀ s t : State, step s = .next t →
    (s.regs.done = false → t.regs.done = true → t.regs.busy = false ∧
      ((s.regs.busy = true ∧ (s.inputs = [] ∨ ∃ rest, s.inputs = .engine :: rest) ∧
        (t.regs.err = .ok ∨ t.regs.err = .bus)) ∨
       (s.regs.busy = false ∧ ∃ m rest c, s.inputs = .transaction m :: rest ∧
        (m = .command c ∨ decode m = .wrCmd c) ∧ checkFails c s.regs t.regs.err))) ∧
    (s.regs.done = true → t.regs.done = false →
      (∃ rest, s.inputs = .reset :: rest ∨ s.inputs = .resetMidPair :: rest) ∨
      (∃ m rest, s.inputs = .transaction m :: rest ∧
        ((∃ d, decode m = .wrStatus d ∧ d.getLsbD 1 = true) ∨
         (s.regs.busy = false ∧ t.regs.busy = true))))

/-- 10_state.md R24: no step leaves BUSY and DONE both 1, unless they were. -/
def Obligations.BusyAndDoneAreNeverBothSet : Prop :=
  ∀ s t : State, ¬ (s.regs.busy = true ∧ s.regs.done = true) → step s = .next t →
    ¬ (t.regs.busy = true ∧ t.regs.done = true)

/-- 10_state.md R27: ERR changes only when a command ends (by completion or a bus error in an engine
turn, or rejected at a CMD write by the check ERR names), when one is accepted, which sets it to 0, or at
reset. -/
def Obligations.ErrChangesOnlyAtStartAndEnd : Prop :=
  ∀ s t : State, step s = .next t → t.regs.err ≠ s.regs.err →
    (t.regs.done = true ∧ t.regs.busy = false ∧
      ((s.regs.busy = true ∧ (s.inputs = [] ∨ ∃ rest, s.inputs = .engine :: rest) ∧
        (t.regs.err = .ok ∨ t.regs.err = .bus)) ∨
       (s.regs.busy = false ∧ ∃ m rest c, s.inputs = .transaction m :: rest ∧
        (m = .command c ∨ decode m = .wrCmd c) ∧ checkFails c s.regs t.regs.err))) ∨
    (s.regs.busy = false ∧ t.regs.busy = true ∧ t.regs.err = .ok) ∨
    (t.regs.err = .ok ∧ ∃ rest, s.inputs = .reset :: rest ∨ s.inputs = .resetMidPair :: rest)

/-- 10_state.md R33: FAULT_ADDR changes only by a bus error, or to 0 at acceptance and at reset. -/
def Obligations.FaultAddrChangesOnlyByBusErrorOrClearing : Prop :=
  ∀ s t : State, step s = .next t → t.regs.faultAddr ≠ s.regs.faultAddr →
    (s.regs.busy = true ∧ t.regs.busy = false ∧ t.regs.done = true ∧ t.regs.err = .bus) ∨
    (t.regs.faultAddr = 0#32 ∧ s.regs.busy = false ∧ t.regs.busy = true) ∨
    (t.regs.faultAddr = 0#32 ∧
      ∃ rest, s.inputs = .reset :: rest ∨ s.inputs = .resetMidPair :: rest)

/-! ### Reset -/

/-- 10_state.md R41: after reset every register reads 0 and `irq` is 0. -/
def Obligations.ResetRegistersReadZero : Prop :=
  (∀ q : Reg, readValue q State.reset.regs = 0x00000000#32) ∧ irq State.reset.regs = false

/-- 70_reset_and_hazards.md R280 to R282: reset, between steps or during one, puts every host-visible
register at its reset value, in every state; between steps it leaves memory alone, and so it does during a
step unless a pair step is under way. Under the invariant, whatever the platform and whatever stores
raced, a reset during any step leaves alone every byte but the first word of the pair at the engine's
position (log 16; `ResetBetweenTheWritesKeepsTheFirst` says when that word is new). -/
def Obligations.ResetClearsEveryRegisterAndSparesMemory : Prop :=
  ∀ (s : State) (rest : List Input),
    (s.inputs = .reset :: rest ∨ s.inputs = .resetMidPair :: rest) →
    let d := dstAddr (latchedParams s.w) s.w.j.toNat s.w.x.toNat
    ∃ t, step s = .next t ∧ (∀ q : Reg, readValue q t.regs = 0x00000000#32) ∧
      irq t.regs = false ∧ t.regs.busy = false ∧ t.platform = s.platform ∧ t.inputs = rest ∧
      (s.inputs = .reset :: rest ∨ s.regs.busy = false ∨ s.hung = true → t.mem = s.mem) ∧
      (Inv s → ∀ a, a < d ∨ d + 4 ≤ a → readByte t.mem a = readByte s.mem a)

/-- 70_reset_and_hazards.md R281, 20_memory.md R66: a reset between the two writes of a pair step leaves
the first word new, and every other byte as it was (log 16); a step that an unadmitted access stops at or
before its first write leaves memory alone. Whatever stores raced: the word is the one the step computes
and lands (log 14), the frame law's where none raced with the accesses made. -/
def Obligations.ResetBetweenTheWritesKeepsTheFirst : Prop :=
  ∀ (op : Op) (s : State) (rest : List Input), s.inputs = .resetMidPair :: rest →
    s.regs.busy = true → runningOp s.w = some op → FrameInv op s.w → s.hung = false →
    let r := latchedParams s.w
    let j := s.w.j.toNat
    let x := s.w.x.toNat
    let made := (pairAccesses op r j x).take 5
    ∃ t, step s = .next t ∧ t.regs = Regs.reset ∧ t.platform = s.platform ∧ t.inputs = rest ∧
      ((∀ b ∈ made, b.admitted s.platform) →
        t.mem = writeWord s.mem (dstAddr r j x) (landedWord op r s j x)) ∧
      ((∃ b ∈ made, ¬ b.admitted s.platform) → t.mem = s.mem) ∧
      (∀ a, a < dstAddr r j x ∨ dstAddr r j x + 4 ≤ a → readByte t.mem a = readByte s.mem a) ∧
      ((∀ b ∈ made, b.unraced s) → landedWord op r s j x = frameWord op r s.mem j x)

/-! ### The datapath -/

/-- 40_saturation.md R120, R121: the Saturation Table is the clamp on its domain, refused outside. -/
def Obligations.SaturationTable : Prop :=
  ∀ v : Int,
    (-278 ≤ v ∧ v ≤ 535 → ∃ b, SAT v = some b ∧
      (b.toNat : Int) = if v < 0 then 0 else if v > 255 then 255 else v) ∧
    (¬ (-278 ≤ v ∧ v ≤ 535) → SAT v = none)

/-- 40_saturation.md R123: the ROM's 814 entries, and its 10-bit index. -/
def Obligations.SaturationRomContents : Prop :=
  (∀ i : Fin 814, SAT ((i.val : Int) - 278) = some (lut i) ∧
    (i.val ≤ 278 → lut i = 0x00#8) ∧
    (278 ≤ i.val → i.val ≤ 533 → (lut i).toNat = i.val - 278) ∧
    (533 ≤ i.val → lut i = 0xFF#8)) ∧
  (∀ (i : BitVec 10) (h : i.toNat < 814), romEntry i = some (lut ⟨i.toNat, h⟩)) ∧
  (∀ i : BitVec 10, 814 ≤ i.toNat → romEntry i = none) ∧
  ∀ v : Int, -278 ≤ v → v ≤ 535 → SAT v = romEntry (BitVec.ofNat 10 (v + 278).toNat)

/-- 40_saturation.md R126: the laws of SAT. -/
def Obligations.SaturationLaws : Prop :=
  (∀ v : Int, 0 ≤ v → v ≤ 255 → SAT v = some (BitVec.ofInt 8 v)) ∧
  (∀ (v₁ v₂ : Int) (b₁ b₂ : Byte), v₁ ≤ v₂ → SAT v₁ = some b₁ → SAT v₂ = some b₂ →
    b₁.toNat ≤ b₂.toNat) ∧
  (∀ (v : Int) (b : Byte), SAT v = some b →
    (b = 0#8 ↔ v ≤ 0) ∧ (b = 255#8 ↔ 255 ≤ v) ∧ SAT (b.toNat : Int) = some b)

/-- 40_saturation.md R125: no channel intermediate leaves the table's domain, so PIXEL's channels are
the table's values; and the extremes are reached. -/
def Obligations.ChannelIntermediatesStayInTheTable : Prop :=
  (∀ y u v : Byte,
    (-223 ≤ tdiv (redNum y v) 256 ∧ tdiv (redNum y v) 256 ≤ 481) ∧
    (-171 ≤ tdiv (greenNum y u v) 256 ∧ tdiv (greenNum y u v) 256 ≤ 432) ∧
    (-277 ≤ tdiv (blueNum y u) 256 ∧ tdiv (blueNum y u) 256 ≤ 534) ∧
    SAT (tdiv (redNum y v) 256) = some (pixel y u v).r ∧
    SAT (tdiv (greenNum y u v) 256) = some (pixel y u v).g ∧
    SAT (tdiv (blueNum y u) 256) = some (pixel y u v).b) ∧
  tdiv (blueNum 0#8 0#8) 256 = -277 ∧ tdiv (blueNum 255#8 255#8) 256 = 534

/-- 41_pixel_datapath.md R146: the numerators' ranges, which fit 19 bits and not 18. -/
def Obligations.NumeratorRanges : Prop :=
  (∀ y u v : Byte,
    (-57120 ≤ redNum y v ∧ redNum y v ≤ 123165) ∧
    (-43884 ≤ greenNum y u v ∧ greenNum y u v ≤ 110646) ∧
    (-70944 ≤ blueNum y u ∧ blueNum y u ≤ 136881)) ∧
  blueNum 0#8 0#8 = -70944 ∧ blueNum 255#8 255#8 = 136881 ∧
  (136881 : Int) < 2 ^ 18 ∧ (-(2 ^ 18) : Int) ≤ -70944 ∧ ¬ (136881 : Int) < 2 ^ 17

/-- 00_scope.md R8 and 41_pixel_datapath.md R140 to R145: the per-channel law, with Lean's own
truncating division. -/
def Obligations.PixelIsTheClampedMatrixProduct : Prop :=
  ∀ ys us vs : Byte,
    let y : Int := (ys.toNat : Int) - 16
    let u : Int := (us.toNat : Int) - 128
    let v : Int := (vs.toNat : Int) - 128
    ((pixel ys us vs).r.toNat : Int) = max 0 (min 255 (Int.tdiv (298 * y + 409 * v) 256)) ∧
    ((pixel ys us vs).g.toNat : Int) =
      max 0 (min 255 (Int.tdiv (298 * y - 208 * v - 100 * u) 256)) ∧
    ((pixel ys us vs).b.toNat : Int) = max 0 (min 255 (Int.tdiv (298 * y + 517 * u) 256))

/-- 41_pixel_datapath.md R147: truncating division, floor division and the threshold form saturate to
the same byte on every numerator. -/
def Obligations.DivisionRealisationsAgree : Prop :=
  ∀ n : Int, -70944 ≤ n → n ≤ 136881 →
    SAT (tdiv n 256) = SAT (n / 256) ∧
    SAT (tdiv n 256) =
      some (if n < 0 then 0#8 else if n ≥ 65536 then 255#8 else BitVec.ofNat 8 (n.toNat >>> 8))

/-- 41_pixel_datapath.md R148, R149, R150: the two packings, byte by byte, and the zero top byte. -/
def Obligations.PackingByteLayout : Prop :=
  ∀ c : Channels,
    (packSp c).toNat = c.b.toNat * 2 ^ 16 + c.g.toNat * 2 ^ 8 + c.r.toNat ∧
    (packFp c).toNat = c.r.toNat * 2 ^ 16 + c.g.toNat * 2 ^ 8 + c.b.toNat ∧
    (packSp c).extractLsb' 24 8 = 0#8 ∧ (packFp c).extractLsb' 24 8 = 0#8

/-- 41_pixel_datapath.md R151: for the same pixel the two packed words differ by the exchange of bytes
[7:0] and [23:16], and are equal exactly when R = B. -/
def Obligations.ChannelOrderLaw : Prop :=
  ∀ ys us vs : Byte,
    let c := pixel ys us vs
    packSp c = (packFp c).extractLsb' 24 8 ++ (packFp c).extractLsb' 0 8
      ++ (packFp c).extractLsb' 8 8 ++ (packFp c).extractLsb' 16 8 ∧
    (packSp c = packFp c ↔ c.r = c.b)

/-! ### Memory -/

/-- 20_memory.md R64: a word write stores its bytes in little-endian order at its four addresses and
changes no other byte; so an SP word lands as R, G, B, 0 and an FP word as B, G, R, 0. -/
def Obligations.WordWriteIsLittleEndian : Prop :=
  ∀ (m : Memory) (a c : Nat) (v : Word), m.wf → a + 4 ≤ 2 ^ 32 →
    readByte (writeWord m a v) (a + 0) = v.extractLsb' 0 8 ∧
    readByte (writeWord m a v) (a + 1) = v.extractLsb' 8 8 ∧
    readByte (writeWord m a v) (a + 2) = v.extractLsb' 16 8 ∧
    readByte (writeWord m a v) (a + 3) = v.extractLsb' 24 8 ∧
    (c < a ∨ a + 4 ≤ c → readByte (writeWord m a v) c = readByte m c) ∧
    ∀ ch : Channels,
      (List.range 4).map (fun i => readByte (writeWord m a (packSp ch)) (a + i))
        = [ch.r, ch.g, ch.b, 0x00#8] ∧
      (List.range 4).map (fun i => readByte (writeWord m a (packFp ch)) (a + i))
        = [ch.b, ch.g, ch.r, 0x00#8]

/-- Two canonical memories that read alike at every address are the same list. The canonical form is
the model's (log 6). -/
def Obligations.CanonicalMemoryIsDeterminedByItsReads : Prop :=
  ∀ m m' : Memory, m.wf → m'.wf → (∀ a, readByte m a = readByte m' a) → m = m'

/-! ### The engine -/

/-- 43_convert_sp.md R192, 44_convert_fp.md R212: a pair step whose accesses are all admitted writes
the two words of its pair at their addresses, then ADVANCE; the model records both words with their
former values (log 15). Whatever stores raced (20_memory.md R79, log 14): the words are computed from the
bytes as the engine reads them, and land as `RacedByteIsOldOrNew` says. Where no byte of the pair's
accesses was raced they are the frame law's and land whole. No access hangs. -/
def Obligations.PairStepWritesItsTwoWords : Prop :=
  ∀ (op : Op) (s : State), s.regs.busy = true → runningOp s.w = some op → FrameInv op s.w →
    s.hung = false →
    let r := latchedParams s.w
    let j := s.w.j.toNat
    let x := s.w.x.toNat
    let half := writeWord s.mem (dstAddr r j x) (landedWord op r s j x)
    (admitsPair op s.platform r j x →
      engineTurn s = .next (advance { s with
        mem := writeWord half (dstAddr r j (x + 1)) (landedWord op r s j (x + 1))
        unseen :=
          ⟨dstAddr r j (x + 1), seenWord op r s j (x + 1), readWord s.mem (dstAddr r j (x + 1))⟩ ::
          ⟨dstAddr r j x, seenWord op r s j x, readWord s.mem (dstAddr r j x)⟩ :: s.unseen
        freeCount := s.freeCount + 1 })) ∧
    ((∀ b ∈ pairAccesses op r j x, b.unraced s) → ∀ i, i < 2 →
      seenWord op r s j (x + i) = frameWord op r s.mem j (x + i) ∧
      landedWord op r s j (x + i) = frameWord op r s.mem j (x + i))

/-- 43_convert_sp.md R194, R195: ADVANCE, from a position inside the frame, register by register, and
COMPLETE after the last pair. -/
def Obligations.AdvanceMovesThroughTheFrame : Prop :=
  ∀ s : State,
    let w := s.w
    let row : Working :=
      { w with
        x := 0#16
        yp := BitVec.ofNat 32 (w.yp.toNat + w.ys.toNat)
        cp0 := if w.j.toNat % 2 = 1 then BitVec.ofNat 32 (w.cp0.toNat + w.cs0.toNat) else w.cp0
        cp1 := if w.j.toNat % 2 = 1 ∧ w.op = 2#4
          then BitVec.ofNat 32 (w.cp1.toNat + w.cs1.toNat) else w.cp1
        dp := BitVec.ofNat 32 (w.dp.toNat + 4 * w.width.toNat)
        j := BitVec.ofNat 16 (w.j.toNat + 1) }
    w.j.toNat < w.height.toNat → w.x.toNat < w.width.toNat → w.x.toNat % 2 = 0 →
    w.width.toNat % 2 = 0 →
    (w.x.toNat + 2 < w.width.toNat →
      advance s = { s with w := { w with x := BitVec.ofNat 16 (w.x.toNat + 2) } }) ∧
    (w.x.toNat + 2 = w.width.toNat → w.j.toNat + 1 < w.height.toNat →
      advance s = { s with w := row }) ∧
    (w.x.toNat + 2 = w.width.toNat → w.j.toNat + 1 = w.height.toNat →
      advance s = { s with
        w := row
        regs := { s.regs with busy := false, done := true, err := .ok } })

/-- 60_exceptions.md R256, R252: the first access the platform answers with a bus error ends the
command: FAULT_ADDR is its address, ERR is 9, and of the pair only a first word already written stays,
the one the step computes and lands whatever stores raced (log 14), the frame law's where none raced with
the accesses made. The working registers are then unspecified, and nothing is said of them. -/
def Obligations.BusErrorEndsTheCommandAtItsAccess : Prop :=
  ∀ (op : Op) (s : State) (k : Nat) (b : BusAccess), s.regs.busy = true →
    runningOp s.w = some op → FrameInv op s.w → s.hung = false →
    let r := latchedParams s.w
    let j := s.w.j.toNat
    let x := s.w.x.toNat
    (pairAccesses op r j x)[k]? = some b →
    (∀ c ∈ (pairAccesses op r j x).take k, c.admitted s.platform) →
    busAnswer s.platform b.addr b.size b.kind = some .busError →
    (∃ t, engineTurn s = .next t ∧
      t.regs = { s.regs with
        faultAddr := BitVec.ofNat 32 b.addr, err := .bus, done := true, busy := false } ∧
      b.addr < 2 ^ 32 ∧ ErrCode.bus.code = 9#4 ∧
      t.mem = (if k = 5 then writeWord s.mem (dstAddr r j x) (landedWord op r s j x) else s.mem) ∧
      t.platform = s.platform ∧ t.inputs = s.inputs ∧ t.response = s.response) ∧
    (k = 5 → (∀ c ∈ (pairAccesses op r j x).take k, c.unraced s) →
      landedWord op r s j x = frameWord op r s.mem j x)

/-- 70_reset_and_hazards.md R295, 93 S12, 20_memory.md R63: at an access that is never answered the
engine takes no further step: the turn leaves everything but a first word already written, the command
stays running, and a further turn changes nothing, so no byte is read again (log 11). That word is the one
the step computes and lands whatever stores raced (log 14), the frame law's where none raced with the
accesses made; the step's free values are used up (log 9). -/
def Obligations.UnansweredAccessStallsTheEngine : Prop :=
  ∀ (op : Op) (s : State) (k : Nat) (b : BusAccess), s.regs.busy = true →
    runningOp s.w = some op → FrameInv op s.w → s.hung = false →
    let r := latchedParams s.w
    let j := s.w.j.toNat
    let x := s.w.x.toNat
    let t : State :=
      { s with
        mem := if k = 5 then writeWord s.mem (dstAddr r j x) (landedWord op r s j x) else s.mem
        unseen :=
          if k = 5 then
            ⟨dstAddr r j x, seenWord op r s j x, readWord s.mem (dstAddr r j x)⟩ :: s.unseen
          else s.unseen
        hung := true
        freeCount := s.freeCount + 1 }
    (pairAccesses op r j x)[k]? = some b →
    (∀ c ∈ (pairAccesses op r j x).take k, c.admitted s.platform) →
    busAnswer s.platform b.addr b.size b.kind = some .noAnswer →
    (engineTurn s = .next t ∧ engineTurn t = .next t) ∧
    (k = 5 → (∀ c ∈ (pairAccesses op r j x).take k, c.unraced s) →
      seenWord op r s j x = frameWord op r s.mem j x ∧
      landedWord op r s j x = frameWord op r s.mem j x)

/-- 42_command_accept.md R184, 20_memory.md R62: under the invariant, an engine turn changes no byte
outside the running command's destination, whatever the platform and the host's races. -/
def Obligations.EngineWritesOnlyTheDestination : Prop :=
  ∀ (s t : State) (a : Nat), Inv s → engineTurn s = .next t →
    (s.regs.busy = true → a < s.w.db.toNat ∨
      s.w.db.toNat + 4 * s.w.width.toNat * s.w.height.toNat ≤ a) →
    readByte t.mem a = readByte s.mem a

/-! ### The invariant -/

/-- The machine's invariant holds at reset. -/
def Obligations.InvariantHoldsAtReset : Prop := Inv State.reset

/-- Every step from a state of the invariant keeps it: canonical memory, BUSY and DONE exclusive, and
while a command runs, ERR and FAULT_ADDR 0, parameters that pass every check, a position inside the
frame, the pointers of 10_state.md R37 and no write beyond the position. -/
def Obligations.EveryStepKeepsTheInvariant : Prop :=
  ∀ s t : State, Inv s → step s = .next t → Inv t

/-- 20_memory.md R65, R74; 42_command_accept.md R184: from a state of the invariant the machine always
has a next state: no address is above the bus space, no word write is misaligned, nothing is refused. -/
def Obligations.TheMachineNeverStops : Prop :=
  ∀ s : State, Inv s → ∃ t, step s = .next t

/-! ### Whole frames -/

/-- 43_convert_sp.md R197, 44_convert_fp.md R216 and 10_state.md R36: after `k` of the `W * H / 2` pair
steps, with the accesses of those pairs admitted and no input pending (the empty list of log 3 is the
model's choice), the command still runs, at row
`k / (W/2)` and column `2 * (k % (W/2))`; the first `2 * k` words of the destination are the frame's,
and every other byte of memory is as before the command. -/
def Obligations.FrameInProgress : Prop :=
  ∀ (op : Op) (s : State) (k : Nat), s.inputs = [] → s.mem.wf → s.regs.busy = false →
    (∀ e, ¬ checkFails (commandWord op) s.regs e) →
    let r := s.regs
    let half := r.width.toNat / 2
    k < half * r.height.toNat →
    (∀ i, i < k → admitsPair op s.platform r (i / half) (2 * (i % half))) →
    ∃ s₁ t, exec (convertOf op) s = .next s₁ ∧ run k s₁ = .next t ∧
      t.regs = { r with busy := true, done := false, err := .ok, faultAddr := 0#32 } ∧
      t.w.j.toNat = k / half ∧ t.w.x.toNat = 2 * (k % half) ∧
      (∀ i, i < 2 * k → readWord t.mem (dstAddr r (i / r.width.toNat) (i % r.width.toNat)) =
        frameWord op r s.mem (i / r.width.toNat) (i % r.width.toNat)) ∧
      (∀ a, a < r.dstBase.toNat ∨ r.dstBase.toNat + 8 * k ≤ a →
        readByte t.mem a = readByte s.mem a)

/-- 43_convert_sp.md R190, R197; 44_convert_fp.md R210, R216: a command that passes its checks and
meets no bus error ends after exactly `W * H / 2` pair steps with ERR = 0; every destination word is
the frame law's word of the sample it belongs to, and no other byte of memory has changed. No input
is pending: the empty list of log 3 is the model's choice. -/
def Obligations.WholeFrameIsConverted : Prop :=
  ∀ (op : Op) (s : State), s.inputs = [] → s.mem.wf → s.regs.busy = false →
    (∀ e, ¬ checkFails (commandWord op) s.regs e) → admitsFrame op s.platform s.regs →
    let r := s.regs
    ∃ s₁ t, exec (convertOf op) s = .next s₁ ∧
      run (r.width.toNat * r.height.toNat / 2) s₁ = .next t ∧
      t.regs = { r with busy := false, done := true, err := .ok, faultAddr := 0#32 } ∧
      (∀ j x, j < r.height.toNat → x < r.width.toNat →
        readWord t.mem (dstAddr r j x) = frameWord op r s.mem j x) ∧
      (∀ a, a < r.dstBase.toNat ∨
          r.dstBase.toNat + 4 * r.width.toNat * r.height.toNat ≤ a →
        readByte t.mem a = readByte s.mem a)

/-! ### The host's own accesses to memory -/

/-- 20_memory.md R79: the engine reads a byte's value or one it had before the stores of it during the
command, and nothing else; with no such store, its value. Each byte of a word the engine writes ends with
the engine's value or the one stored there; where only whole words were stored the word ends whole, the
engine's or the one stored (93 S7). The choice is free (log 14). -/
def Obligations.RacedByteIsOldOrNew : Prop :=
  ∀ (k a : Nat) (s : State),
    (engineByte k a s = readByte s.mem a ∨
      ∃ st ∈ s.raced, st.addr = 4 * (a / 4) ∧ st.mask.getLsbD (a % 4) = true ∧
        engineByte k a s = byteOf st.former (a % 4)) ∧
    ((∀ st ∈ s.raced, ¬ (st.addr = 4 * (a / 4) ∧ st.mask.getLsbD (a % 4) = true)) →
      engineByte k a s = readByte s.mem a) ∧
    ∀ v : Word,
      (∀ i, i < 4 → byteOf (racedWord k a v s) i = byteOf v i ∨
        (byteOf (racedWord k a v s) i = readByte s.mem (a + i) ∧
          ∃ st ∈ s.raced, st.addr = a ∧ st.mask.getLsbD i = true)) ∧
      ((∀ st ∈ s.raced, st.addr = a → st.mask = 0xF#4) →
        racedWord k a v s = v ∨
        (racedWord k a v s = readWord s.mem a ∧ ∃ st ∈ s.raced, st.addr = a))

/-- 20_memory.md R66, R79, 70_reset_and_hazards.md R286, 93 S7: a store into the aligned word at `4 * i`,
of the bytes in `mask` (a byte or a word of the host's, what it cleans from its cache, or another
master's), does not disturb the converter and touches no other word. It lands whole; or, while a command
runs and over a word the engine has written, which lies in the destination up to its position, the word
ends whole as the engine's; or, where COHERENT is false, a store of the host's own stays in its cache as
stored bytes (log 14, 19). With COHERENT true or for another master, and with no command running, it
lands. -/
def Obligations.HostStoreIsOldOrNew : Prop :=
  ∀ (s : State) (rest : List Input) (input : Input) (i : BitVec 30) (mask : BitVec 4) (v : Word),
    Inv s → s.inputs = input :: rest →
    let a := 4 * i.toNat
    let own := (input = .storeWord i v ∧ mask = 0xF#4) ∨
      ∃ x b, input = .storeByte x b ∧ x.toNat / 4 = i.toNat ∧ mask = 1#4 <<< (x.toNat % 4) ∧
        v = b ++ b ++ b ++ b
    own ∨ input = .busStore i mask v ∨
      (input = .cacheClean i ∧ ∃ c, cachedCopy a s = some c ∧ c.dirty = mask ∧ c.value = v) →
    ∃ t, step s = .next t ∧ t.regs = s.regs ∧ t.w = s.w ∧ t.hung = s.hung ∧
      (∀ c, c < a ∨ a + 4 ≤ c → readByte t.mem c = readByte s.mem c) ∧
      ((∀ n, n < 4 → readByte t.mem (a + n) =
          if mask.getLsbD n = true then byteOf v n else readByte s.mem (a + n)) ∨
       (s.regs.busy = true ∧ s.w.db.toNat ≤ a ∧ a + 4 ≤ writtenEnd s ∧
        ∃ e ∈ s.unseen, e.addr = a ∧ readWord t.mem a = e.value) ∨
       (own ∧ Config.coherent = false ∧ t.mem = s.mem ∧ ∃ c, cachedCopy a t = some c ∧
        ∀ n, n < 4 → mask.getLsbD n = true →
          byteOf c.value n = byteOf v n ∧ c.dirty.getLsbD n = true))

/-- 20_memory.md R78: a host load of a word (or of a byte of it) where no write of the engine is unseen,
and of which the host's cache has no copy, returns what memory holds, and changes nothing but the port's
answer and the model's cache and counter. That only a STATUS read of DONE = 1 or a look at `irq` = 1
makes writes seen is R78's; what the cache holds and when is the model's choice (log 15, 19). -/
def Obligations.HostLoadAfterTheCommand : Prop :=
  ∀ (s : State) (rest : List Input) (i : BitVec 30) (x : Word),
    (∀ e ∈ s.unseen ++ s.missed, e.addr ≠ 4 * i.toNat) → cachedCopy (4 * i.toNat) s = none →
    (s.inputs = .loadWord i :: rest → ∃ t, step s = .next t ∧
      t = { s with
        inputs := rest
        response := .loadedWord (readWord s.mem (4 * i.toNat))
        cache := t.cache
        freeCount := t.freeCount }) ∧
    (s.inputs = .loadByte x :: rest → x.toNat / 4 = i.toNat → ∃ t, step s = .next t ∧
      t = { s with
        inputs := rest
        response := .loaded (readByte s.mem x.toNat)
        cache := t.cache
        freeCount := t.freeCount })

/-- 20_memory.md R66, R78; 70_reset_and_hazards.md R286, R287; 93 S5: a host load of a word, in any state
and whatever BUSY is, returns memory's word or the whole word as it was before a write of the engine that
the host has not seen; or its cache's copy, where COHERENT is false (log 15, 19). A load of a byte returns
that byte of such a word. It changes no register and no memory. -/
def Obligations.HostLoadSeesEachWordOldOrNew : Prop :=
  ∀ (s : State) (rest : List Input) (i : BitVec 30),
    let a := 4 * i.toNat
    let sees := fun v : Word =>
      v = readWord s.mem a ∨ (∃ e ∈ s.unseen ++ s.missed, e.addr = a ∧ v = e.former) ∨
      (Config.coherent = false ∧ ∃ c ∈ s.cache, c.addr = a ∧ v = c.value)
    (s.inputs = .loadWord i :: rest → ∃ v t, sees v ∧ step s = .next t ∧
      t.response = .loadedWord v ∧ t.mem = s.mem ∧ t.regs = s.regs ∧ t.w = s.w ∧
      t.unseen = s.unseen ∧ t.missed = s.missed) ∧
    (∀ x, s.inputs = .loadByte x :: rest → x.toNat / 4 = i.toNat → ∃ v t, sees v ∧
      step s = .next t ∧ t.response = .loaded (v.extractLsb' (8 * (x.toNat % 4)) 8) ∧
      t.mem = s.mem ∧ t.regs = s.regs ∧ t.w = s.w ∧ t.unseen = s.unseen ∧ t.missed = s.missed)

/-- 20_memory.md R78, R80; 70_reset_and_hazards.md R284, R287: after the host reads DONE = 1 in STATUS or
sees `irq` = 1, no write of that command is unseen, and none of an earlier one's to the same words; a host
that then invalidates its copy of such a word and loads it gets what memory holds, whatever COHERENT is
(log 15, 19). A look at `irq` = 0 tells nothing. -/
def Obligations.SeeingDoneMakesTheWritesVisible : Prop :=
  ∀ (s : State) (rest : List Input) (i : BitVec 30) (look : Input),
    (s.regs.done = true →
      (look = .transaction (encode .rdStatus) ∨ (look = .observeIrq ∧ s.regs.irqEn = true)) →
      s.inputs = look :: .cacheInvalidate i :: .loadWord i :: rest →
      ∃ u t, step s = .next u ∧ run 3 s = .next t ∧
        u.unseen = [] ∧
        (∀ e, e ∈ u.missed ↔ e ∈ s.missed ∧ ∀ e' ∈ s.unseen, e'.addr ≠ e.addr) ∧
        ((∀ e ∈ u.missed, e.addr ≠ 4 * i.toNat) →
          t.response = .loadedWord (readWord s.mem (4 * i.toNat))) ∧
        t.mem = s.mem ∧ t.regs = s.regs ∧ t.w = s.w) ∧
    (irq s.regs = false → s.inputs = .observeIrq :: rest →
      step s = .next { s with inputs := rest, response := .irqLevel false })
end

