-- ==== Sys2Proof/Laws/State.lean ====
section
/-! SUPPORT. One lemma per field of State for each whole-state update, so that no proof unfolds a
record update; the same for the updates of STATUS and CTRL inside the registers. -/

namespace Sys2Proof.Machine

/-! ### State -/

@[simp] theorem endCommand_regs (e : ErrCode) (s : State) : (endCommand e s).regs = s.regs.ended e := rfl
@[simp] theorem endCommand_w (e : ErrCode) (s : State) : (endCommand e s).w = s.w := rfl
@[simp] theorem endCommand_mem (e : ErrCode) (s : State) : (endCommand e s).mem = s.mem := rfl
@[simp] theorem endCommand_platform (e : ErrCode) (s : State) : (endCommand e s).platform = s.platform := rfl
@[simp] theorem endCommand_inputs (e : ErrCode) (s : State) : (endCommand e s).inputs = s.inputs := rfl
@[simp] theorem endCommand_response (e : ErrCode) (s : State) : (endCommand e s).response = s.response := rfl
@[simp] theorem endCommand_hung (e : ErrCode) (s : State) : (endCommand e s).hung = s.hung := rfl
@[simp] theorem endCommand_cache (e : ErrCode) (s : State) : (endCommand e s).cache = s.cache := rfl
@[simp] theorem endCommand_raced (e : ErrCode) (s : State) : (endCommand e s).raced = s.raced := rfl
@[simp] theorem endCommand_unseen (e : ErrCode) (s : State) : (endCommand e s).unseen = s.unseen := rfl
@[simp] theorem endCommand_missed (e : ErrCode) (s : State) : (endCommand e s).missed = s.missed := rfl
@[simp] theorem endCommand_freeCount (e : ErrCode) (s : State) : (endCommand e s).freeCount = s.freeCount := rfl

@[simp] theorem clearReport_regs (d : Word) (s : State) : (clearReport d s).regs = s.regs.writeStatus d := rfl
@[simp] theorem clearReport_w (d : Word) (s : State) : (clearReport d s).w = s.w := rfl
@[simp] theorem clearReport_mem (d : Word) (s : State) : (clearReport d s).mem = s.mem := rfl
@[simp] theorem clearReport_platform (d : Word) (s : State) : (clearReport d s).platform = s.platform := rfl
@[simp] theorem clearReport_inputs (d : Word) (s : State) : (clearReport d s).inputs = s.inputs := rfl
@[simp] theorem clearReport_response (d : Word) (s : State) : (clearReport d s).response = s.response := rfl
@[simp] theorem clearReport_hung (d : Word) (s : State) : (clearReport d s).hung = s.hung := rfl
@[simp] theorem clearReport_cache (d : Word) (s : State) : (clearReport d s).cache = s.cache := rfl
@[simp] theorem clearReport_raced (d : Word) (s : State) : (clearReport d s).raced = s.raced := rfl
@[simp] theorem clearReport_unseen (d : Word) (s : State) : (clearReport d s).unseen = s.unseen := rfl
@[simp] theorem clearReport_missed (d : Word) (s : State) : (clearReport d s).missed = s.missed := rfl
@[simp] theorem clearReport_freeCount (d : Word) (s : State) : (clearReport d s).freeCount = s.freeCount := rfl

@[simp] theorem busErrorEnd_regs (a : Word) (s : State) : (busErrorEnd a s).regs = Regs.ended { s.regs with faultAddr := a } .bus := rfl
@[simp] theorem busErrorEnd_w (a : Word) (s : State) : (busErrorEnd a s).w = freeWorking s.freeCount := rfl
@[simp] theorem busErrorEnd_mem (a : Word) (s : State) : (busErrorEnd a s).mem = s.mem := rfl
@[simp] theorem busErrorEnd_platform (a : Word) (s : State) : (busErrorEnd a s).platform = s.platform := rfl
@[simp] theorem busErrorEnd_inputs (a : Word) (s : State) : (busErrorEnd a s).inputs = s.inputs := rfl
@[simp] theorem busErrorEnd_response (a : Word) (s : State) : (busErrorEnd a s).response = s.response := rfl
@[simp] theorem busErrorEnd_hung (a : Word) (s : State) : (busErrorEnd a s).hung = s.hung := rfl
@[simp] theorem busErrorEnd_cache (a : Word) (s : State) : (busErrorEnd a s).cache = s.cache := rfl
@[simp] theorem busErrorEnd_raced (a : Word) (s : State) : (busErrorEnd a s).raced = s.raced := rfl
@[simp] theorem busErrorEnd_unseen (a : Word) (s : State) : (busErrorEnd a s).unseen = s.unseen := rfl
@[simp] theorem busErrorEnd_missed (a : Word) (s : State) : (busErrorEnd a s).missed = s.missed := rfl
@[simp] theorem busErrorEnd_freeCount (a : Word) (s : State) : (busErrorEnd a s).freeCount = s.freeCount + 1 := rfl

@[simp] theorem startFrame_regs (c : Word) (s : State) : (startFrame c s).regs = s.regs.started := rfl
@[simp] theorem startFrame_w (c : Word) (s : State) : (startFrame c s).w = latch c s.regs := rfl
@[simp] theorem startFrame_mem (c : Word) (s : State) : (startFrame c s).mem = s.mem := rfl
@[simp] theorem startFrame_platform (c : Word) (s : State) : (startFrame c s).platform = s.platform := rfl
@[simp] theorem startFrame_inputs (c : Word) (s : State) : (startFrame c s).inputs = s.inputs := rfl
@[simp] theorem startFrame_response (c : Word) (s : State) : (startFrame c s).response = s.response := rfl
@[simp] theorem startFrame_hung (c : Word) (s : State) : (startFrame c s).hung = false := rfl
@[simp] theorem startFrame_cache (c : Word) (s : State) : (startFrame c s).cache = s.cache := rfl
@[simp] theorem startFrame_raced (c : Word) (s : State) : (startFrame c s).raced = [] := rfl
@[simp] theorem startFrame_unseen (c : Word) (s : State) : (startFrame c s).unseen = s.unseen := rfl
@[simp] theorem startFrame_missed (c : Word) (s : State) : (startFrame c s).missed = s.missed := rfl
@[simp] theorem startFrame_freeCount (c : Word) (s : State) : (startFrame c s).freeCount = s.freeCount := rfl

@[simp] theorem hostRead_regs (q : Reg) (s : State) : (hostRead q s).regs = s.regs := rfl
@[simp] theorem hostRead_w (q : Reg) (s : State) : (hostRead q s).w = s.w := rfl
@[simp] theorem hostRead_mem (q : Reg) (s : State) : (hostRead q s).mem = s.mem := rfl
@[simp] theorem hostRead_platform (q : Reg) (s : State) : (hostRead q s).platform = s.platform := rfl
@[simp] theorem hostRead_inputs (q : Reg) (s : State) : (hostRead q s).inputs = s.inputs := rfl
@[simp] theorem hostRead_response (q : Reg) (s : State) : (hostRead q s).response = .data (readValue q s.regs) := rfl
@[simp] theorem hostRead_hung (q : Reg) (s : State) : (hostRead q s).hung = s.hung := rfl
@[simp] theorem hostRead_cache (q : Reg) (s : State) : (hostRead q s).cache = s.cache := rfl
@[simp] theorem hostRead_raced (q : Reg) (s : State) : (hostRead q s).raced = s.raced := rfl
@[simp] theorem hostRead_unseen (q : Reg) (s : State) : (hostRead q s).unseen = s.unseen := rfl
@[simp] theorem hostRead_missed (q : Reg) (s : State) : (hostRead q s).missed = s.missed := rfl
@[simp] theorem hostRead_freeCount (q : Reg) (s : State) : (hostRead q s).freeCount = s.freeCount := rfl

@[simp] theorem acknowledge_regs (s : State) : (acknowledge s).regs = s.regs := rfl
@[simp] theorem acknowledge_w (s : State) : (acknowledge s).w = s.w := rfl
@[simp] theorem acknowledge_mem (s : State) : (acknowledge s).mem = s.mem := rfl
@[simp] theorem acknowledge_platform (s : State) : (acknowledge s).platform = s.platform := rfl
@[simp] theorem acknowledge_inputs (s : State) : (acknowledge s).inputs = s.inputs := rfl
@[simp] theorem acknowledge_response (s : State) : (acknowledge s).response = .written := rfl
@[simp] theorem acknowledge_hung (s : State) : (acknowledge s).hung = s.hung := rfl
@[simp] theorem acknowledge_cache (s : State) : (acknowledge s).cache = s.cache := rfl
@[simp] theorem acknowledge_raced (s : State) : (acknowledge s).raced = s.raced := rfl
@[simp] theorem acknowledge_unseen (s : State) : (acknowledge s).unseen = s.unseen := rfl
@[simp] theorem acknowledge_missed (s : State) : (acknowledge s).missed = s.missed := rfl
@[simp] theorem acknowledge_freeCount (s : State) : (acknowledge s).freeCount = s.freeCount := rfl

@[simp] theorem hostReadReserved_regs (s : State) : (hostReadReserved s).regs = s.regs := rfl
@[simp] theorem hostReadReserved_w (s : State) : (hostReadReserved s).w = s.w := rfl
@[simp] theorem hostReadReserved_mem (s : State) : (hostReadReserved s).mem = s.mem := rfl
@[simp] theorem hostReadReserved_platform (s : State) : (hostReadReserved s).platform = s.platform := rfl
@[simp] theorem hostReadReserved_inputs (s : State) : (hostReadReserved s).inputs = s.inputs := rfl
@[simp] theorem hostReadReserved_response (s : State) : (hostReadReserved s).response = .data 0#32 := rfl
@[simp] theorem hostReadReserved_hung (s : State) : (hostReadReserved s).hung = s.hung := rfl
@[simp] theorem hostReadReserved_cache (s : State) : (hostReadReserved s).cache = s.cache := rfl
@[simp] theorem hostReadReserved_raced (s : State) : (hostReadReserved s).raced = s.raced := rfl
@[simp] theorem hostReadReserved_unseen (s : State) : (hostReadReserved s).unseen = s.unseen := rfl
@[simp] theorem hostReadReserved_missed (s : State) : (hostReadReserved s).missed = s.missed := rfl
@[simp] theorem hostReadReserved_freeCount (s : State) : (hostReadReserved s).freeCount = s.freeCount := rfl

@[simp] theorem hostWriteReserved_regs (s : State) : (hostWriteReserved s).regs = s.regs := rfl
@[simp] theorem hostWriteReserved_w (s : State) : (hostWriteReserved s).w = s.w := rfl
@[simp] theorem hostWriteReserved_mem (s : State) : (hostWriteReserved s).mem = s.mem := rfl
@[simp] theorem hostWriteReserved_platform (s : State) : (hostWriteReserved s).platform = s.platform := rfl
@[simp] theorem hostWriteReserved_inputs (s : State) : (hostWriteReserved s).inputs = s.inputs := rfl
@[simp] theorem hostWriteReserved_response (s : State) : (hostWriteReserved s).response = .written := rfl
@[simp] theorem hostWriteReserved_hung (s : State) : (hostWriteReserved s).hung = s.hung := rfl
@[simp] theorem hostWriteReserved_cache (s : State) : (hostWriteReserved s).cache = s.cache := rfl
@[simp] theorem hostWriteReserved_raced (s : State) : (hostWriteReserved s).raced = s.raced := rfl
@[simp] theorem hostWriteReserved_unseen (s : State) : (hostWriteReserved s).unseen = s.unseen := rfl
@[simp] theorem hostWriteReserved_missed (s : State) : (hostWriteReserved s).missed = s.missed := rfl
@[simp] theorem hostWriteReserved_freeCount (s : State) : (hostWriteReserved s).freeCount = s.freeCount := rfl

@[simp] theorem hostSlaveError_regs (s : State) : (hostSlaveError s).regs = s.regs := rfl
@[simp] theorem hostSlaveError_w (s : State) : (hostSlaveError s).w = s.w := rfl
@[simp] theorem hostSlaveError_mem (s : State) : (hostSlaveError s).mem = s.mem := rfl
@[simp] theorem hostSlaveError_platform (s : State) : (hostSlaveError s).platform = s.platform := rfl
@[simp] theorem hostSlaveError_inputs (s : State) : (hostSlaveError s).inputs = s.inputs := rfl
@[simp] theorem hostSlaveError_response (s : State) : (hostSlaveError s).response = .slaveError := rfl
@[simp] theorem hostSlaveError_hung (s : State) : (hostSlaveError s).hung = s.hung := rfl
@[simp] theorem hostSlaveError_cache (s : State) : (hostSlaveError s).cache = s.cache := rfl
@[simp] theorem hostSlaveError_raced (s : State) : (hostSlaveError s).raced = s.raced := rfl
@[simp] theorem hostSlaveError_unseen (s : State) : (hostSlaveError s).unseen = s.unseen := rfl
@[simp] theorem hostSlaveError_missed (s : State) : (hostSlaveError s).missed = s.missed := rfl
@[simp] theorem hostSlaveError_freeCount (s : State) : (hostSlaveError s).freeCount = s.freeCount := rfl

@[simp] theorem assertReset_regs (s : State) : (assertReset s).regs = Regs.reset := rfl
@[simp] theorem assertReset_w (s : State) : (assertReset s).w = freeWorking s.freeCount := rfl
@[simp] theorem assertReset_mem (s : State) : (assertReset s).mem = s.mem := rfl
@[simp] theorem assertReset_platform (s : State) : (assertReset s).platform = s.platform := rfl
@[simp] theorem assertReset_inputs (s : State) : (assertReset s).inputs = s.inputs := rfl
@[simp] theorem assertReset_response (s : State) : (assertReset s).response = .idle := rfl
@[simp] theorem assertReset_hung (s : State) : (assertReset s).hung = false := rfl
@[simp] theorem assertReset_cache (s : State) : (assertReset s).cache = s.cache := rfl
@[simp] theorem assertReset_raced (s : State) : (assertReset s).raced = [] := rfl
@[simp] theorem assertReset_unseen (s : State) : (assertReset s).unseen = s.unseen := rfl
@[simp] theorem assertReset_missed (s : State) : (assertReset s).missed = s.missed := rfl
@[simp] theorem assertReset_freeCount (s : State) : (assertReset s).freeCount = s.freeCount + 1 := rfl

@[simp] theorem complete_regs (s : State) : (complete s).regs = s.regs.ended .ok := rfl
@[simp] theorem complete_w (s : State) : (complete s).w = s.w := rfl
@[simp] theorem complete_mem (s : State) : (complete s).mem = s.mem := rfl
@[simp] theorem complete_platform (s : State) : (complete s).platform = s.platform := rfl
@[simp] theorem complete_inputs (s : State) : (complete s).inputs = s.inputs := rfl
@[simp] theorem complete_response (s : State) : (complete s).response = s.response := rfl
@[simp] theorem complete_hung (s : State) : (complete s).hung = s.hung := rfl
@[simp] theorem complete_cache (s : State) : (complete s).cache = s.cache := rfl
@[simp] theorem complete_raced (s : State) : (complete s).raced = s.raced := rfl
@[simp] theorem complete_unseen (s : State) : (complete s).unseen = s.unseen := rfl
@[simp] theorem complete_missed (s : State) : (complete s).missed = s.missed := rfl
@[simp] theorem complete_freeCount (s : State) : (complete s).freeCount = s.freeCount := rfl

@[simp] theorem setAside_regs (s : State) : (setAside s).regs = s.regs := rfl
@[simp] theorem setAside_w (s : State) : (setAside s).w = s.w := rfl
@[simp] theorem setAside_mem (s : State) : (setAside s).mem = s.mem := rfl
@[simp] theorem setAside_platform (s : State) : (setAside s).platform = s.platform := rfl
@[simp] theorem setAside_inputs (s : State) : (setAside s).inputs = s.inputs := rfl
@[simp] theorem setAside_response (s : State) : (setAside s).response = s.response := rfl
@[simp] theorem setAside_hung (s : State) : (setAside s).hung = s.hung := rfl
@[simp] theorem setAside_cache (s : State) : (setAside s).cache = s.cache := rfl
@[simp] theorem setAside_raced (s : State) : (setAside s).raced = s.raced := rfl
@[simp] theorem setAside_unseen (s : State) : (setAside s).unseen = [] := rfl
@[simp] theorem setAside_missed (s : State) : (setAside s).missed = s.unseen ++ s.missed := rfl
@[simp] theorem setAside_freeCount (s : State) : (setAside s).freeCount = s.freeCount := rfl

@[simp] theorem engineWrite_regs (k a : Nat) (v : Word) (s : State) : (engineWrite k a v s).regs = s.regs := rfl
@[simp] theorem engineWrite_w (k a : Nat) (v : Word) (s : State) : (engineWrite k a v s).w = s.w := rfl
@[simp] theorem engineWrite_mem (k a : Nat) (v : Word) (s : State) : (engineWrite k a v s).mem = writeWord s.mem a (racedWord k a v s) := rfl
@[simp] theorem engineWrite_platform (k a : Nat) (v : Word) (s : State) : (engineWrite k a v s).platform = s.platform := rfl
@[simp] theorem engineWrite_inputs (k a : Nat) (v : Word) (s : State) : (engineWrite k a v s).inputs = s.inputs := rfl
@[simp] theorem engineWrite_response (k a : Nat) (v : Word) (s : State) : (engineWrite k a v s).response = s.response := rfl
@[simp] theorem engineWrite_hung (k a : Nat) (v : Word) (s : State) : (engineWrite k a v s).hung = s.hung := rfl
@[simp] theorem engineWrite_cache (k a : Nat) (v : Word) (s : State) : (engineWrite k a v s).cache = s.cache := rfl
@[simp] theorem engineWrite_raced (k a : Nat) (v : Word) (s : State) : (engineWrite k a v s).raced = s.raced := rfl
@[simp] theorem engineWrite_unseen (k a : Nat) (v : Word) (s : State) : (engineWrite k a v s).unseen = ⟨a, v, readWord s.mem a⟩ :: s.unseen := rfl
@[simp] theorem engineWrite_missed (k a : Nat) (v : Word) (s : State) : (engineWrite k a v s).missed = s.missed := rfl
@[simp] theorem engineWrite_freeCount (k a : Nat) (v : Word) (s : State) : (engineWrite k a v s).freeCount = s.freeCount := rfl

/-- What seeing DONE does: to the model's record of unseen words, and only with DONE = 1. -/
theorem seeDone_cases (s : State) :
    (s.regs.done = true ∧ seeDone s = { s with
      unseen := []
      missed := s.missed.filter fun e => !s.unseen.any fun u => u.addr == e.addr }) ∨
    (s.regs.done = false ∧ seeDone s = s) := by
  unfold seeDone
  cases s.regs.done
  · exact .inr ⟨rfl, rfl⟩
  · exact .inl ⟨rfl, rfl⟩

@[simp] theorem seeDone_regs (s : State) : (seeDone s).regs = s.regs := by
  rcases seeDone_cases s with ⟨-, h⟩ | ⟨-, h⟩ <;> rw [h]
@[simp] theorem seeDone_w (s : State) : (seeDone s).w = s.w := by
  rcases seeDone_cases s with ⟨-, h⟩ | ⟨-, h⟩ <;> rw [h]
@[simp] theorem seeDone_mem (s : State) : (seeDone s).mem = s.mem := by
  rcases seeDone_cases s with ⟨-, h⟩ | ⟨-, h⟩ <;> rw [h]
@[simp] theorem seeDone_platform (s : State) : (seeDone s).platform = s.platform := by
  rcases seeDone_cases s with ⟨-, h⟩ | ⟨-, h⟩ <;> rw [h]
@[simp] theorem seeDone_inputs (s : State) : (seeDone s).inputs = s.inputs := by
  rcases seeDone_cases s with ⟨-, h⟩ | ⟨-, h⟩ <;> rw [h]
@[simp] theorem seeDone_response (s : State) : (seeDone s).response = s.response := by
  rcases seeDone_cases s with ⟨-, h⟩ | ⟨-, h⟩ <;> rw [h]
@[simp] theorem seeDone_hung (s : State) : (seeDone s).hung = s.hung := by
  rcases seeDone_cases s with ⟨-, h⟩ | ⟨-, h⟩ <;> rw [h]
@[simp] theorem seeDone_cache (s : State) : (seeDone s).cache = s.cache := by
  rcases seeDone_cases s with ⟨-, h⟩ | ⟨-, h⟩ <;> rw [h]
@[simp] theorem seeDone_raced (s : State) : (seeDone s).raced = s.raced := by
  rcases seeDone_cases s with ⟨-, h⟩ | ⟨-, h⟩ <;> rw [h]
@[simp] theorem seeDone_freeCount (s : State) : (seeDone s).freeCount = s.freeCount := by
  rcases seeDone_cases s with ⟨-, h⟩ | ⟨-, h⟩ <;> rw [h]

@[simp] theorem observeIrq_regs (s : State) : (observeIrq s).regs = s.regs := by
  unfold observeIrq; split <;> simp
@[simp] theorem observeIrq_w (s : State) : (observeIrq s).w = s.w := by
  unfold observeIrq; split <;> simp
@[simp] theorem observeIrq_mem (s : State) : (observeIrq s).mem = s.mem := by
  unfold observeIrq; split <;> simp
@[simp] theorem observeIrq_platform (s : State) : (observeIrq s).platform = s.platform := by
  unfold observeIrq; split <;> simp
@[simp] theorem observeIrq_inputs (s : State) : (observeIrq s).inputs = s.inputs := by
  unfold observeIrq; split <;> simp
@[simp] theorem observeIrq_response (s : State) : (observeIrq s).response = .irqLevel (irq s.regs) := by
  unfold observeIrq; split <;> simp
@[simp] theorem observeIrq_hung (s : State) : (observeIrq s).hung = s.hung := by
  unfold observeIrq; split <;> simp
@[simp] theorem observeIrq_cache (s : State) : (observeIrq s).cache = s.cache := by
  unfold observeIrq; split <;> simp
@[simp] theorem observeIrq_raced (s : State) : (observeIrq s).raced = s.raced := by
  unfold observeIrq; split <;> simp
@[simp] theorem observeIrq_freeCount (s : State) : (observeIrq s).freeCount = s.freeCount := by
  unfold observeIrq; split <;> simp

/-! ### Registers -/

@[simp] theorem Regs.ended_busy (r : Regs) (e : ErrCode) : (r.ended e).busy = false := rfl
@[simp] theorem Regs.ended_done (r : Regs) (e : ErrCode) : (r.ended e).done = true := rfl
@[simp] theorem Regs.ended_err (r : Regs) (e : ErrCode) : (r.ended e).err = e := rfl
@[simp] theorem Regs.ended_irqEn (r : Regs) (e : ErrCode) : (r.ended e).irqEn = r.irqEn := rfl
@[simp] theorem Regs.ended_width (r : Regs) (e : ErrCode) : (r.ended e).width = r.width := rfl
@[simp] theorem Regs.ended_height (r : Regs) (e : ErrCode) : (r.ended e).height = r.height := rfl
@[simp] theorem Regs.ended_yStride (r : Regs) (e : ErrCode) : (r.ended e).yStride = r.yStride := rfl
@[simp] theorem Regs.ended_c0Stride (r : Regs) (e : ErrCode) : (r.ended e).c0Stride = r.c0Stride := rfl
@[simp] theorem Regs.ended_c1Stride (r : Regs) (e : ErrCode) : (r.ended e).c1Stride = r.c1Stride := rfl
@[simp] theorem Regs.ended_yBase (r : Regs) (e : ErrCode) : (r.ended e).yBase = r.yBase := rfl
@[simp] theorem Regs.ended_c0Base (r : Regs) (e : ErrCode) : (r.ended e).c0Base = r.c0Base := rfl
@[simp] theorem Regs.ended_c1Base (r : Regs) (e : ErrCode) : (r.ended e).c1Base = r.c1Base := rfl
@[simp] theorem Regs.ended_dstBase (r : Regs) (e : ErrCode) : (r.ended e).dstBase = r.dstBase := rfl
@[simp] theorem Regs.ended_faultAddr (r : Regs) (e : ErrCode) : (r.ended e).faultAddr = r.faultAddr := rfl

@[simp] theorem Regs.started_busy (r : Regs) : r.started.busy = true := rfl
@[simp] theorem Regs.started_done (r : Regs) : r.started.done = false := rfl
@[simp] theorem Regs.started_err (r : Regs) : r.started.err = .ok := rfl
@[simp] theorem Regs.started_irqEn (r : Regs) : r.started.irqEn = r.irqEn := rfl
@[simp] theorem Regs.started_width (r : Regs) : r.started.width = r.width := rfl
@[simp] theorem Regs.started_height (r : Regs) : r.started.height = r.height := rfl
@[simp] theorem Regs.started_yStride (r : Regs) : r.started.yStride = r.yStride := rfl
@[simp] theorem Regs.started_c0Stride (r : Regs) : r.started.c0Stride = r.c0Stride := rfl
@[simp] theorem Regs.started_c1Stride (r : Regs) : r.started.c1Stride = r.c1Stride := rfl
@[simp] theorem Regs.started_yBase (r : Regs) : r.started.yBase = r.yBase := rfl
@[simp] theorem Regs.started_c0Base (r : Regs) : r.started.c0Base = r.c0Base := rfl
@[simp] theorem Regs.started_c1Base (r : Regs) : r.started.c1Base = r.c1Base := rfl
@[simp] theorem Regs.started_dstBase (r : Regs) : r.started.dstBase = r.dstBase := rfl
@[simp] theorem Regs.started_faultAddr (r : Regs) : r.started.faultAddr = 0 := rfl

@[simp] theorem Regs.writeStatus_busy (r : Regs) (d : Word) : (r.writeStatus d).busy = r.busy := rfl
@[simp] theorem Regs.writeStatus_done (r : Regs) (d : Word) : (r.writeStatus d).done = (r.done && !d.getLsbD 1) := rfl
@[simp] theorem Regs.writeStatus_err (r : Regs) (d : Word) : (r.writeStatus d).err = r.err := rfl
@[simp] theorem Regs.writeStatus_irqEn (r : Regs) (d : Word) : (r.writeStatus d).irqEn = r.irqEn := rfl
@[simp] theorem Regs.writeStatus_width (r : Regs) (d : Word) : (r.writeStatus d).width = r.width := rfl
@[simp] theorem Regs.writeStatus_height (r : Regs) (d : Word) : (r.writeStatus d).height = r.height := rfl
@[simp] theorem Regs.writeStatus_yStride (r : Regs) (d : Word) : (r.writeStatus d).yStride = r.yStride := rfl
@[simp] theorem Regs.writeStatus_c0Stride (r : Regs) (d : Word) : (r.writeStatus d).c0Stride = r.c0Stride := rfl
@[simp] theorem Regs.writeStatus_c1Stride (r : Regs) (d : Word) : (r.writeStatus d).c1Stride = r.c1Stride := rfl
@[simp] theorem Regs.writeStatus_yBase (r : Regs) (d : Word) : (r.writeStatus d).yBase = r.yBase := rfl
@[simp] theorem Regs.writeStatus_c0Base (r : Regs) (d : Word) : (r.writeStatus d).c0Base = r.c0Base := rfl
@[simp] theorem Regs.writeStatus_c1Base (r : Regs) (d : Word) : (r.writeStatus d).c1Base = r.c1Base := rfl
@[simp] theorem Regs.writeStatus_dstBase (r : Regs) (d : Word) : (r.writeStatus d).dstBase = r.dstBase := rfl
@[simp] theorem Regs.writeStatus_faultAddr (r : Regs) (d : Word) : (r.writeStatus d).faultAddr = r.faultAddr := rfl

@[simp] theorem Regs.writeCtrl_busy (r : Regs) (d : Word) : (r.writeCtrl d).busy = r.busy := rfl
@[simp] theorem Regs.writeCtrl_done (r : Regs) (d : Word) : (r.writeCtrl d).done = r.done := rfl
@[simp] theorem Regs.writeCtrl_err (r : Regs) (d : Word) : (r.writeCtrl d).err = r.err := rfl
@[simp] theorem Regs.writeCtrl_irqEn (r : Regs) (d : Word) : (r.writeCtrl d).irqEn = d.getLsbD 0 := rfl
@[simp] theorem Regs.writeCtrl_width (r : Regs) (d : Word) : (r.writeCtrl d).width = r.width := rfl
@[simp] theorem Regs.writeCtrl_height (r : Regs) (d : Word) : (r.writeCtrl d).height = r.height := rfl
@[simp] theorem Regs.writeCtrl_yStride (r : Regs) (d : Word) : (r.writeCtrl d).yStride = r.yStride := rfl
@[simp] theorem Regs.writeCtrl_c0Stride (r : Regs) (d : Word) : (r.writeCtrl d).c0Stride = r.c0Stride := rfl
@[simp] theorem Regs.writeCtrl_c1Stride (r : Regs) (d : Word) : (r.writeCtrl d).c1Stride = r.c1Stride := rfl
@[simp] theorem Regs.writeCtrl_yBase (r : Regs) (d : Word) : (r.writeCtrl d).yBase = r.yBase := rfl
@[simp] theorem Regs.writeCtrl_c0Base (r : Regs) (d : Word) : (r.writeCtrl d).c0Base = r.c0Base := rfl
@[simp] theorem Regs.writeCtrl_c1Base (r : Regs) (d : Word) : (r.writeCtrl d).c1Base = r.c1Base := rfl
@[simp] theorem Regs.writeCtrl_dstBase (r : Regs) (d : Word) : (r.writeCtrl d).dstBase = r.dstBase := rfl
@[simp] theorem Regs.writeCtrl_faultAddr (r : Regs) (d : Word) : (r.writeCtrl d).faultAddr = r.faultAddr := rfl

/-! ### Working registers -/

@[simp] theorem nextRow_op (w : Working) : (nextRow w).op = w.op := rfl
@[simp] theorem nextRow_width (w : Working) : (nextRow w).width = w.width := rfl
@[simp] theorem nextRow_height (w : Working) : (nextRow w).height = w.height := rfl
@[simp] theorem nextRow_ys (w : Working) : (nextRow w).ys = w.ys := rfl
@[simp] theorem nextRow_cs0 (w : Working) : (nextRow w).cs0 = w.cs0 := rfl
@[simp] theorem nextRow_cs1 (w : Working) : (nextRow w).cs1 = w.cs1 := rfl
@[simp] theorem nextRow_db (w : Working) : (nextRow w).db = w.db := rfl
@[simp] theorem nextRow_j (w : Working) : (nextRow w).j = w.j + 1 := rfl
@[simp] theorem nextRow_x (w : Working) : (nextRow w).x = 0 := rfl
@[simp] theorem nextRow_yp (w : Working) : (nextRow w).yp = w.yp + w.ys := rfl
@[simp] theorem nextRow_cp0 (w : Working) : (nextRow w).cp0 = (if w.j.getLsbD 0 then w.cp0 + w.cs0 else w.cp0) := rfl
@[simp] theorem nextRow_cp1 (w : Working) : (nextRow w).cp1 = (if w.j.getLsbD 0 && w.op == 2#4 then w.cp1 + w.cs1 else w.cp1) := rfl
@[simp] theorem nextRow_dp (w : Working) : (nextRow w).dp = w.dp + 4#32 * w.width.setWidth 32 := rfl

@[simp] theorem latch_op (c : Word) (r : Regs) : (latch c r).op = c.extractLsb' 0 4 := rfl
@[simp] theorem latch_width (c : Word) (r : Regs) : (latch c r).width = r.width := rfl
@[simp] theorem latch_height (c : Word) (r : Regs) : (latch c r).height = r.height := rfl
@[simp] theorem latch_ys (c : Word) (r : Regs) : (latch c r).ys = r.yStride := rfl
@[simp] theorem latch_cs0 (c : Word) (r : Regs) : (latch c r).cs0 = r.c0Stride := rfl
@[simp] theorem latch_cs1 (c : Word) (r : Regs) : (latch c r).cs1 = r.c1Stride := rfl
@[simp] theorem latch_db (c : Word) (r : Regs) : (latch c r).db = r.dstBase := rfl
@[simp] theorem latch_j (c : Word) (r : Regs) : (latch c r).j = 0 := rfl
@[simp] theorem latch_x (c : Word) (r : Regs) : (latch c r).x = 0 := rfl
@[simp] theorem latch_yp (c : Word) (r : Regs) : (latch c r).yp = r.yBase := rfl
@[simp] theorem latch_cp0 (c : Word) (r : Regs) : (latch c r).cp0 = r.c0Base := rfl
@[simp] theorem latch_cp1 (c : Word) (r : Regs) : (latch c r).cp1 = r.c1Base := rfl
@[simp] theorem latch_dp (c : Word) (r : Regs) : (latch c r).dp = r.dstBase := rfl

@[simp] theorem latchedParams_width (w : Working) : (latchedParams w).width = w.width := rfl
@[simp] theorem latchedParams_height (w : Working) : (latchedParams w).height = w.height := rfl
@[simp] theorem latchedParams_yStride (w : Working) : (latchedParams w).yStride = w.ys := rfl
@[simp] theorem latchedParams_c0Stride (w : Working) : (latchedParams w).c0Stride = w.cs0 := rfl
@[simp] theorem latchedParams_c1Stride (w : Working) : (latchedParams w).c1Stride = w.cs1 := rfl
@[simp] theorem latchedParams_yBase (w : Working) : (latchedParams w).yBase = latchedY w := rfl
@[simp] theorem latchedParams_c0Base (w : Working) : (latchedParams w).c0Base = latchedC0 w := rfl
@[simp] theorem latchedParams_c1Base (w : Working) : (latchedParams w).c1Base = latchedC1 w := rfl
@[simp] theorem latchedParams_dstBase (w : Working) : (latchedParams w).dstBase = w.db := rfl

end Sys2Proof.Machine
end

