-- ==== Sys2Proof/Laws/Memory.lean ====
section
/-! SUPPORT. The laws of memory: what a read after a write gives, and that every memory operation
keeps the canonical form. -/

namespace Sys2Proof.Machine

theorem Memory.wf_nil : Memory.wf [] := ⟨.nil, by simp⟩

theorem Memory.wf_cons {k : Nat} {c : Byte} {m : Memory} :
    Memory.wf ((k, c) :: m) ↔
      (∀ d ∈ m, k < d.1) ∧ c ≠ unlistedByte ∧ k < Config.busSize ∧ Memory.wf m := by
  simp only [Memory.wf, List.pairwise_cons, List.mem_cons, forall_eq_or_imp]
  tauto

/-- Nothing below the first address of a rising list is listed. -/
theorem readByte_of_lt {m : Memory} {a : Nat} (h : ∀ d ∈ m, a < d.1) :
    readByte m a = unlistedByte := by
  induction m with
  | nil => rfl
  | cons c m ih =>
    obtain ⟨k, b⟩ := c
    have hk : a < k := h (k, b) (by simp)
    rw [readByte, if_neg (by omega)]
    exact ih fun d hd => h d (by simp [hd])

theorem mem_writeByte {m : Memory} {a : Nat} {b : Byte} {d : Host.Cell}
    (h : d ∈ writeByte m a b) : d ∈ m ∨ (d = (a, b) ∧ b ≠ unlistedByte) := by
  induction m with
  | nil =>
    simp only [writeByte] at h
    split at h <;> simp_all
  | cons c m ih =>
    obtain ⟨k, e⟩ := c
    simp only [writeByte] at h
    split at h
    · split at h <;> simp_all
      tauto
    · split at h
      · split at h <;> simp_all
        tauto
      · rw [List.mem_cons] at h ⊢
        rcases h with h | h
        · exact .inl (.inl h)
        · rcases ih h with h | h
          · exact .inl (.inr h)
          · exact .inr h

/-- A byte write keeps the canonical form. -/
theorem writeByte_wf {m : Memory} {a : Nat} {b : Byte} (h : Memory.wf m)
    (ha : a < Config.busSize) : Memory.wf (writeByte m a b) := by
  induction m with
  | nil =>
    simp only [writeByte]
    split
    · exact Memory.wf_nil
    · exact Memory.wf_cons.mpr ⟨by simp, ‹_›, ha, Memory.wf_nil⟩
  | cons c m ih =>
    obtain ⟨k, e⟩ := c
    obtain ⟨hlt, hc, hk, hm⟩ := Memory.wf_cons.mp h
    simp only [writeByte]
    split
    · rename_i hak
      split
      · exact h
      · refine Memory.wf_cons.mpr ⟨?_, ‹_›, ha, h⟩
        intro d hd
        rw [List.mem_cons] at hd
        rcases hd with rfl | hd
        · exact hak
        · exact hak.trans (hlt d hd)
    · split
      · rename_i hak
        split
        · exact hm
        · exact Memory.wf_cons.mpr ⟨by rw [hak]; exact hlt, ‹_›, ha, hm⟩
      · refine Memory.wf_cons.mpr ⟨?_, hc, hk, ih hm⟩
        intro d hd
        rcases mem_writeByte hd with hd | ⟨rfl, -⟩
        · exact hlt d hd
        · change k < a
          omega

/-- A read after a write: the written byte at its address, every other byte as before. -/
theorem readByte_writeByte {m : Memory} {a : Nat} {b : Byte} (h : Memory.wf m) (c : Nat) :
    readByte (writeByte m a b) c = if c = a then b else readByte m c := by
  induction m with
  | nil =>
    by_cases hb : b = unlistedByte <;> by_cases hc : c = a <;> simp [writeByte, readByte, hb, hc]
  | cons e m ih =>
    obtain ⟨k, v⟩ := e
    obtain ⟨hlt, -, -, hm⟩ := Memory.wf_cons.mp h
    simp only [writeByte]
    split
    · rename_i hak
      have below : readByte ((k, v) :: m) a = unlistedByte := by
        refine readByte_of_lt fun d hd => ?_
        rw [List.mem_cons] at hd
        rcases hd with rfl | hd
        · exact hak
        · exact hak.trans (hlt d hd)
      split
      · rename_i hb
        by_cases hc : c = a
        · rw [if_pos hc, hc, below, hb]
        · rw [if_neg hc]
      · by_cases hc : c = a
        · simp [readByte, hc]
        · simp [readByte, hc]
    · split
      · rename_i hak
        subst hak
        have below : readByte m a = unlistedByte := readByte_of_lt hlt
        split
        · rename_i hb
          by_cases hc : c = a
          · rw [if_pos hc, hc, below, hb]
          · simp [readByte, hc]
        · by_cases hc : c = a <;> simp [readByte, hc]
      · rename_i h1 h2
        rw [readByte, ih hm]
        by_cases hck : c = k
        · have : ¬ c = a := by omega
          simp [readByte, hck]
          omega
        · simp [readByte, hck]

/-- Bytes written at rising addresses keep the canonical form. -/
theorem writeBytes_wf {bs : List Byte} {m : Memory} {a : Nat} (h : Memory.wf m)
    (ha : a + bs.length ≤ Config.busSize) : Memory.wf (writeBytes m a bs) := by
  induction bs generalizing m a with
  | nil => exact h
  | cons b bs ih =>
    simp only [List.length_cons] at ha
    exact ih (writeByte_wf h (by omega)) (by omega)

/-- A read after a run of byte writes that stays inside the bus space. -/
theorem readByte_writeBytes {bs : List Byte} {m : Memory} {a : Nat} (h : Memory.wf m)
    (ha : a + bs.length ≤ Config.busSize) (c : Nat) :
    readByte (writeBytes m a bs) c =
      if a ≤ c ∧ c < a + bs.length then bs.getD (c - a) 0 else readByte m c := by
  induction bs generalizing m a with
  | nil => rw [if_neg (by simp)]; rfl
  | cons b bs ih =>
    simp only [List.length_cons] at ha ⊢
    rw [writeBytes, ih (writeByte_wf h (by omega)) (by omega), readByte_writeByte h]
    by_cases hc : c = a
    · subst hc
      rw [if_neg (by omega), if_pos rfl, if_pos (by omega)]
      simp
    · rw [if_neg hc]
      by_cases h1 : a + 1 ≤ c ∧ c < a + 1 + bs.length
      · rw [if_pos h1, if_pos (by omega)]
        obtain ⟨n, hn⟩ : ∃ n, c - a = n + 1 := ⟨c - a - 1, by omega⟩
        rw [hn, List.getD_cons_succ]
        congr 1
        omega
      · rw [if_neg h1, if_neg (by omega)]

/-- A byte write leaves every other byte alone, in any list. -/
theorem readByte_writeByte_ne {m : Memory} {a c : Nat} {b : Byte} (hc : c ≠ a) :
    readByte (writeByte m a b) c = readByte m c := by
  induction m with
  | nil =>
    unfold writeByte
    split <;> simp [readByte, hc]
  | cons d m ih =>
    obtain ⟨k, e⟩ := d
    simp only [writeByte]
    split_ifs <;> simp_all [readByte]

/-- Bytes written at rising addresses leave every other byte alone, in any list. -/
theorem readByte_writeBytes_ne {bs : List Byte} {m : Memory} {a c : Nat}
    (hc : c < a ∨ a + bs.length ≤ c) : readByte (writeBytes m a bs) c = readByte m c := by
  induction bs generalizing m a with
  | nil => rfl
  | cons b bs ih =>
    rw [List.length_cons] at hc
    rw [writeBytes, ih (by omega), readByte_writeByte_ne (by omega)]

@[simp] theorem leBytes_length (v : Word) : (leBytes v).length = 4 := rfl

/-- A word write leaves every byte outside its four alone, in any list. -/
theorem readByte_writeWord_ne {m : Memory} {a c : Nat} {v : Word} (hc : c < a ∨ a + 4 ≤ c) :
    readByte (writeWord m a v) c = readByte m c :=
  readByte_writeBytes_ne (by simpa using hc)

/-- A word write leaves every word apart from it alone, in any list. -/
theorem readWord_writeWord_ne {m : Memory} {a c : Nat} {v : Word} (hc : c + 4 ≤ a ∨ a + 4 ≤ c) :
    readWord (writeWord m a v) c = readWord m c := by
  simp only [readWord]
  rw [readByte_writeWord_ne (by omega), readByte_writeWord_ne (by omega),
    readByte_writeWord_ne (by omega), readByte_writeWord_ne (by omega)]

/-- A word write inside the bus space keeps the canonical form. -/
theorem writeWord_wf {m : Memory} {a : Nat} {v : Word} (h : Memory.wf m)
    (ha : a + 4 ≤ Config.busSize) : Memory.wf (writeWord m a v) :=
  writeBytes_wf h (by simpa using ha)

/-- A byte read outside a written word is as before. -/
theorem readByte_writeWord_outside {m : Memory} {a c : Nat} {v : Word} (h : Memory.wf m)
    (ha : a + 4 ≤ Config.busSize) (hc : c < a ∨ a + 4 ≤ c) :
    readByte (writeWord m a v) c = readByte m c := by
  rw [writeWord, readByte_writeBytes h (by simpa using ha), if_neg (by simp; omega)]

/-- A word is its four bytes in little-endian order (20_memory.md R64). -/
theorem word_of_bytes (v : Word) :
    v.extractLsb' 24 8 ++ v.extractLsb' 16 8 ++ v.extractLsb' 8 8 ++ v.extractLsb' 0 8 = v := by
  apply BitVec.eq_of_getLsbD_eq
  intro i hi
  simp only [BitVec.getLsbD_append, BitVec.getLsbD_extractLsb']
  grind

/-- A word read after a word write at the same address gives the word (20_memory.md R64). -/
theorem readWord_writeWord {m : Memory} {a : Nat} {v : Word} (h : Memory.wf m)
    (ha : a + 4 ≤ Config.busSize) : readWord (writeWord m a v) a = v := by
  have hl : a + (leBytes v).length ≤ Config.busSize := by simpa using ha
  simp only [readWord, writeWord, readByte_writeBytes h hl, leBytes_length]
  simp only [leBytes, show a ≤ a + 3 ∧ a + 3 < a + 4 by omega, show a ≤ a + 2 ∧ a + 2 < a + 4 by omega,
    show a ≤ a + 1 ∧ a + 1 < a + 4 by omega, show a ≤ a ∧ a < a + 4 by omega, if_true, and_self]
  simp only [Nat.add_sub_cancel_left, Nat.sub_self, List.getD_cons_zero, List.getD_cons_succ]
  exact word_of_bytes v

/-- A word read outside a written word is as before. -/
theorem readWord_writeWord_outside {m : Memory} {a c : Nat} {v : Word} (h : Memory.wf m)
    (ha : a + 4 ≤ Config.busSize) (hc : c + 4 ≤ a ∨ a + 4 ≤ c) :
    readWord (writeWord m a v) c = readWord m c := by
  simp only [readWord]
  rw [readByte_writeWord_outside h ha (by omega), readByte_writeWord_outside h ha (by omega),
    readByte_writeWord_outside h ha (by omega), readByte_writeWord_outside h ha (by omega)]

/-! ### Words as four bytes, and merged words -/

/-- The bytes of a word written as its four bytes. -/
theorem byteOf_append (b3 b2 b1 b0 : Byte) :
    byteOf (b3 ++ b2 ++ b1 ++ b0) 0 = b0 ∧ byteOf (b3 ++ b2 ++ b1 ++ b0) 1 = b1 ∧
    byteOf (b3 ++ b2 ++ b1 ++ b0) 2 = b2 ∧ byteOf (b3 ++ b2 ++ b1 ++ b0) 3 = b3 := by
  refine ⟨?_, ?_, ?_, ?_⟩ <;> apply BitVec.eq_of_getLsbD_eq <;> intro i hi <;>
    simp only [byteOf, BitVec.getLsbD_append, BitVec.getLsbD_extractLsb'] <;> grind

/-- A byte of a word read from memory is the byte at its address (20_memory.md R64). -/
theorem byteOf_readWord (m : Memory) (a : Nat) {i : Nat} (hi : i < 4) :
    byteOf (readWord m a) i = readByte m (a + i) := by
  obtain ⟨h0, h1, h2, h3⟩ := byteOf_append (readByte m (a + 3)) (readByte m (a + 2))
    (readByte m (a + 1)) (readByte m a)
  obtain rfl | rfl | rfl | rfl : i = 0 ∨ i = 1 ∨ i = 2 ∨ i = 3 := by omega
  · exact h0
  · exact h1
  · exact h2
  · exact h3

/-- A byte of a merged word is the new word's where the mask has it, else the old one's. -/
theorem byteOf_mergeWord (old new : Word) (mask : BitVec 4) {i : Nat} (hi : i < 4) :
    byteOf (mergeWord old new mask) i = mergeByte old new mask i := by
  obtain ⟨h0, h1, h2, h3⟩ := byteOf_append (mergeByte old new mask 3) (mergeByte old new mask 2)
    (mergeByte old new mask 1) (mergeByte old new mask 0)
  obtain rfl | rfl | rfl | rfl : i = 0 ∨ i = 1 ∨ i = 2 ∨ i = 3 := by omega
  · exact h0
  · exact h1
  · exact h2
  · exact h3

/-- Two words with the same four bytes are the same. -/
theorem eq_of_byteOf {v w : Word} (h : ∀ i, i < 4 → byteOf v i = byteOf w i) : v = w := by
  rw [← word_of_bytes v, ← word_of_bytes w]
  have h0 := h 0 (by omega)
  have h1 := h 1 (by omega)
  have h2 := h 2 (by omega)
  have h3 := h 3 (by omega)
  simp only [byteOf, Nat.mul_zero, Nat.mul_one, Nat.reduceMul] at h0 h1 h2 h3
  rw [h0, h1, h2, h3]

@[simp] theorem mergeWord_none (old new : Word) : mergeWord old new 0#4 = old :=
  eq_of_byteOf fun i hi => by rw [byteOf_mergeWord _ _ _ hi]; simp [mergeByte]

@[simp] theorem mergeWord_all (old new : Word) : mergeWord old new 0xF#4 = new :=
  eq_of_byteOf fun i hi => by
    rw [byteOf_mergeWord _ _ _ hi, mergeByte, if_pos]
    obtain rfl | rfl | rfl | rfl : i = 0 ∨ i = 1 ∨ i = 2 ∨ i = 3 := by omega
    all_goals rfl

theorem wordBase_add_mod (a : Nat) : wordBase a + a % 4 = a := by
  unfold wordBase
  omega

/-- A byte read is a byte of the aligned word that holds it. -/
theorem byteOf_readWord_base (m : Memory) (a : Nat) :
    byteOf (readWord m (wordBase a)) (a % 4) = readByte m a := by
  rw [byteOf_readWord m _ (Nat.mod_lt a (by omega)), wordBase_add_mod]

/-- A byte read inside a written word is the word's (20_memory.md R64). -/
theorem readByte_writeWord_inside {m : Memory} {a i : Nat} {v : Word} (h : Memory.wf m)
    (ha : a + 4 ≤ Config.busSize) (hi : i < 4) : readByte (writeWord m a v) (a + i) = byteOf v i := by
  rw [← byteOf_readWord _ _ hi, readWord_writeWord h ha]

end Sys2Proof.Machine
end

