-- ==== Sys2Proof/Laws/Ops.lean ====
section
/-! SUPPORT. One lemma per shared operation: everything it can do. -/

namespace Sys2Proof.Machine

/-! ### The platform and the engine's accesses -/

theorem busAnswer_eq_none_of_admits {p : List BusHole} {a n : Nat} {k : BusKind}
    (h : admits p a n k = true) : busAnswer p a n k = none := by
  simpa [admits] using h

/-- With no byte raced, the engine reads what memory holds. -/
theorem engineByte_of_not_raced {k a : Nat} {s : State} (h : formerValues s.raced a = []) :
    engineByte k a s = readByte s.mem a := by
  simp [engineByte, h]

theorem formerValues_nil (a : Nat) : formerValues [] a = [] := rfl

/-- The stores that land after an engine write are stores into its word. -/
theorem mem_of_mem_laterStores {k a : Nat} {s : State} {st : HostStore}
    (h : st ∈ laterStores k a s) : st ∈ s.raced ∧ st.addr = a := by
  unfold laterStores at h
  split at h
  · cases h
  · rename_i st' sts he
    have := List.mem_of_mem_take h
    rw [← he] at this
    simpa using List.mem_filter.mp this

/-- A byte is in the mask of some stores when one of them wrote it. -/
theorem storedMask_getLsbD (sts : List HostStore) (i : Nat) :
    (storedMask sts).getLsbD i = true ↔ ∃ st ∈ sts, st.mask.getLsbD i = true := by
  induction sts with
  | nil => simp [storedMask]
  | cons st sts ih =>
    change (st.mask ||| storedMask sts).getLsbD i = true ↔ _
    rw [BitVec.getLsbD_or, Bool.or_eq_true, ih, List.exists_mem_cons_iff]

/-- With no byte of the word raced, the engine's word lands whole. -/
theorem racedWord_of_not_raced {k a : Nat} {v : Word} {s : State} (hal : a % 4 = 0)
    (h : ∀ i, i < 4 → ∀ st ∈ s.raced, st.covers (a + i) = false) : racedWord k a v s = v := by
  refine eq_of_byteOf fun i hi => ?_
  rw [racedWord, byteOf_mergeWord _ _ _ hi, mergeByte, if_neg]
  rw [storedMask_getLsbD]
  rintro ⟨st, hst, hm⟩
  obtain ⟨hr, rfl⟩ := mem_of_mem_laterStores hst
  have hc := h i hi st hr
  rw [HostStore.covers, show wordBase (st.addr + i) = st.addr by unfold wordBase; omega,
    show (st.addr + i) % 4 = i by omega, hm] at hc
  simp at hc

/-- A write elsewhere does not change what a write of the engine leaves. -/
theorem racedWord_after_engineWrite {k k' a a' : Nat} {v v' : Word} {s : State}
    (h : a + 4 ≤ a' ∨ a' + 4 ≤ a) : racedWord k a v (engineWrite k' a' v' s) = racedWord k a v s := by
  unfold racedWord
  rw [show readWord (engineWrite k' a' v' s).mem a = readWord s.mem a from readWord_writeWord_ne h]
  rfl

/-- The engine reads memory's byte or a former value of it (20_memory.md R79). -/
theorem engineByte_cases (k a : Nat) (s : State) :
    engineByte k a s = readByte s.mem a ∨ engineByte k a s ∈ formerValues s.raced a := by
  unfold engineByte
  split
  · exact .inl rfl
  · rename_i old olds h
    rw [h]
    generalize Config.raceChoice s.freeCount k % (olds.length + 2) = n
    cases n with
    | zero => exact .inl rfl
    | succ n =>
      rw [List.getD_cons_succ]
      by_cases hn : n < (old :: olds).length
      · rw [List.getD_eq_getElem _ _ hn]
        exact .inr (List.getElem_mem hn)
      · rw [List.getD_eq_default _ _ (by omega)]
        exact .inl rfl

/-- A byte read that is admitted and inside the bus space. -/
theorem memRead_admitted {k a : Nat} {s : State} (ha : a < Config.busSize)
    (h : admits s.platform a 1 .read = true) : memRead k a s = .ok (engineByte k a s) := by
  rw [memRead, if_neg (by omega), busAnswer_eq_none_of_admits h]

/-- A word write that is aligned, admitted and inside the bus space lands. -/
theorem memWrite_admitted {k a : Nat} {v : Word} {s : State} (hal : a % 4 = 0)
    (ha : a < Config.busSize) (h : admits s.platform a 4 .write = true) :
    memWrite k a v s = .ok (engineWrite k a v s) := by
  rw [memWrite, if_neg (by omega), if_neg (by omega), busAnswer_eq_none_of_admits h]

/-- What a byte read can answer. -/
theorem memRead_cases (k a : Nat) (s : State) :
    (Config.busSize ≤ a ∧ memRead k a s = .error (.fault .addressBeyondBus)) ∨
    (a < Config.busSize ∧ busAnswer s.platform a 1 .read = some .busError ∧
      memRead k a s = .error (.busError (BitVec.ofNat 32 a))) ∨
    (a < Config.busSize ∧ busAnswer s.platform a 1 .read = some .noAnswer ∧
      memRead k a s = .error .noAnswer) ∨
    (a < Config.busSize ∧ busAnswer s.platform a 1 .read = none ∧
      memRead k a s = .ok (engineByte k a s)) := by
  unfold memRead
  by_cases ha : Config.busSize ≤ a
  · exact .inl ⟨ha, if_pos ha⟩
  · rw [if_neg ha]
    rcases h : busAnswer s.platform a 1 .read with _ | (_ | _) <;> simp <;> omega

/-- What a word write can answer: an error leaves the state to the caller; a word that lands
changes memory and the record of unseen words. -/
theorem memWrite_cases (k a : Nat) (v : Word) (s : State) :
    (a % 4 ≠ 0 ∧ memWrite k a v s = .error (.fault .misalignedWrite)) ∨
    (Config.busSize ≤ a ∧ memWrite k a v s = .error (.fault .addressBeyondBus)) ∨
    (a % 4 = 0 ∧ a < Config.busSize ∧ busAnswer s.platform a 4 .write = some .busError ∧
      memWrite k a v s = .error (.busError (BitVec.ofNat 32 a))) ∨
    (a % 4 = 0 ∧ a < Config.busSize ∧ busAnswer s.platform a 4 .write = some .noAnswer ∧
      memWrite k a v s = .error .noAnswer) ∨
    (a % 4 = 0 ∧ a < Config.busSize ∧ busAnswer s.platform a 4 .write = none ∧
      memWrite k a v s = .ok (engineWrite k a v s)) := by
  unfold memWrite
  by_cases hal : a % 4 ≠ 0
  · exact .inl ⟨hal, if_pos hal⟩
  · rw [if_neg hal]
    by_cases ha : Config.busSize ≤ a
    · exact .inr (.inl ⟨ha, if_pos ha⟩)
    · rw [if_neg ha]
      rcases h : busAnswer s.platform a 4 .write with _ | (_ | _)
      · exact .inr (.inr (.inr (.inr ⟨by omega, by omega, rfl, rfl⟩)))
      · exact .inr (.inr (.inl ⟨by omega, by omega, rfl, rfl⟩))
      · exact .inr (.inr (.inr (.inl ⟨by omega, by omega, rfl, rfl⟩)))

/-! ### Commands -/

/-- What the write of a command word can do. -/
theorem issueCommand_cases (c : Word) (s : State) :
    (s.regs.busy = true ∧ issueCommand c s = s) ∨
    (s.regs.busy = false ∧ ∃ e, commandError c s.regs = some e ∧
      issueCommand c s = endCommand e (setAside s)) ∨
    (s.regs.busy = false ∧ commandError c s.regs = none ∧
      issueCommand c s = startFrame c (setAside s)) := by
  unfold issueCommand
  cases s.regs.busy
  · cases h : commandError c s.regs with
    | none => exact .inr (.inr ⟨rfl, rfl, rfl⟩)
    | some e => exact .inr (.inl ⟨rfl, e, rfl, rfl⟩)
  · exact .inl ⟨rfl, rfl⟩

/-- The command words themselves (30_encoding.md R91). -/
theorem opOf_eq_some {c : Word} {op : Op} (h : opOf c = some op) :
    (op = .sp ∧ c = 1#32) ∨ (op = .fp ∧ c = 2#32) := by
  unfold opOf at h
  split at h
  · simp_all
  · split at h <;> simp_all

/-- A word that passes its checks is an operation whose frame passes them. -/
theorem commandError_eq_none {c : Word} {r : Regs} (h : commandError c r = none) :
    ∃ op, opOf c = some op ∧ frameError op r = none := by
  unfold commandError at h
  split at h
  · cases h
  · exact ⟨_, ‹_›, h⟩

/-- The checks a started frame has passed (42_command_accept.md R174 to R180). -/
theorem frameError_eq_none {op : Op} {r : Regs} :
    frameError op r = none ↔ zeroDimension r = false ∧ widthOdd r = false ∧
      strideShort op r = false ∧ baseNull op r = false ∧ outOfRange op r = false ∧
      dstMisaligned r = false ∧ overlaps op r = false := by
  unfold frameError
  cases zeroDimension r <;> cases widthOdd r <;> cases strideShort op r <;>
    cases baseNull op r <;> cases outOfRange op r <;> cases dstMisaligned r <;>
    cases overlaps op r <;> simp

/-! ### Register writes -/

/-- A register write other than a command's changes the registers only, and of these neither BUSY nor ERR
nor FAULT_ADDR. -/
theorem writeRegister_cases (q : Reg) (d : Word) (s : State) :
    (q = .cmd ∧ writeRegister q d s = issueCommand d s) ∨
    (q ≠ .cmd ∧ ∃ r, writeRegister q d s = { s with regs := r } ∧ r.busy = s.regs.busy ∧
      r.err = s.regs.err ∧ r.faultAddr = s.regs.faultAddr ∧
      (r.done = true → s.regs.done = true)) := by
  cases q
  case cmd => exact .inl ⟨rfl, rfl⟩
  case status =>
    refine .inr ⟨by simp, _, rfl, rfl, rfl, rfl, ?_⟩
    simp only [Regs.writeStatus_done, Bool.and_eq_true]
    exact And.left
  all_goals exact .inr ⟨by simp, _, rfl, rfl, rfl, rfl, id⟩

end Sys2Proof.Machine
end

