-- ==== Sys2Proof/Laws/Checks.lean ====
section
/-! SUPPORT. What each check of 42_command_accept.md tests, in numbers. -/

namespace Sys2Proof.Machine

theorem zeroDimension_iff (r : Regs) :
    zeroDimension r = true ↔ r.width.toNat = 0 ∨ r.height.toNat = 0 := by
  simp only [zeroDimension, Bool.or_eq_true, beq_iff_eq]

theorem widthOdd_iff (r : Regs) : widthOdd r = true ↔ r.width.toNat % 2 = 1 := by
  simp [widthOdd, BitVec.getLsbD, Nat.testBit_zero]

theorem strideShort_sp_iff (r : Regs) : strideShort .sp r = true ↔
    r.yStride.toNat < r.width.toNat ∨ r.c0Stride.toNat < r.width.toNat := by
  simp only [strideShort, Bool.or_eq_true, decide_eq_true_eq]

theorem strideShort_fp_iff (r : Regs) : strideShort .fp r = true ↔
    r.yStride.toNat < r.width.toNat ∨ r.c0Stride.toNat < r.width.toNat / 2 ∨
      r.c1Stride.toNat < r.width.toNat / 2 := by
  simp only [strideShort, Bool.or_eq_true, decide_eq_true_eq, or_assoc]

theorem baseNull_sp_iff (r : Regs) : baseNull .sp r = true ↔
    r.yBase = 0#32 ∨ r.c0Base = 0#32 ∨ r.dstBase = 0#32 := by
  simp only [baseNull, usedBases, List.any_cons, List.any_nil, Bool.or_eq_true, beq_iff_eq,
    Bool.false_eq_true, or_false]

theorem baseNull_fp_iff (r : Regs) : baseNull .fp r = true ↔
    r.yBase = 0#32 ∨ r.c0Base = 0#32 ∨ r.c1Base = 0#32 ∨ r.dstBase = 0#32 := by
  simp only [baseNull, usedBases, List.any_cons, List.any_nil, Bool.or_eq_true, beq_iff_eq,
    Bool.false_eq_true, or_false]

theorem outOfRange_iff (op : Op) (r : Regs) : outOfRange op r = true ↔
    2 ^ 32 < (dstExtent r).hi ∨ ∃ e ∈ sourceExtents op r, 2 ^ 32 < e.hi := by
  simp only [outOfRange, List.any_cons, Bool.or_eq_true, decide_eq_true_eq, List.any_eq_true]
  rfl

theorem dstMisaligned_iff (r : Regs) : dstMisaligned r = true ↔ r.dstBase.toNat % 4 ≠ 0 := by
  simp only [dstMisaligned, bne_iff_ne, ne_eq, ← BitVec.toNat_inj, BitVec.extractLsb'_toNat,
    Nat.shiftRight_zero, BitVec.toNat_ofNat, Nat.zero_mod, Nat.reducePow]

theorem overlaps_iff (op : Op) (r : Regs) : overlaps op r = true ↔
    ∃ e ∈ sourceExtents op r, e.lo < (dstExtent r).hi ∧ (dstExtent r).lo < e.hi := by
  simp only [overlaps, List.any_eq_true, Extent.meets, Bool.and_eq_true, decide_eq_true_eq]

end Sys2Proof.Machine
end

