-- ==== Sys2Proof/Laws/Engine.lean ====
section
/-! SUPPORT. Everything a pair step, ADVANCE and the engine's turn can do. -/

namespace Sys2Proof.Machine

/-- ADVANCE changes the working registers and, at the end of the frame, STATUS. -/
theorem advance_cases (s : State) :
    (s.w.x + 2 = s.w.width ∧ s.w.j + 1 = s.w.height ∧
      advance s = complete { s with w := nextRow s.w }) ∨
    (s.w.x + 2 = s.w.width ∧ s.w.j + 1 ≠ s.w.height ∧ advance s = { s with w := nextRow s.w }) ∨
    (s.w.x + 2 ≠ s.w.width ∧ advance s = { s with w := { s.w with x := s.w.x + 2 } }) := by
  unfold advance
  by_cases hx : s.w.x + 2 = s.w.width
  · by_cases hj : s.w.j + 1 = s.w.height
    · exact .inl ⟨hx, hj, by rw [if_pos hx, if_pos hj]⟩
    · exact .inr (.inl ⟨hx, hj, by rw [if_pos hx, if_neg hj]⟩)
  · exact .inr (.inr ⟨hx, if_neg hx⟩)

@[simp] theorem advance_mem (s : State) : (advance s).mem = s.mem := by
  rcases advance_cases s with ⟨-, -, h⟩ | ⟨-, -, h⟩ | ⟨-, h⟩ <;> simp [h]

@[simp] theorem advance_platform (s : State) : (advance s).platform = s.platform := by
  rcases advance_cases s with ⟨-, -, h⟩ | ⟨-, -, h⟩ | ⟨-, h⟩ <;> simp [h]

@[simp] theorem advance_inputs (s : State) : (advance s).inputs = s.inputs := by
  rcases advance_cases s with ⟨-, -, h⟩ | ⟨-, -, h⟩ | ⟨-, h⟩ <;> simp [h]

@[simp] theorem advance_hung (s : State) : (advance s).hung = s.hung := by
  rcases advance_cases s with ⟨-, -, h⟩ | ⟨-, -, h⟩ | ⟨-, h⟩ <;> simp [h]

@[simp] theorem advance_unseen (s : State) : (advance s).unseen = s.unseen := by
  rcases advance_cases s with ⟨-, -, h⟩ | ⟨-, -, h⟩ | ⟨-, h⟩ <;> simp [h]

@[simp] theorem advance_raced (s : State) : (advance s).raced = s.raced := by
  rcases advance_cases s with ⟨-, -, h⟩ | ⟨-, -, h⟩ | ⟨-, h⟩ <;> simp [h]

/-- What a word write does: it stops, or it lands. -/
theorem memWrite_outcome (k a : Nat) (v : Word) (s : State) :
    (∃ e, memWrite k a v s = .error e) ∨ memWrite k a v s = .ok (engineWrite k a v s) := by
  rcases memWrite_cases k a v s with h | h | h | h | h
  · exact .inl ⟨_, h.2⟩
  · exact .inl ⟨_, h.2⟩
  · exact .inl ⟨_, h.2.2.2⟩
  · exact .inl ⟨_, h.2.2.2⟩
  · exact .inr h.2.2.2

/-- The outcomes of a pair step: it is stopped with at most the first word written, or both words are
written and ADVANCE follows. -/
theorem pairStep_cases (op : Op) (p : PairPlan) (s : State) :
    (∃ e, pairWords op p s = .error e ∧ pairStep op p s = stopPair e s) ∨
    (∃ v e, pairWords op p s = .ok v ∧ memWrite 4 p.dstA v.a s = .error e ∧
      pairStep op p s = stopPair e s) ∨
    (∃ v e, pairWords op p s = .ok v ∧
      memWrite 4 p.dstA v.a s = .ok (engineWrite 4 p.dstA v.a s) ∧
      memWrite 5 p.dstB v.b (engineWrite 4 p.dstA v.a s) = .error e ∧
      pairStep op p s = stopPair e (engineWrite 4 p.dstA v.a s)) ∨
    (∃ v, pairWords op p s = .ok v ∧
      memWrite 4 p.dstA v.a s = .ok (engineWrite 4 p.dstA v.a s) ∧
      memWrite 5 p.dstB v.b (engineWrite 4 p.dstA v.a s) =
        .ok (engineWrite 5 p.dstB v.b (engineWrite 4 p.dstA v.a s)) ∧
      pairStep op p s = .next (advance
        { engineWrite 5 p.dstB v.b (engineWrite 4 p.dstA v.a s) with
          freeCount := s.freeCount + 1 })) := by
  unfold pairStep
  cases hw : pairWords op p s with
  | error e => exact .inl ⟨e, rfl, rfl⟩
  | ok v =>
    refine .inr ?_
    rcases memWrite_outcome 4 p.dstA v.a s with ⟨e, h1⟩ | h1
    · exact .inl ⟨v, e, rfl, h1, by simp only [h1]⟩
    · refine .inr ?_
      rcases memWrite_outcome 5 p.dstB v.b (engineWrite 4 p.dstA v.a s) with ⟨e, h2⟩ | h2
      · exact .inl ⟨v, e, rfl, h1, h2, by simp only [h1, h2]⟩
      · refine .inr ⟨v, rfl, h1, h2, ?_⟩
        simp only [h1, h2, engineWrite_freeCount]

/-- The engine's turn is the pair step of the running operation, or nothing. -/
theorem engineTurn_cases (s : State) :
    (s.regs.busy = true ∧ s.hung = false ∧ runningOp s.w = some .sp ∧
      engineTurn s = pairStep .sp (spPlan s.w) s) ∨
    (s.regs.busy = true ∧ s.hung = false ∧ runningOp s.w = some .fp ∧
      engineTurn s = pairStep .fp (fpPlan s.w) s) ∨
    ((s.regs.busy = false ∨ s.hung = true ∨ runningOp s.w = none) ∧ engineTurn s = .next s) := by
  unfold engineTurn runningOp
  cases s.regs.busy
  · exact .inr (.inr ⟨.inl rfl, rfl⟩)
  cases s.hung
  swap
  · exact .inr (.inr ⟨.inr (.inl rfl), rfl⟩)
  by_cases h1 : s.w.op = 1#4
  · exact .inl ⟨rfl, rfl, if_pos h1, by
      rw [Bool.not_false, Bool.and_self, if_pos rfl, if_pos h1]; rfl⟩
  · by_cases h2 : s.w.op = 2#4
    · exact .inr (.inl ⟨rfl, rfl, by rw [if_neg h1, if_pos h2], by
        rw [Bool.not_false, Bool.and_self, if_pos rfl, if_neg h1, if_pos h2]; rfl⟩)
    · exact .inr (.inr ⟨.inr (.inr (by rw [if_neg h1, if_neg h2])), by
        rw [Bool.not_false, Bool.and_self, if_pos rfl, if_neg h1, if_neg h2]⟩)

/-- What a reset after the first of a pair step's writes leaves: reset's registers, and memory with that
word at most. -/
theorem afterFirstWrite_cases (op : Op) (p : PairPlan) (s : State) :
    afterFirstWrite op p s = s ∨ ∃ v, afterFirstWrite op p s = engineWrite 4 p.dstA v s := by
  unfold afterFirstWrite
  cases pairWords op p s with
  | error e => exact .inl rfl
  | ok v =>
    rcases memWrite_outcome 4 p.dstA v.a s with ⟨e, h⟩ | h
    · exact .inl (by simp only [h])
    · exact .inr ⟨v.a, by simp only [h]⟩

end Sys2Proof.Machine
end

