-- ==== Sys2Proof/Laws/Frame.lean ====
section
/-! SUPPORT. The working registers of a running frame in closed form (10_state.md R37), the addresses
of its pair steps, and ADVANCE as a move from one position to the next. -/

namespace Sys2Proof.Machine

/-- w.OP of an operation. -/
def opBits : Op → BitVec 4
  | .sp => 1#4
  | .fp => 2#4

/-- The working registers at row `j` and column `x` of a frame whose parameters are `r` (10_state.md
R35 to R37). -/
def workingAt (op : Op) (r : Regs) (j x : Nat) : Working where
  op := opBits op
  width := r.width
  height := r.height
  ys := r.yStride
  cs0 := r.c0Stride
  cs1 := r.c1Stride
  db := r.dstBase
  j := BitVec.ofNat 16 j
  x := BitVec.ofNat 16 x
  yp := BitVec.ofNat 32 (r.yBase.toNat + j * r.yStride.toNat)
  cp0 := BitVec.ofNat 32 (r.c0Base.toNat + j / 2 * r.c0Stride.toNat)
  cp1 := match op with
    | .sp => r.c1Base
    | .fp => BitVec.ofNat 32 (r.c1Base.toNat + j / 2 * r.c1Stride.toNat)
  dp := BitVec.ofNat 32 (r.dstBase.toNat + 4 * r.width.toNat * j)

/-- The length in bytes of a chroma row the operation reads (42_command_accept.md R176). -/
def chromaRowLen : Op → Nat → Nat
  | .sp, w => w
  | .fp, w => w / 2

/-- What a frame's parameters satisfy once the checks have passed, in numbers. -/
structure Passed (op : Op) (r : Regs) : Prop where
  widthPos : 0 < r.width.toNat
  heightPos : 0 < r.height.toNat
  widthEven : r.width.toNat % 2 = 0
  luma : r.yBase.toNat + (r.height.toNat - 1) * r.yStride.toNat + r.width.toNat ≤ 2 ^ 32
  chroma : r.c0Base.toNat + ((r.height.toNat + 1) / 2 - 1) * r.c0Stride.toNat
    + chromaRowLen op r.width.toNat ≤ 2 ^ 32
  vPlane : op = .fp → r.c1Base.toNat + ((r.height.toNat + 1) / 2 - 1) * r.c1Stride.toNat
    + r.width.toNat / 2 ≤ 2 ^ 32
  dst : r.dstBase.toNat + 4 * r.width.toNat * r.height.toNat ≤ 2 ^ 32
  aligned : r.dstBase.toNat % 4 = 0
  apart : ∀ e ∈ sourceExtents op r, e.hi ≤ r.dstBase.toNat ∨
    r.dstBase.toNat + 4 * r.width.toNat * r.height.toNat ≤ e.lo

theorem passed_of_frameError {op : Op} {r : Regs} (h : frameError op r = none) : Passed op r := by
  obtain ⟨h2, h3, -, -, h6, h7, h8⟩ := frameError_eq_none.mp h
  rw [← Bool.not_eq_true] at h2 h3 h6 h7 h8
  rw [zeroDimension_iff] at h2
  rw [widthOdd_iff] at h3
  rw [outOfRange_iff] at h6
  rw [dstMisaligned_iff] at h7
  rw [overlaps_iff] at h8
  push Not at h2 h6 h7 h8
  obtain ⟨hd, hs⟩ := h6
  refine ⟨by omega, by omega, by omega, hs (lumaExtent r) ?_, ?_, ?_, hd, h7, ?_⟩
  · cases op <;> simp [sourceExtents]
  · cases op
    · exact hs (chromaExtent r) (by simp [sourceExtents])
    · exact hs (uExtent r) (by simp [sourceExtents])
  · rintro rfl
    exact hs (vExtent r) (by simp [sourceExtents])
  · intro e he
    by_cases hlo : e.lo < (dstExtent r).hi
    · exact .inl (h8 e he hlo)
    · exact .inr (not_lt.mp hlo)

/-- A row's offset is at most the last row's. -/
theorem row_le {j n s : Nat} (h : j ≤ n) : j * s ≤ n * s := Nat.mul_le_mul_right s h

section InFrame

variable {op : Op} {r : Regs} {j x : Nat}

/-- Two columns fit from an even column of the frame. -/
theorem Passed.two_columns (h : Passed op r) (hx : x < r.width.toNat) (he : x % 2 = 0) :
    x + 2 ≤ r.width.toNat := by
  have := h.widthEven
  omega

theorem Passed.luma_lt (h : Passed op r) (hj : j < r.height.toNat) (hx : x < r.width.toNat) :
    lumaAddr r j x < 2 ^ 32 := by
  have := row_le (s := r.yStride.toNat) (show j ≤ r.height.toNat - 1 by omega)
  have := h.luma
  unfold lumaAddr
  omega

theorem Passed.chroma_lt (h : Passed op r) (hj : j < r.height.toNat)
    (hx : x < chromaRowLen op r.width.toNat) :
    r.c0Base.toNat + j / 2 * r.c0Stride.toNat + x < 2 ^ 32 := by
  have := row_le (s := r.c0Stride.toNat) (show j / 2 ≤ (r.height.toNat + 1) / 2 - 1 by omega)
  have := h.chroma
  omega

theorem Passed.v_lt (h : Passed .fp r) (hj : j < r.height.toNat) (hx : x < r.width.toNat / 2) :
    r.c1Base.toNat + j / 2 * r.c1Stride.toNat + x < 2 ^ 32 := by
  have := row_le (s := r.c1Stride.toNat) (show j / 2 ≤ (r.height.toNat + 1) / 2 - 1 by omega)
  have := h.vPlane rfl
  omega

/-- The word of a sample of the frame lies inside the destination. -/
theorem Passed.dst_inside (h : Passed op r) (hj : j < r.height.toNat) (hx : x < r.width.toNat) :
    r.dstBase.toNat ≤ dstAddr r j x ∧
    dstAddr r j x + 4 ≤ r.dstBase.toNat + 4 * r.width.toNat * r.height.toNat ∧
    dstAddr r j x % 4 = 0 := by
  have h1 : j * r.width.toNat + x + 1 ≤ r.width.toNat * r.height.toNat := by
    have := Nat.mul_le_mul_left r.width.toNat (show j + 1 ≤ r.height.toNat by omega)
    rw [Nat.mul_add, Nat.mul_one, Nat.mul_comm _ j] at this
    omega
  have := h.aligned
  unfold dstAddr frameW
  rw [Nat.mul_assoc]
  omega

theorem Passed.dst_lt (h : Passed op r) (hj : j < r.height.toNat) (hx : x < r.width.toNat) :
    dstAddr r j x + 4 ≤ 2 ^ 32 := by
  have := h.dst_inside hj hx
  have := h.dst
  omega

/-- The plan of the pair step at a position. -/
def planAt (op : Op) (r : Regs) (j x : Nat) : PairPlan where
  lumaA := lumaAddr r j x
  lumaB := lumaAddr r j (x + 1)
  chromaU := match op with
    | .sp => csecondAddr r j x
    | .fp => uAddr r j x
  chromaV := match op with
    | .sp => cfirstAddr r j x
    | .fp => vAddr r j x
  dstA := dstAddr r j x
  dstB := dstAddr r j (x + 1)

/-- The plan of an operation's pair step. -/
def planOf : Op → Working → PairPlan
  | .sp => spPlan
  | .fp => fpPlan

theorem ofNat16_toNat {n : Nat} (h : n < 2 ^ 16) : (BitVec.ofNat 16 n).toNat = n := by
  rw [BitVec.toNat_ofNat, Nat.mod_eq_of_lt h]

theorem ofNat32_toNat {n : Nat} (h : n < 2 ^ 32) : (BitVec.ofNat 32 n).toNat = n := by
  rw [BitVec.toNat_ofNat, Nat.mod_eq_of_lt h]

theorem Passed.yp_toNat (h : Passed op r) (hj : j < r.height.toNat) :
    (workingAt op r j x).yp.toNat = r.yBase.toNat + j * r.yStride.toNat :=
  ofNat32_toNat (by have := h.luma_lt hj h.widthPos; unfold lumaAddr at this; omega)

theorem Passed.cp0_toNat (h : Passed op r) (hj : j < r.height.toNat) :
    (workingAt op r j x).cp0.toNat = r.c0Base.toNat + j / 2 * r.c0Stride.toNat := by
  refine ofNat32_toNat (h.chroma_lt (x := 0) hj ?_)
  have := h.widthPos
  have := h.widthEven
  cases op <;> simp only [chromaRowLen] <;> omega

theorem Passed.cp1_toNat (h : Passed .fp r) (hj : j < r.height.toNat) :
    (workingAt .fp r j x).cp1.toNat = r.c1Base.toNat + j / 2 * r.c1Stride.toNat := by
  refine ofNat32_toNat (h.v_lt (x := 0) hj ?_)
  have := h.widthPos
  have := h.widthEven
  omega

theorem Passed.dp_toNat (h : Passed op r) (hj : j < r.height.toNat) :
    (workingAt op r j x).dp.toNat = r.dstBase.toNat + 4 * r.width.toNat * j := by
  have := h.dst_lt hj h.widthPos
  unfold dstAddr frameW at this
  refine ofNat32_toNat ?_
  rw [Nat.mul_assoc, Nat.mul_comm r.width.toNat j]
  omega

theorem workingAt_j_toNat (hj : j < 2 ^ 16) : (workingAt op r j x).j.toNat = j := ofNat16_toNat hj

theorem workingAt_x_toNat (hx : x < 2 ^ 16) : (workingAt op r j x).x.toNat = x := ofNat16_toNat hx

theorem runningOp_workingAt : runningOp (workingAt op r j x) = some op := by
  cases op <;> rfl

theorem Passed.plan (h : Passed op r) (hj : j < r.height.toNat) (hx : x < r.width.toNat) :
    planOf op (workingAt op r j x) = planAt op r j x := by
  have hx' : x < 2 ^ 16 := by have := r.width.isLt; omega
  have hd : r.dstBase.toNat + 4 * r.width.toNat * j + 4 * x = dstAddr r j x := by
    unfold dstAddr frameW
    rw [Nat.mul_assoc, Nat.mul_comm r.width.toNat j]
    omega
  have hd' : dstAddr r j x + 4 = dstAddr r j (x + 1) := by unfold dstAddr; omega
  cases op
  · simp only [planOf, spPlan, planAt, h.yp_toNat hj, h.cp0_toNat hj, h.dp_toNat hj,
      workingAt_x_toNat hx', hd, hd']
    rfl
  · simp only [planOf, fpPlan, planAt, h.yp_toNat hj, h.cp0_toNat hj, h.cp1_toNat hj,
      h.dp_toNat hj, workingAt_x_toNat hx', hd, hd']
    rfl

/-- Every byte a pair step reads is inside the bus space. -/
theorem Passed.reads_lt (h : Passed op r) (hj : j < r.height.toNat) (hx : x < r.width.toNat)
    (he : x % 2 = 0) : (planAt op r j x).lumaA < 2 ^ 32 ∧ (planAt op r j x).lumaB < 2 ^ 32 ∧
      (planAt op r j x).chromaU < 2 ^ 32 ∧ (planAt op r j x).chromaV < 2 ^ 32 := by
  have hx2 := h.two_columns hx he
  refine ⟨h.luma_lt hj hx, h.luma_lt hj (by omega), ?_, ?_⟩
  · cases op
    · exact h.chroma_lt (x := x + 1) hj (by simp only [chromaRowLen]; omega)
    · exact h.chroma_lt (x := x / 2) hj (by simp only [chromaRowLen]; omega)
  · cases op
    · exact h.chroma_lt (x := x) hj (by simp only [chromaRowLen]; omega)
    · exact h.v_lt (x := x / 2) hj (by omega)

/-- The latched parameters of a running frame's working registers. -/
theorem Passed.latched (h : Passed op r) (hj : j < r.height.toNat) :
    latchedY (workingAt op r j x) = r.yBase ∧ latchedC0 (workingAt op r j x) = r.c0Base ∧
    (op = .fp → latchedC1 (workingAt op r j x) = r.c1Base) := by
  have hj' : j < 2 ^ 16 := by have := r.height.isLt; omega
  have shift : (((BitVec.ofNat 16 j) >>> 1).setWidth 32).toNat = j / 2 := by
    rw [BitVec.toNat_setWidth, BitVec.toNat_ushiftRight, ofNat16_toNat hj',
      Nat.shiftRight_eq_div_pow]
    omega
  have key : ∀ (a k b s : Word), a.toNat = b.toNat + k.toNat * s.toNat → a - k * s = b := by
    intro a k b s hab
    have : a = b + k * s := by
      apply BitVec.eq_of_toNat_eq
      have ha := a.isLt
      rw [BitVec.toNat_add, BitVec.toNat_mul, Nat.mod_eq_of_lt (a := k.toNat * _) (by omega),
        ← hab, Nat.mod_eq_of_lt ha]
    rw [this, BitVec.add_sub_cancel]
  refine ⟨key _ _ _ _ ?_, key _ _ _ _ ?_, ?_⟩
  · rw [h.yp_toNat hj, BitVec.toNat_setWidth, workingAt_j_toNat hj', Nat.mod_eq_of_lt (by omega)]
    rfl
  · rw [h.cp0_toNat hj]
    change _ = _ + (((BitVec.ofNat 16 j) >>> 1).setWidth 32).toNat * _
    rw [shift]
    rfl
  · rintro rfl
    refine key _ _ _ _ ?_
    rw [h.cp1_toNat hj]
    change _ = _ + (((BitVec.ofNat 16 j) >>> 1).setWidth 32).toNat * _
    rw [shift]
    rfl

/-- The next position of a frame, in row order. -/
def nextPos (r : Regs) (j x : Nat) : Nat × Nat :=
  if x + 2 = r.width.toNat then (j + 1, 0) else (j, x + 2)

/-- At the end of a row the working registers are those of the next row's start. -/
theorem nextRow_workingAt (hj : j < r.height.toNat) :
    nextRow (workingAt op r j x) = workingAt op r (j + 1) 0 := by
  have hj' : j < 2 ^ 16 := by have := r.height.isLt; omega
  have odd : (BitVec.ofNat 16 j).getLsbD 0 = decide (j % 2 = 1) := by
    rw [BitVec.getLsbD, ofNat16_toNat hj', Nat.testBit_zero]
  have ptr : ∀ (b k s : Nat), BitVec.ofNat 32 (b + k * s) + BitVec.ofNat 32 s
      = BitVec.ofNat 32 (b + (k + 1) * s) := by
    intro b k s
    rw [← BitVec.ofNat_add, Nat.add_mul, Nat.one_mul, Nat.add_assoc]
  have chroma : ∀ (b : Nat) (s : Word),
      (if (BitVec.ofNat 16 j).getLsbD 0 = true then BitVec.ofNat 32 (b + j / 2 * s.toNat) + s
        else BitVec.ofNat 32 (b + j / 2 * s.toNat))
      = BitVec.ofNat 32 (b + (j + 1) / 2 * s.toNat) := by
    intro b s
    rw [odd]
    have hs : s = BitVec.ofNat 32 s.toNat := by simp
    by_cases ho : j % 2 = 1
    · rw [if_pos (by simpa using ho), show (j + 1) / 2 = j / 2 + 1 by omega]
      conv_lhs => rw [hs]
      simpa using ptr b (j / 2) s.toNat
    · rw [if_neg (by simpa using ho), show (j + 1) / 2 = j / 2 by omega]
  have hyp : (workingAt op r j x).yp + r.yStride = (workingAt op r (j + 1) 0).yp := by
    have := ptr r.yBase.toNat j r.yStride.toNat
    simpa [workingAt] using this
  have hdp : (workingAt op r j x).dp + 4#32 * r.width.setWidth 32
      = (workingAt op r (j + 1) 0).dp := by
    have hw : 4#32 * r.width.setWidth 32 = BitVec.ofNat 32 (4 * r.width.toNat) := by
      apply BitVec.eq_of_toNat_eq
      simp
    rw [hw]
    change BitVec.ofNat 32 _ + _ = BitVec.ofNat 32 _
    rw [← BitVec.ofNat_add]
    congr 1
    ring
  have hjj : (workingAt op r j x).j + 1 = (workingAt op r (j + 1) 0).j := by
    change BitVec.ofNat 16 j + BitVec.ofNat 16 1 = _
    rw [← BitVec.ofNat_add]
    rfl
  have hc0 := chroma r.c0Base.toNat r.c0Stride
  have hc1 := chroma r.c1Base.toNat r.c1Stride
  cases op
  · unfold nextRow
    rw [hjj]
    change Working.mk _ _ _ _ _ _ _ _ _ ((workingAt .sp r j x).yp + r.yStride)
      (if (BitVec.ofNat 16 j).getLsbD 0 = true then _ else _) _
      ((workingAt .sp r j x).dp + 4#32 * r.width.setWidth 32) = _
    rw [hyp, hdp]
    change Working.mk _ _ _ _ _ _ _ _ _ _ (if (BitVec.ofNat 16 j).getLsbD 0 = true then
      BitVec.ofNat 32 (r.c0Base.toNat + j / 2 * r.c0Stride.toNat) + r.c0Stride else
      BitVec.ofNat 32 (r.c0Base.toNat + j / 2 * r.c0Stride.toNat)) _ _ = _
    rw [hc0]
    simp [workingAt, opBits]
  · unfold nextRow
    rw [hjj]
    change Working.mk _ _ _ _ _ _ _ _ _ ((workingAt .fp r j x).yp + r.yStride)
      (if (BitVec.ofNat 16 j).getLsbD 0 = true then _ else _) _
      ((workingAt .fp r j x).dp + 4#32 * r.width.setWidth 32) = _
    rw [hyp, hdp]
    change Working.mk _ _ _ _ _ _ _ _ _ _ (if (BitVec.ofNat 16 j).getLsbD 0 = true then
      BitVec.ofNat 32 (r.c0Base.toNat + j / 2 * r.c0Stride.toNat) + r.c0Stride else
      BitVec.ofNat 32 (r.c0Base.toNat + j / 2 * r.c0Stride.toNat)) _ _ = _
    rw [hc0]
    have : (if ((workingAt .fp r j x).j.getLsbD 0 && (workingAt .fp r j x).op == 2#4) = true
        then (workingAt .fp r j x).cp1 + (workingAt .fp r j x).cs1 else (workingAt .fp r j x).cp1)
        = BitVec.ofNat 32 (r.c1Base.toNat + (j + 1) / 2 * r.c1Stride.toNat) := by
      rw [← hc1]
      simp [workingAt, opBits]
    rw [this]
    rfl

/-- ADVANCE from a position of the frame. -/
theorem advance_workingAt {s : State} (hw : s.w = workingAt op r j x)
    (hj : j < r.height.toNat) (hx : x + 2 ≤ r.width.toNat) :
    advance s =
      if (nextPos r j x).1 = r.height.toNat then
        complete { s with w := workingAt op r (nextPos r j x).1 (nextPos r j x).2 }
      else { s with w := workingAt op r (nextPos r j x).1 (nextPos r j x).2 } := by
  have hW := r.width.isLt
  have hH := r.height.isLt
  have hxe : s.w.x + 2 = s.w.width ↔ x + 2 = r.width.toNat := by
    rw [hw]
    change BitVec.ofNat 16 x + BitVec.ofNat 16 2 = r.width ↔ _
    rw [← BitVec.ofNat_add, ← BitVec.toNat_inj, ofNat16_toNat (by omega)]
  have hje : s.w.j + 1 = s.w.height ↔ j + 1 = r.height.toNat := by
    rw [hw]
    change BitVec.ofNat 16 j + BitVec.ofNat 16 1 = r.height ↔ _
    rw [← BitVec.ofNat_add, ← BitVec.toNat_inj, ofNat16_toNat (by omega)]
  unfold advance nextPos
  by_cases h1 : x + 2 = r.width.toNat
  · rw [if_pos (hxe.mpr h1), if_pos h1, hw, nextRow_workingAt hj, ← hw]
    by_cases h2 : j + 1 = r.height.toNat
    · rw [if_pos (hje.mpr h2), if_pos h2]
    · rw [if_neg (fun h => h2 (hje.mp h)), if_neg h2]
  · rw [if_neg (fun h => h1 (hxe.mp h)), if_neg h1, if_neg (show ¬ j = r.height.toNat by omega), hw]
    congr 1
    change Working.mk _ _ _ _ _ _ _ _ (BitVec.ofNat 16 x + BitVec.ofNat 16 2) _ _ _ _ = _
    rw [← BitVec.ofNat_add]
    rfl

end InFrame

end Sys2Proof.Machine
end

