-- ==== Sys2Proof/Laws/HostMemory.lean ====
section
/-! SUPPORT. Everything the host's accesses to memory and the stores of other masters can do. -/

namespace Sys2Proof.Machine

/-- What a store that reaches the bus does to memory (20_memory.md R79): it lands, or, while a command
runs, the engine's word stays where the engine has written it. -/
theorem raceStore_cases (a : Nat) (mask : BitVec 4) (v : Word) (s : State) :
    ((∃ r, raceStore a mask v s = { s with
        mem := writeWord s.mem a (mergeWord (readWord s.mem a) v mask), raced := r }) ∨
      (s.regs.busy = true ∧ ∃ e ∈ s.unseen, e.addr = a ∧
        raceStore a mask v s = { s with mem := writeWord s.mem a e.value })) := by
  unfold raceStore
  split
  · exact .inl ⟨s.raced, rfl⟩
  · rename_i hb
    split
    · exact .inl ⟨_, rfl⟩
    · rename_i e he
      split
      · exact .inr ⟨by simpa using hb, e, List.mem_of_find?_eq_some he,
          by simpa using List.find?_some he, rfl⟩
      · exact .inl ⟨s.raced, rfl⟩

/-- What a store that reaches the bus leaves: memory as the race decides, the record of unseen words
over the same addresses, and nothing else changed but the model's counters. -/
theorem busStore_cases (a : Nat) (mask : BitVec 4) (v : Word) (s : State) :
    ∃ r m, (m = writeWord s.mem a (mergeWord (readWord s.mem a) v mask) ∨
        (s.regs.busy = true ∧ ∃ e ∈ s.unseen, e.addr = a ∧ m = writeWord s.mem a e.value)) ∧
      busStore a mask v s = { s with
        mem := m
        raced := r
        unseen := storeSeen a mask v s.unseen
        missed := storeSeen a mask v s.missed
        freeCount := s.freeCount + 1 } := by
  unfold busStore
  rcases raceStore_cases a mask v s with ⟨r, h⟩ | ⟨hb, e, he, ha, h⟩ <;> rw [h]
  · exact ⟨r, _, .inl rfl, rfl⟩
  · exact ⟨s.raced, _, .inr ⟨hb, e, he, ha, rfl⟩, rfl⟩

/-- With no command running, a store that reaches the bus lands. -/
theorem busStore_idle {a : Nat} {mask : BitVec 4} {v : Word} {s : State}
    (h : s.regs.busy = false) : (busStore a mask v s).mem =
      writeWord s.mem a (mergeWord (readWord s.mem a) v mask) := by
  simp [busStore, raceStore, h]

/-- The addresses of the unseen words are as before a store. -/
theorem mem_storeSeen {a : Nat} {mask : BitVec 4} {v : Word} {l : List EngineStore} {e : EngineStore}
    (h : e ∈ storeSeen a mask v l) : ∃ e' ∈ l, e'.addr = e.addr ∧ e'.value = e.value := by
  obtain ⟨e', h', rfl⟩ := List.mem_map.mp h
  exact ⟨e', h', by split <;> rfl, by split <;> rfl⟩

/-- A load from the bus sees a word old or new, whole (20_memory.md R66, R78). -/
theorem busView_cases (a : Nat) (s : State) :
    busView a s = readWord s.mem a ∨
      ∃ e ∈ s.unseen ++ s.missed, e.addr = a ∧ busView a s = e.former := by
  unfold busView
  split
  · exact .inl rfl
  · rename_i e es he
    have sub : ∀ d ∈ e :: es, d ∈ s.unseen ++ s.missed ∧ d.addr = a := by
      intro d hd
      rw [← he] at hd
      simpa using List.mem_filter.mp hd
    generalize Config.raceChoice s.freeCount 0 % (es.length + 2) = n
    cases n with
    | zero => exact .inl rfl
    | succ n =>
      rw [List.getD_cons_succ, ← List.map_cons]
      by_cases hn : n < ((e :: es).map EngineStore.former).length
      · rw [List.getD_eq_getElem _ _ hn]
        obtain ⟨d, hd, hd'⟩ := List.mem_map.mp (List.getElem_mem hn)
        exact .inr ⟨d, (sub d hd).1, (sub d hd).2, hd'.symm⟩
      · rw [List.getD_eq_default _ _ (by omega)]
        exact .inl rfl

/-- A word with no unseen write is memory's. -/
theorem busView_of_seen {a : Nat} {s : State}
    (h : ∀ e ∈ s.unseen ++ s.missed, e.addr ≠ a) : busView a s = readWord s.mem a := by
  rcases busView_cases a s with h' | ⟨e, he, ha, -⟩
  · exact h'
  · exact absurd ha (h e he)

/-- Where the engine's port is coherent the host's cache holds nothing of its own. -/
theorem cachedCopy_of_coherent (a : Nat) (s : State) (h : Config.coherent = true) :
    cachedCopy a s = none := by
  unfold cachedCopy
  split
  · rfl
  · rw [if_pos h]

/-- The cache's copy, where COHERENT is false, is its entry for the word. -/
theorem cachedCopy_of_not_coherent (a : Nat) (s : State) (h : Config.coherent = false) :
    cachedCopy a s = s.cache.find? fun c => c.addr == a := by
  unfold cachedCopy
  cases s.cache.find? fun c => c.addr == a with
  | none => rfl
  | some c => exact if_neg (by simp [h])

/-- Taking a copy changes the cache only. -/
theorem putCached_cases (c : CachedWord) (s : State) : ∃ l, putCached c s = { s with cache := l } := by
  unfold putCached
  split
  · exact ⟨s.cache, rfl⟩
  · exact ⟨_, rfl⟩

/-- A host load changes the cache and the count of free values only. -/
theorem hostLoad_cases (a : Nat) (s : State) :
    ∃ l, hostLoad a s = { s with cache := l, freeCount := s.freeCount + 1 } := by
  unfold hostLoad
  obtain ⟨l, h⟩ := putCached_cases ⟨a, hostWord a s, dirtyMask a s⟩ s
  exact ⟨l, by rw [h]⟩

/-- What a host store does: it reaches the bus, or it stays in the cache. -/
theorem hostStore_cases (a : Nat) (mask : BitVec 4) (v : Word) (s : State) :
    hostStore a mask v s = busStore a mask v s ∨
      ∃ l, hostStore a mask v s = { s with cache := l, freeCount := s.freeCount + 1 } := by
  unfold hostStore
  split
  · exact .inl rfl
  · obtain ⟨l, h⟩ := putCached_cases
      ⟨a, mergeWord (hostWord a s) v mask, dirtyMask a s ||| mask⟩ s
    exact .inr ⟨l, by rw [h]⟩

/-- What cleaning a word does: nothing, or the store of its bytes on the bus. -/
theorem cacheClean_cases (a : Nat) (s : State) :
    cacheClean a s = s ∨
      ∃ mask v l, cacheClean a s = busStore a mask v { s with cache := l } := by
  unfold cacheClean
  split
  · exact .inl rfl
  · rename_i c _
    split
    · exact .inl rfl
    · obtain ⟨l, h⟩ := putCached_cases { c with dirty := 0#4 } s
      exact .inr ⟨_, _, l, by rw [h]⟩

/-! ### The registers are not touched -/

@[simp] theorem busStore_regs (a : Nat) (mask : BitVec 4) (v : Word) (s : State) :
    (busStore a mask v s).regs = s.regs := by
  obtain ⟨r, m, -, h⟩ := busStore_cases a mask v s
  rw [h]

@[simp] theorem busStore_w (a : Nat) (mask : BitVec 4) (v : Word) (s : State) :
    (busStore a mask v s).w = s.w := by
  obtain ⟨r, m, -, h⟩ := busStore_cases a mask v s
  rw [h]

@[simp] theorem hostStore_regs (a : Nat) (mask : BitVec 4) (v : Word) (s : State) :
    (hostStore a mask v s).regs = s.regs := by
  rcases hostStore_cases a mask v s with h | ⟨l, h⟩ <;> rw [h]
  exact busStore_regs a mask v s

@[simp] theorem hostStoreByte_regs (a : Nat) (b : Byte) (s : State) :
    (hostStoreByte a b s).regs = s.regs := hostStore_regs ..

@[simp] theorem hostLoadWord_regs (a : Nat) (s : State) : (hostLoadWord a s).regs = s.regs := by
  obtain ⟨l, h⟩ := hostLoad_cases a s
  simp [hostLoadWord, h]

@[simp] theorem hostLoadByte_regs (a : Nat) (s : State) : (hostLoadByte a s).regs = s.regs := by
  obtain ⟨l, h⟩ := hostLoad_cases (wordBase a) s
  simp [hostLoadByte, h]

@[simp] theorem cacheClean_regs (a : Nat) (s : State) : (cacheClean a s).regs = s.regs := by
  rcases cacheClean_cases a s with h | ⟨mask, v, l, h⟩ <;> rw [h]
  exact busStore_regs ..

@[simp] theorem cacheInvalidate_regs (a : Nat) (s : State) :
    (cacheInvalidate a s).regs = s.regs := rfl

end Sys2Proof.Machine
end

