-- ==== Sys2Proof/Laws/PerInstr.lean ====
section
/-! SUPPORT. Laws over every instruction, one lemma per constructor. -/

namespace Sys2Proof.Laws.EncodeCanonical

/-- The encoding of a well-formed instruction is a well-formed message: a read carries no data
(30_encoding.md R94). -/
def Statement (i : Instr) : Prop := i.wf = true → (encode i).wf = true

theorem readAt_wf (o : Offset) : (readAt o).wf = true := by
  simp [readAt, Message.wf]

theorem selectorOf_write (o : Offset) : (selectorOf .write o).getLsbD 8 = true := by
  rw [selectorOf, BitVec.getLsbD_append]
  rfl

theorem writeAt_wf (o : Offset) (d : Word) : (writeAt o d).wf = true := by
  simp only [writeAt, Message.wf, selectorOf_write, Bool.true_or]

theorem convertSp : Statement .convertSp := fun _ => rfl
theorem convertFp : Statement .convertFp := fun _ => rfl
theorem illegalCommand (c : Word) : Statement (.illegalCommand c) := fun _ => rfl
theorem rdCmd : Statement .rdCmd := fun _ => readAt_wf _
theorem wrCmd (d : Word) : Statement (.wrCmd d) := fun _ => writeAt_wf _ d
theorem rdStatus : Statement .rdStatus := fun _ => readAt_wf _
theorem wrStatus (d : Word) : Statement (.wrStatus d) := fun _ => writeAt_wf _ d
theorem rdCtrl : Statement .rdCtrl := fun _ => readAt_wf _
theorem wrCtrl (d : Word) : Statement (.wrCtrl d) := fun _ => writeAt_wf _ d
theorem rdWidth : Statement .rdWidth := fun _ => readAt_wf _
theorem wrWidth (d : Word) : Statement (.wrWidth d) := fun _ => writeAt_wf _ d
theorem rdHeight : Statement .rdHeight := fun _ => readAt_wf _
theorem wrHeight (d : Word) : Statement (.wrHeight d) := fun _ => writeAt_wf _ d
theorem rdYStride : Statement .rdYStride := fun _ => readAt_wf _
theorem wrYStride (d : Word) : Statement (.wrYStride d) := fun _ => writeAt_wf _ d
theorem rdC0Stride : Statement .rdC0Stride := fun _ => readAt_wf _
theorem wrC0Stride (d : Word) : Statement (.wrC0Stride d) := fun _ => writeAt_wf _ d
theorem rdC1Stride : Statement .rdC1Stride := fun _ => readAt_wf _
theorem wrC1Stride (d : Word) : Statement (.wrC1Stride d) := fun _ => writeAt_wf _ d
theorem rdYBase : Statement .rdYBase := fun _ => readAt_wf _
theorem wrYBase (d : Word) : Statement (.wrYBase d) := fun _ => writeAt_wf _ d
theorem rdC0Base : Statement .rdC0Base := fun _ => readAt_wf _
theorem wrC0Base (d : Word) : Statement (.wrC0Base d) := fun _ => writeAt_wf _ d
theorem rdC1Base : Statement .rdC1Base := fun _ => readAt_wf _
theorem wrC1Base (d : Word) : Statement (.wrC1Base d) := fun _ => writeAt_wf _ d
theorem rdDstBase : Statement .rdDstBase := fun _ => readAt_wf _
theorem wrDstBase (d : Word) : Statement (.wrDstBase d) := fun _ => writeAt_wf _ d
theorem rdFaultAddr : Statement .rdFaultAddr := fun _ => readAt_wf _
theorem wrFaultAddr (d : Word) : Statement (.wrFaultAddr d) := fun _ => writeAt_wf _ d
theorem rdReserved (o : Offset) : Statement (.rdReserved o) := fun _ => readAt_wf o
theorem wrReserved (o : Offset) (d : Word) : Statement (.wrReserved o d) := fun _ => writeAt_wf o d
theorem illegalAccess (dir : Direction) (o : Offset) (size : Nat) (d : Word) :
    Statement (.illegalAccess dir o size d) := by
  intro h
  simp only [Instr.wf, Bool.and_eq_true] at h
  cases dir
  · rw [show d = 0#32 by simpa using h.2]
    simp [encode, Message.wf]
  · simp only [encode, Message.wf, selectorOf_write, Bool.true_or]

end Sys2Proof.Laws.EncodeCanonical
end

