-- ==== Sys2Proof/Laws/Running.lean ====
section
/-! SUPPORT. A running frame under `FrameInv`: the closed form of its working registers, and what its
pair step reads and can do. -/

namespace Sys2Proof.Machine

/-- The checks read only the parameters the operation uses (42_command_accept.md R172). -/
theorem frameError_congr {op : Op} {r r' : Regs} (hw : r.width = r'.width)
    (hh : r.height = r'.height) (hys : r.yStride = r'.yStride) (hcs0 : r.c0Stride = r'.c0Stride)
    (hcs1 : op = .fp → r.c1Stride = r'.c1Stride) (hyb : r.yBase = r'.yBase)
    (hcb0 : r.c0Base = r'.c0Base) (hcb1 : op = .fp → r.c1Base = r'.c1Base)
    (hdb : r.dstBase = r'.dstBase) : frameError op r = frameError op r' := by
  obtain ⟨⟩ := r
  obtain ⟨⟩ := r'
  simp only at hw hh hys hcs0 hcs1 hyb hcb0 hcb1 hdb
  subst hw hh hys hcs0 hyb hcb0 hdb
  cases op
  · rfl
  · obtain rfl := hcs1 rfl
    obtain rfl := hcb1 rfl
    rfl

/-- Every position of a frame whose checks passed satisfies `FrameInv`. -/
theorem frameInv_workingAt {op : Op} {r : Regs} {j x : Nat} (h : frameError op r = none)
    (hj : j < r.height.toNat) (hx : x < r.width.toNat) (he : x % 2 = 0) :
    FrameInv op (workingAt op r j x) := by
  have P := passed_of_frameError h
  obtain ⟨l1, l2, l3⟩ := P.latched (x := x) hj
  have hW := r.width.isLt
  have hH := r.height.isLt
  refine ⟨?_, ?_, ?_, ?_, ?_, ?_, ?_, ?_⟩
  · rw [← h]
    exact frameError_congr rfl rfl rfl rfl (fun _ => rfl) l1 l2 l3 rfl
  · rw [workingAt_j_toNat (by omega)]; exact hj
  · rw [workingAt_x_toNat (by omega)]; exact hx
  · rw [workingAt_x_toNat (by omega)]; exact he
  · rw [l1, P.yp_toNat hj, workingAt_j_toNat (by omega)]; rfl
  · rw [l2, P.cp0_toNat hj, workingAt_j_toNat (by omega)]; rfl
  · rintro rfl
    rw [l3 rfl, P.cp1_toNat hj, workingAt_j_toNat (by omega)]; rfl
  · rw [P.dp_toNat hj, workingAt_j_toNat (by omega)]; rfl

/-- The parameters of a running frame; CONVERT.SP's latched V base is its untouched pointer. -/
def paramsOf (op : Op) (w : Working) : Regs :=
  match op with
  | .sp => { latchedParams w with c1Base := w.cp1 }
  | .fp => latchedParams w

theorem pairAccesses_paramsOf (op : Op) (w : Working) (j x : Nat) :
    pairAccesses op (latchedParams w) j x = pairAccesses op (paramsOf op w) j x := by
  cases op <;> rfl

theorem frameWord_paramsOf (op : Op) (w : Working) (m : Memory) (j x : Nat) :
    frameWord op (latchedParams w) m j x = frameWord op (paramsOf op w) m j x := by
  cases op <;> rfl

theorem seenWord_paramsOf (op : Op) (w : Working) (s : State) (j x : Nat) :
    seenWord op (latchedParams w) s j x = seenWord op (paramsOf op w) s j x := by
  cases op <;> rfl

theorem landedWord_paramsOf (op : Op) (w : Working) (s : State) (j x : Nat) :
    landedWord op (latchedParams w) s j x = landedWord op (paramsOf op w) s j x := by
  cases op <;> rfl

theorem dstAddr_paramsOf (op : Op) (w : Working) (j x : Nat) :
    dstAddr (latchedParams w) j x = dstAddr (paramsOf op w) j x := by
  cases op <;> rfl

/-- The working registers of a running frame in closed form. -/
theorem workingAt_of_frameInv {op : Op} {w : Working} (ho : runningOp w = some op)
    (h : FrameInv op w) :
    w = workingAt op (paramsOf op w) w.j.toNat w.x.toNat ∧ frameError op (paramsOf op w) = none := by
  have num : ∀ (a : Word) (n : Nat), a.toNat = n → a = BitVec.ofNat 32 n := by
    intro a n h
    rw [← h]
    simp
  have hop : w.op = opBits op := by
    unfold runningOp at ho
    split_ifs at ho with h1 h2
    · cases ho; exact h1
    · cases ho; exact h2
  have hj : w.j = BitVec.ofNat 16 w.j.toNat := by simp
  have hx : w.x = BitVec.ofNat 16 w.x.toNat := by simp
  have hyp := num _ _ h.lumaPointer
  have hc0 := num _ _ h.chromaPointer
  have hdp := num _ _ h.dstPointer
  refine ⟨?_, ?_⟩
  · cases op
    · exact congr_working hop hj hx hyp hc0 rfl hdp
    · exact congr_working hop hj hx hyp hc0 (num _ _ (h.vPointer rfl)) hdp
  · rw [← h.checked]
    cases op
    · exact frameError_congr rfl rfl rfl rfl (fun h => by cases h) rfl rfl (fun h => by cases h) rfl
    · rfl
where
  /-- Working registers that agree on the fields a frame computes are equal. -/
  congr_working {w : Working} {op : BitVec 4} {j x : Half} {yp cp0 cp1 dp : Word} (ho : w.op = op)
      (hj : w.j = j) (hx : w.x = x) (hy : w.yp = yp) (h0 : w.cp0 = cp0) (h1 : w.cp1 = cp1)
      (hd : w.dp = dp) :
      w = { w with op := op, j := j, x := x, yp := yp, cp0 := cp0, cp1 := cp1, dp := dp } := by
    subst ho hj hx hy h0 h1 hd
    rfl

/-- The engine's turn in a running frame is its pair step. -/
theorem engineTurn_running {op : Op} {s : State} (hb : s.regs.busy = true) (hh : s.hung = false)
    (ho : runningOp s.w = some op) : engineTurn s = pairStep op (planOf op s.w) s := by
  rcases engineTurn_cases s with ⟨-, -, h, h'⟩ | ⟨-, -, h, h'⟩ | ⟨h | h | h, h'⟩
  · rw [ho] at h; cases h; exact h'
  · rw [ho] at h; cases h; exact h'
  · simp_all
  · simp_all
  · simp_all

/-- A running frame's parameters, its position and the plan of its next pair step. -/
theorem running_facts {op : Op} {s : State} (ho : runningOp s.w = some op)
    (h : FrameInv op s.w) :
    ∃ r, r = paramsOf op s.w ∧ frameError op r = none ∧ Passed op r ∧
      s.w = workingAt op r s.w.j.toNat s.w.x.toNat ∧ s.w.j.toNat < r.height.toNat ∧
      s.w.x.toNat < r.width.toNat ∧ s.w.x.toNat % 2 = 0 ∧
      planOf op s.w = planAt op r s.w.j.toNat s.w.x.toNat := by
  obtain ⟨h1, h2⟩ := workingAt_of_frameInv ho h
  have P := passed_of_frameError h2
  have hj : s.w.j.toNat < (paramsOf op s.w).height.toNat := by
    rw [show (paramsOf op s.w).height = s.w.height by cases op <;> rfl]
    exact h.row
  have hx : s.w.x.toNat < (paramsOf op s.w).width.toNat := by
    rw [show (paramsOf op s.w).width = s.w.width by cases op <;> rfl]
    exact h.column
  refine ⟨_, rfl, h2, P, h1, hj, hx, h.columnEven, ?_⟩
  conv_lhs => rw [h1]
  exact P.plan hj hx

theorem pairAccesses_eq (op : Op) (r : Regs) (j x : Nat) : pairAccesses op r j x =
    [⟨(planAt op r j x).lumaA, 1, .read⟩, ⟨(planAt op r j x).lumaB, 1, .read⟩,
     ⟨(planAt op r j x).chromaU, 1, .read⟩, ⟨(planAt op r j x).chromaV, 1, .read⟩,
     ⟨(planAt op r j x).dstA, 4, .write⟩, ⟨(planAt op r j x).dstB, 4, .write⟩] := by
  cases op <;> rfl

/-- A pair step's four reads, all admitted, give its two words, whatever was raced. -/
theorem pairWords_at {op : Op} {r : Regs} {j x : Nat} {s : State} (P : Passed op r)
    (hj : j < r.height.toNat) (hx : x < r.width.toNat) (he : x % 2 = 0)
    (hb : ∀ b ∈ (pairAccesses op r j x).take 4, b.admitted s.platform) :
    pairWords op (planAt op r j x) s = .ok ⟨seenWord op r s j x, seenWord op r s j (x + 1)⟩ := by
  obtain ⟨b1, b2, b3, b4⟩ := P.reads_lt hj hx he
  rw [pairAccesses_eq] at hb
  simp only [List.take_succ_cons, List.take_zero, List.mem_cons, List.not_mem_nil, or_false,
    forall_eq_or_imp, forall_eq, BusAccess.admitted] at hb
  obtain ⟨a1, a2, a3, a4⟩ := hb
  unfold pairWords
  rw [memRead_admitted b1 a1, memRead_admitted b2 a2, memRead_admitted b3 a3,
    memRead_admitted b4 a4]
  have hx1 : x / 2 * 2 = x := by omega
  have hx2 : (x + 1) % 2 = 1 := by omega
  have hx3 : (x + 1) / 2 = x / 2 := by omega
  cases op <;> simp only [planAt, seenWord, uRoleAddr, vRoleAddr, uAddr, vAddr, he, hx1, hx2, hx3]

/-- Where no byte it reads was raced, a pair step computes the frame law's words. -/
theorem seenWord_of_unraced {op : Op} {r : Regs} {j x : Nat} {s : State} (he : x % 2 = 0)
    (hb : ∀ b ∈ (pairAccesses op r j x).take 4, b.unraced s) :
    seenWord op r s j x = frameWord op r s.mem j x ∧
    seenWord op r s j (x + 1) = frameWord op r s.mem j (x + 1) := by
  have read : ∀ k a, BusAccess.unraced s ⟨a, 1, .read⟩ → engineByte k a s = readByte s.mem a := by
    intro k a h
    refine engineByte_of_not_raced ?_
    rw [formerValues, List.map_eq_nil_iff, List.filter_eq_nil_iff]
    intro st hst
    rw [show st.covers a = false from h 0 Nat.one_pos st hst]
    simp
  rw [pairAccesses_eq] at hb
  simp only [List.take_succ_cons, List.take_zero, List.mem_cons, List.not_mem_nil, or_false,
    forall_eq_or_imp, forall_eq] at hb
  obtain ⟨a1, a2, a3, a4⟩ := hb
  have hx1 : x / 2 * 2 = x := by omega
  have hx3 : (x + 1) / 2 = x / 2 := by omega
  cases op <;>
    simp only [planAt, uAddr, vAddr] at a1 a2 a3 a4 <;>
    simp only [seenWord, frameWord, uRoleAddr, vRoleAddr, uAddr, vAddr, hx1, hx3, read _ _ a1,
      read _ _ a2, read _ _ a3, read _ _ a4, and_self]

/-- A word lands whole where its write was not raced. -/
theorem landedWord_of_unraced {op : Op} {r : Regs} {j x : Nat} {s : State} (P : Passed op r)
    (hj : j < r.height.toNat) (hx : x < r.width.toNat)
    (hb : BusAccess.unraced s ⟨dstAddr r j x, 4, .write⟩) :
    landedWord op r s j x = seenWord op r s j x :=
  racedWord_of_not_raced (P.dst_inside hj hx).2.2 hb

theorem run_succ {n : Nat} {s t : State} (h : run n s = .next t) : run (n + 1) s = step t := by
  rw [run, h]

end Sys2Proof.Machine
end

