-- ==== Sys2Proof/Laws/Steps.lean ====
section
/-! SUPPORT. What one step does to the host-visible registers. -/

namespace Sys2Proof.Machine

theorem stopPair_regs {e : EngineStop} {s t : State} (h : stopPair e s = .next t) :
    t.regs = s.regs ∨ ∃ a, t.regs = Regs.ended { s.regs with faultAddr := a } .bus := by
  cases e with
  | busError a => cases h; exact .inr ⟨a, rfl⟩
  | noAnswer => cases h; exact .inl rfl
  | fault f => cases h

theorem advance_regs (s : State) :
    (advance s).regs = s.regs ∨ (advance s).regs = s.regs.ended .ok := by
  rcases advance_cases s with ⟨-, -, h⟩ | ⟨-, -, h⟩ | ⟨-, h⟩ <;> rw [h] <;> simp

/-- A pair step leaves the registers, completes the command or ends it with a bus error. -/
theorem pairStep_regs {op : Op} {p : PairPlan} {s t : State} (h : pairStep op p s = .next t) :
    t.regs = s.regs ∨ t.regs = s.regs.ended .ok ∨
      ∃ a, t.regs = Regs.ended { s.regs with faultAddr := a } .bus := by
  rcases pairStep_cases op p s with ⟨e, -, h'⟩ | ⟨v, e, -, -, h'⟩ | ⟨v, e, -, -, -, h'⟩ |
    ⟨v, -, -, -, h'⟩ <;> rw [h'] at h
  · exact (stopPair_regs h).imp_right .inr
  · exact (stopPair_regs h).imp_right .inr
  · exact (stopPair_regs h).imp_right .inr
  · cases h
    rcases advance_regs { engineWrite 5 p.dstB v.b (engineWrite 4 p.dstA v.a s) with
      freeCount := s.freeCount + 1 } with h | h
    · exact .inl h
    · exact .inr (.inl h)

/-- An engine turn changes the registers only at the end of a running command. -/
theorem engineTurn_regs {s t : State} (h : engineTurn s = .next t) :
    t.regs = s.regs ∨ (s.regs.busy = true ∧ (t.regs = s.regs.ended .ok ∨
      ∃ a, t.regs = Regs.ended { s.regs with faultAddr := a } .bus)) := by
  rcases engineTurn_cases s with ⟨hb, -, -, h'⟩ | ⟨hb, -, -, h'⟩ | ⟨-, h'⟩ <;> rw [h'] at h
  · exact (pairStep_regs h).imp_right fun x => ⟨hb, x⟩
  · exact (pairStep_regs h).imp_right fun x => ⟨hb, x⟩
  · cases h; exact .inl rfl

@[simp] theorem resetMidPair_regs (s : State) : (resetMidPair s).regs = Regs.reset := rfl

/-- What one step does to the registers: nothing, the end of a command, reset, or a transaction. -/
theorem step_regs {s t : State} (h : step s = .next t) :
    t.regs = s.regs ∨
    ((s.inputs = [] ∨ ∃ rest, s.inputs = .engine :: rest) ∧ s.regs.busy = true ∧
      (t.regs = s.regs.ended .ok ∨ ∃ a, t.regs = Regs.ended { s.regs with faultAddr := a } .bus)) ∨
    ((∃ rest, s.inputs = .reset :: rest ∨ s.inputs = .resetMidPair :: rest) ∧
      t.regs = Regs.reset) ∨
    ∃ m rest, s.inputs = .transaction m :: rest ∧
      exec (decode m) { s with inputs := rest } = .next t := by
  unfold step at h
  split at h
  · rename_i hi
    exact (engineTurn_regs h).imp_right fun x => .inl ⟨.inl hi, x⟩
  · rename_i m rest hi
    exact .inr (.inr (.inr ⟨m, rest, hi, h⟩))
  · rename_i rest hi
    exact (engineTurn_regs h).imp_right fun x => .inl ⟨.inr ⟨rest, hi⟩, x⟩
  · rename_i rest hi
    cases h
    exact .inr (.inr (.inl ⟨⟨rest, .inl hi⟩, rfl⟩))
  · rename_i rest hi
    cases h
    exact .inr (.inr (.inl ⟨⟨rest, .inr hi⟩, rfl⟩))
  all_goals cases h; exact .inl (by simp)

/-- What the write of a command word does to the registers. -/
theorem issueCommand_regs (c : Word) (s : State) :
    ((issueCommand c s).regs = s.regs ∧ s.regs.busy = true) ∨
    (s.regs.busy = false ∧ ∃ e, commandError c s.regs = some e ∧
      (issueCommand c s).regs = s.regs.ended e) ∨
    (s.regs.busy = false ∧ commandError c s.regs = none ∧
      (issueCommand c s).regs = s.regs.started) := by
  rcases issueCommand_cases c s with ⟨hb, h⟩ | ⟨hb, e, he, h⟩ | ⟨hb, hc, h⟩ <;> rw [h]
  · exact .inl ⟨rfl, hb⟩
  · exact .inr (.inl ⟨hb, e, he, rfl⟩)
  · exact .inr (.inr ⟨hb, hc, rfl⟩)

/-- What a transaction does to the registers: a command word's write, a write of STATUS or CTRL, or
nothing to STATUS, CTRL and FAULT_ADDR. -/
theorem exec_regs {i : Instr} {s t : State} (h : exec i s = .next t) :
    (∃ c, (i = .convertSp ∧ c = 1#32 ∨ i = .convertFp ∧ c = 2#32 ∨ i = .illegalCommand c ∨
        i = .wrCmd c) ∧ t.regs = (issueCommand c s).regs) ∨
    (∃ d, i = .wrStatus d ∧ t.regs = s.regs.writeStatus d) ∨
    (∃ d, i = .wrCtrl d ∧ t.regs = s.regs.writeCtrl d) ∨
    (t.regs.busy = s.regs.busy ∧ t.regs.done = s.regs.done ∧ t.regs.err = s.regs.err ∧
      t.regs.irqEn = s.regs.irqEn ∧ t.regs.faultAddr = s.regs.faultAddr) := by
  cases i <;> cases h <;> simp [hostCommand, hostWrite, writeRegister]

end Sys2Proof.Machine
end

