-- ==== Sys2Proof/Tests/Slice0.lean ====
section
/-! SUPPORT. Tests: ill-formed terms, every constructor's word, one or two effects of each instruction
(expected results from 95_test_vectors.md unless a line says otherwise), and a witness for the
hypotheses of each obligation, named `witness_<Obligation>`. -/

open Sys2Proof Sys2Proof.Machine

namespace Sys2Proof.Tests

/-! ### WellFormed refuses -/

theorem test_wf_refuses_legal_word_as_illegalCommand :
    (Instr.illegalCommand 1#32).wf = false ∧ (Instr.illegalCommand 2#32).wf = false := by decide

theorem test_wf_refuses_register_offset_as_reserved :
    (Instr.rdReserved 0x30#8).wf = false ∧ (Instr.wrReserved 0x30#8 0#32).wf = false := by decide

theorem test_wf_refuses_misaligned_reserved :
    (Instr.rdReserved 0x35#8).wf = false ∧ (Instr.wrReserved 0xFE#8 0#32).wf = false := by decide

theorem test_wf_refuses_legal_access_as_illegal :
    (Instr.illegalAccess .read 0x0C#8 4 0#32).wf = false ∧
    (Instr.illegalAccess .write 0xFC#8 4 7#32).wf = false := by decide

theorem test_wf_refuses_read_with_data :
    (Instr.illegalAccess .read 0x06#8 4 1#32).wf = false ∧
    (Message.access 0x004#9 4 1#32).wf = false := by decide

/-! ### Decoding, from 30_encoding.md R91, R94 and 10_state.md R21 -/

theorem test_decode_convertSp :
    decodeTableWord 32 0b00000000000000000000000000000001 = some .convertSp := by decide

theorem test_decode_convertFp :
    decodeTableWord 32 0b00000000000000000000000000000010 = some .convertFp := by decide

theorem test_decode_illegalCommand :
    decodeTableWord 32 0b10000000000000000000000000000001
      = some (.illegalCommand 0x80000001#32) := by decide

theorem test_decode_cmd : decodeTableWord 16 0b000000000 = some .rdCmd ∧
    decode (.access 0b100000000#9 4 0x55#32) = .wrCmd 0x55#32 := by decide

theorem test_decode_status : decodeTableWord 16 0b000000100 = some .rdStatus ∧
    decode (.access 0b100000100#9 4 0x55#32) = .wrStatus 0x55#32 := by decide

theorem test_decode_ctrl : decodeTableWord 16 0b000001000 = some .rdCtrl ∧
    decode (.access 0b100001000#9 4 0x55#32) = .wrCtrl 0x55#32 := by decide

theorem test_decode_width : decodeTableWord 16 0b000001100 = some .rdWidth ∧
    decode (.access 0b100001100#9 4 0x55#32) = .wrWidth 0x55#32 := by decide

theorem test_decode_height : decodeTableWord 16 0b000010000 = some .rdHeight ∧
    decode (.access 0b100010000#9 4 0x55#32) = .wrHeight 0x55#32 := by decide

theorem test_decode_yStride : decodeTableWord 16 0b000010100 = some .rdYStride ∧
    decode (.access 0b100010100#9 4 0x55#32) = .wrYStride 0x55#32 := by decide

theorem test_decode_c0Stride : decodeTableWord 16 0b000011000 = some .rdC0Stride ∧
    decode (.access 0b100011000#9 4 0x55#32) = .wrC0Stride 0x55#32 := by decide

theorem test_decode_c1Stride : decodeTableWord 16 0b000011100 = some .rdC1Stride ∧
    decode (.access 0b100011100#9 4 0x55#32) = .wrC1Stride 0x55#32 := by decide

theorem test_decode_yBase : decodeTableWord 16 0b000100000 = some .rdYBase ∧
    decode (.access 0b100100000#9 4 0x55#32) = .wrYBase 0x55#32 := by decide

theorem test_decode_c0Base : decodeTableWord 16 0b000100100 = some .rdC0Base ∧
    decode (.access 0b100100100#9 4 0x55#32) = .wrC0Base 0x55#32 := by decide

theorem test_decode_c1Base : decodeTableWord 16 0b000101000 = some .rdC1Base ∧
    decode (.access 0b100101000#9 4 0x55#32) = .wrC1Base 0x55#32 := by decide

theorem test_decode_dstBase : decodeTableWord 16 0b000101100 = some .rdDstBase ∧
    decode (.access 0b100101100#9 4 0x55#32) = .wrDstBase 0x55#32 := by decide

theorem test_decode_faultAddr : decodeTableWord 16 0b000110000 = some .rdFaultAddr ∧
    decode (.access 0b100110000#9 4 0x55#32) = .wrFaultAddr 0x55#32 := by decide

theorem test_decode_reserved : decodeTableWord 16 0b000110100 = some (.rdReserved 0x34#8) ∧
    decode (.access 0b111111100#9 4 0x55#32) = .wrReserved 0xFC#8 0x55#32 := by decide

theorem test_decode_illegalAccess :
    decodeTableWord 16 0b000000110 = some (.illegalAccess .read 0x06#8 4 0#32) ∧
    decode (.access 0b100001100#9 1 0x55#32) = .illegalAccess .write 0x0C#8 1 0x55#32 := by decide

/-- Bytes that are no message, and words too wide for their format, are rejected by name. -/
theorem test_decodeBytes_rejects :
    decodeBytes [] = .error (.noSuchFormat 0) ∧ decodeTableWord 0 0 = none ∧
    decodeBytes [1#8, 0#8, 0#8] = .error (.noSuchFormat 24) ∧
    decodeBytes [0#8, 2#8] = .error .selectorTooWide ∧
    decodeBytes [0x0C#8, 0x01#8] = .ok (.wrWidth 0#32) ∧
    decodeTableWord 32 (2 ^ 32) = none := by decide

/-! ### Small states -/

/-- The parameter registers of 95 section 3.5. -/
def params : Regs :=
  { Regs.reset with
    width := 4, height := 2
    yStride := 4, c0Stride := 4, c1Stride := 2
    yBase := 0x1000, c0Base := 0x2000, c1Base := 0x3000, dstBase := 0x4000 }

/-- Idle, with given registers. -/
def idle (r : Regs) : State := { State.reset with regs := r }

/-- Two luma bytes, a chroma pair and a V byte: the pixels of 95 program P1, row 0. -/
def source : Memory :=
  [(0x1000, 16#8), (0x1001, 235#8), (0x2000, 240#8), (0x2001, 90#8), (0x3000, 110#8)]

/-- A running frame at a position. -/
def running (op : Op) (j x : Nat) : State :=
  { State.reset with regs := params.started, w := workingAt op params j x, mem := source }

/-- Just before a pending input. -/
def pending (i : Input) (s : State) : State := { s with inputs := [i] }

/-- The next state, if there is one. -/
def nextState : Host.Outcome State Fault Refusal → Option State
  | .next t => some t
  | .fault _ => none
  | .refused _ => none

/-- What the port answers to an instruction. -/
def answer (i : Instr) (s : State) : Option Response := (nextState (exec i s)).map State.response

/-- What a register reads as after an instruction. -/
def reads (q : Reg) (i : Instr) (s : State) : Option Word :=
  (nextState (exec i s)).map fun t => readValue q t.regs

/-! ### Effects of the commands -/

/-- Rows A29 and I4: an accepted command. -/
theorem test_convertSp :
    reads .status .convertSp (idle { params with c0Base := 0x1000 }) = some 0x01#32 ∧
    (nextState (exec .convertSp (idle { params with irqEn := true }))).map (fun t => irq t.regs)
      = some false := by decide

/-- Rows A11 and A23. -/
theorem test_convertSp_rejected :
    reads .status .convertSp (idle { params with c0Stride := 3 }) = some 0x42#32 ∧
    reads .status .convertSp (idle { params with dstBase := 0xFFFFFFE2 }) = some 0x62#32 := by decide

/-- Row A13. -/
theorem test_convertFp :
    reads .status .convertFp (idle { params with c0Stride := 2 }) = some 0x01#32 := by decide

/-- Rows A12 and A15. -/
theorem test_convertFp_rejected :
    reads .status .convertFp (idle { params with c0Stride := 2, c1Stride := 1 }) = some 0x42#32 ∧
    reads .status .convertFp (idle { params with c0Stride := 2, c1Base := 0 }) = some 0x52#32 := by
  decide

/-- Rows A1 and A5. -/
theorem test_illegalCommand :
    reads .status (.illegalCommand 0x00000011#32) (idle { params with width := 2 }) = some 0x12#32 ∧
    reads .status (.illegalCommand 0x80000001#32) (idle params) = some 0x12#32 := by decide

/-- Rows A24 to A28: the edges of the overlap check. -/
theorem test_overlap_edges :
    reads .status (.wrCmd 1#32) (idle { params with dstBase := 0x0FE0 }) = some 0x01#32 ∧
    reads .status (.wrCmd 1#32) (idle { params with dstBase := 0x0FE4 }) = some 0x82#32 ∧
    reads .status (.wrCmd 1#32) (idle { params with height := 3, dstBase := 0x2008 }) = some 0x01#32 ∧
    reads .status (.wrCmd 1#32) (idle { params with height := 3, dstBase := 0x2004 }) = some 0x82#32 ∧
    reads .status (.wrCmd 1#32) (idle { params with height := 3, dstBase := 0x1FD0 })
      = some 0x01#32 := by decide

/-! ### Effects of the register accesses -/

/-- Row B8. -/
theorem test_rdCmd : answer .rdCmd (idle params) = some (.data 0#32) := by decide

/-- Rows A8 and A30. -/
theorem test_wrCmd :
    reads .status (.wrCmd 1#32) (idle { params with width := 3, height := 1 }) = some 0x32#32 ∧
    reads .status (.wrCmd 1#32) (running .sp 0 0) = some 0x01#32 := by decide

/-- Row B7's STATUS. -/
theorem test_rdStatus :
    answer .rdStatus (idle { params with done := true, err := .stride }) = some (.data 0x42#32) := by
  decide

/-- Rows B9 and B10. -/
theorem test_wrStatus :
    reads .status (.wrStatus 1#32) (idle { params with done := true, err := .stride }) = some 0x42#32 ∧
    reads .status (.wrStatus 2#32) (idle { params with done := true, err := .stride })
      = some 0x40#32 := by decide

/-- Row B6. -/
theorem test_rdCtrl : answer .rdCtrl (idle { params with irqEn := true }) = some (.data 1#32) := by
  decide

/-- Rows B6 and B16. -/
theorem test_wrCtrl : reads .ctrl (.wrCtrl 0xFFFFFFFF#32) (idle params) = some 1#32 ∧
    reads .ctrl (.wrCtrl 0#32) (idle { params with irqEn := true }) = some 0#32 := by decide

theorem test_rdWidth : answer .rdWidth (idle params) = some (.data 4#32) := by decide

/-- Row B3. -/
theorem test_wrWidth : reads .width (.wrWidth 0x12340006#32) (idle params) = some 6#32 := by decide

theorem test_rdHeight : answer .rdHeight (idle params) = some (.data 2#32) := by decide

/-- Row B4. -/
theorem test_wrHeight :
    reads .height (.wrHeight 0xFFFFFFFF#32) (idle params) = some 0x0000FFFF#32 := by decide

theorem test_rdYStride : answer .rdYStride (idle params) = some (.data 4#32) := by decide

/-- Row B5. -/
theorem test_wrYStride :
    reads .yStride (.wrYStride 0xFFFFFFFF#32) (idle params) = some 0xFFFFFFFF#32 := by decide

theorem test_rdC0Stride :
    answer .rdC0Stride (idle { params with c0Stride := 9 }) = some (.data 9#32) := by decide

theorem test_wrC0Stride : reads .c0Stride (.wrC0Stride 0x80000001#32) (idle params)
    = some 0x80000001#32 := by decide

theorem test_rdC1Stride : answer .rdC1Stride (idle params) = some (.data 2#32) := by decide

theorem test_wrC1Stride : reads .c1Stride (.wrC1Stride 0x80000001#32) (idle params)
    = some 0x80000001#32 := by decide

theorem test_rdYBase : answer .rdYBase (idle params) = some (.data 0x1000#32) := by decide

theorem test_wrYBase :
    reads .yBase (.wrYBase 0x80000001#32) (idle params) = some 0x80000001#32 := by decide

theorem test_rdC0Base : answer .rdC0Base (idle params) = some (.data 0x2000#32) := by decide

theorem test_wrC0Base :
    reads .c0Base (.wrC0Base 0x80000001#32) (idle params) = some 0x80000001#32 := by decide

theorem test_rdC1Base : answer .rdC1Base (idle params) = some (.data 0x3000#32) := by decide

theorem test_wrC1Base :
    reads .c1Base (.wrC1Base 0x80000001#32) (idle params) = some 0x80000001#32 := by decide

theorem test_rdDstBase : answer .rdDstBase (idle params) = some (.data 0x4000#32) := by decide

/-- Row I6: the running command keeps its latched pointer. -/
theorem test_wrDstBase :
    reads .dstBase (.wrDstBase 0x8000#32) (running .sp 0 0) = some 0x8000#32 ∧
    (nextState (exec (.wrDstBase 0x8000#32) (running .sp 0 0))).map (fun t => t.w.dp)
      = some 0x4000#32 := by decide

theorem test_rdFaultAddr :
    answer .rdFaultAddr (idle { params with faultAddr := 0x2001 }) = some (.data 0x2001#32) := by
  decide

/-- Row B11. -/
theorem test_wrFaultAddr :
    reads .faultAddr (.wrFaultAddr 0x1234#32) (idle params) = some 0#32 := by decide

/-- Row B12. -/
theorem test_rdReserved : answer (.rdReserved 0x40#8) (idle params) = some (.data 0#32) := by decide

/-- Row B13. -/
theorem test_wrReserved : nextState (exec (.wrReserved 0xFC#8 0xFFFFFFFF#32) (idle params))
    = some { idle params with response := .written } := by decide

/-- Rows B14 and B15. -/
theorem test_illegalAccess :
    answer (.illegalAccess .read 0x06#8 4 0#32) (idle params) = some .slaveError ∧
    reads .width (.illegalAccess .write 0x0C#8 1 9#32) (idle params) = some 4#32 := by decide

/-! ### The engine -/

/-- Program P1, pair step (0, 0). -/
theorem test_sp_pair_step :
    (nextState (engineTurn (running .sp 0 0))).map
      (fun t => [readWord t.mem 0x4000, readWord t.mem 0x4004])
      = some [0x000000B2#32, 0x00B2B2FF#32] := by decide

/-- 95 section 3.3: (16, 240, 110) has nr -7362, ng -7456, nb 57904, by hand from R144. -/
theorem test_fp_pair_step :
    (nextState (engineTurn (running .fp 0 0))).map (fun t => readWord t.mem 0x4000)
      = some 0x000000E2#32 := by decide

/-- 95 section 3.7: the end of an odd row moves CP0, the end of row 0 does not. -/
theorem test_row_ends :
    (nextRow (workingAt .sp params 0 2)).cp0 = 0x2000#32 ∧
    (nextRow (workingAt .sp params 1 2)).cp0 = 0x2004#32 ∧
    (nextRow (workingAt .sp params 0 2)).yp = 0x1004#32 ∧
    (nextRow (workingAt .sp params 0 2)).dp = 0x4010#32 := by decide

/-- Row E1, with 95's refused read of 0x2001. -/
theorem test_bus_error :
    (nextState (engineTurn { running .sp 0 0 with platform := [⟨0x2001, 0x2002, .read, .busError⟩] })).map
      (fun t => [readValue .status t.regs, t.regs.faultAddr]) = some [0x92#32, 0x2001#32] := by decide

/-- Row E3. -/
theorem test_bus_error_keeps_the_first_word :
    (nextState (engineTurn
      { running .sp 0 0 with platform := [⟨0x4004, 0x4008, .write, .busError⟩] })).map
      (fun t => [readWord t.mem 0x4000, readWord t.mem 0x4004, t.regs.faultAddr])
      = some [0x000000B2#32, 0#32, 0x4004#32] := by decide

/-- Program P3: the transactions of SETUP.SP and CLRDONE, as selectors and data. -/
theorem test_program_transactions :
    inputsOf (setupSp 3#32 2#32 4#32 4#32 0x1000#32 0x2000#32 0x4000#32 ++ clrDone)
      = [.transaction (.access 0x10C#9 4 3#32), .transaction (.access 0x110#9 4 2#32),
         .transaction (.access 0x114#9 4 4#32), .transaction (.access 0x118#9 4 4#32),
         .transaction (.access 0x120#9 4 0x1000#32), .transaction (.access 0x124#9 4 0x2000#32),
         .transaction (.access 0x12C#9 4 0x4000#32), .transaction (.access 0x104#9 4 2#32)] := by
  decide

/-! ### Witnesses for the obligations' hypotheses -/

theorem passes_sp : frameError .sp params = none := by decide

theorem passes_fp : frameError .fp params = none := by decide

/-- 95 row A13 and A19's edge: no check fails. -/
theorem no_check_fails (op : Op) (e : ErrCode) : ¬ checkFails (commandWord op) params e := by
  cases op <;> cases e <;> (simp only [checkFails]; decide)

theorem frameInv_running (op : Op) (j x : Nat) (hj : j < 2) (hx : x < 4) (he : x % 2 = 0) :
    FrameInv op (running op j x).w :=
  frameInv_workingAt (by cases op <;> decide) hj hx he

theorem inv_running (op : Op) (j x : Nat) (hj : j < 2) (hx : x < 4) (he : x % 2 = 0) :
    Inv (running op j x) :=
  ⟨show Memory.wf source by decide, by simp [running], fun _ => ⟨rfl, rfl⟩,
    fun _ => ⟨op, runningOp_workingAt, frameInv_running op j x hj hx he⟩, by simp [running, State.reset]⟩

theorem admits_everything (a n : Nat) (k : BusKind) : admits [] a n k = true := rfl

theorem admitsPair_everything (op : Op) (r : Regs) (j x : Nat) : admitsPair op [] r j x :=
  fun _ _ => admits_everything _ _ _

theorem witness_DecodeEncodeRoundTrip :
    (Instr.illegalCommand 0#32).wf = true ∧ (Instr.rdReserved 0x34#8).wf = true ∧
    (Instr.wrReserved 0xFC#8 0xFFFFFFFF#32).wf = true ∧
    (Instr.illegalAccess .write 0xFF#8 4 1#32).wf = true ∧
    (Instr.illegalAccess .read 0x0C#8 1 0#32).wf = true := by decide

theorem witness_EncodeDecodeRoundTrip :
    (Message.command 0xFFFFFFFF#32).wf = true ∧ (Message.access 0x1FF#9 0 1#32).wf = true ∧
    (Message.access 0x0FF#9 8 0#32).wf = true := by decide

theorem witness_CommandWordMap :
    decode (.command 1#32) = .convertSp ∧ decode (.command 2#32) = .convertFp ∧
    decode (.command 3#32) = .illegalCommand 3#32 := by decide

theorem witness_StepRunsTheDecodedTransaction :
    (pending (.transaction (encode .rdStatus)) (idle params)).inputs
      = .transaction (encode .rdStatus) :: [] ∧ Instr.rdStatus.wf = true ∧
    decodeTableWord 16 0x004 = some .rdStatus := by decide

theorem witness_StepOtherwiseIsTheEngines :
    (running .sp 0 0).inputs = [] ∧ (pending .engine (running .sp 0 0)).inputs = .engine :: [] := by
  decide

/-- Each check fails first in some row of 95 section 3.5 (A1, A7, A8, A10, A15, A18, A22, A25). -/
theorem witness_FirstFailingCheckIsReported :
    commandError 0x11#32 { params with width := 2 } = some .badCmd ∧
    commandError 1#32 { params with width := 3, height := 0 } = some .zeroDim ∧
    commandError 1#32 { params with width := 3, height := 1 } = some .oddWidth ∧
    commandError 1#32 { params with yStride := 3, yBase := 0 } = some .stride ∧
    commandError 2#32 { params with c0Stride := 2, c1Base := 0 } = some .null ∧
    commandError 1#32 { params with yBase := 0xFFFFFFF9 } = some .range ∧
    commandError 1#32 { params with dstBase := 0x4002 } = some .align ∧
    commandError 1#32 { params with dstBase := 0x0FE4 } = some .overlap ∧
    commandError 1#32 params = none := by decide

theorem witness_PassingCommandStartsTheFrame (op : Op) :
    (idle params).regs.busy = false ∧ ∀ e, ¬ checkFails (commandWord op) (idle params).regs e :=
  ⟨rfl, no_check_fails op⟩

/-- Rows A8 and A25: check 3 fails and no earlier one; check 8 fails and no earlier one. -/
theorem witness_RejectedCommandReportsItsCheck :
    (idle { params with width := 3 }).regs.busy = false ∧
    (checkFails 1#32 { params with width := 3 } .oddWidth ∧
      ∀ e', e'.code.toNat < ErrCode.oddWidth.code.toNat →
        ¬ checkFails 1#32 { params with width := 3 } e') ∧
    (checkFails 1#32 { params with dstBase := 0x0FE4 } .overlap ∧
      ∀ e', e'.code.toNat < ErrCode.overlap.code.toNat →
        ¬ checkFails 1#32 { params with dstBase := 0x0FE4 } e') := by
  refine ⟨rfl, ⟨by simp only [checkFails]; decide, fun e' _ => ?_⟩,
    ⟨by simp only [checkFails]; decide, fun e' _ => ?_⟩⟩
  · cases e' <;> first | (exfalso; revert ‹_ < _›; decide) | (simp only [checkFails]; decide)
  · cases e' <;> first | (exfalso; revert ‹_ < _›; decide) | (simp only [checkFails]; decide)

/-- Rows A2, A4 and A5: a zero word, the largest opcode, a reserved bit. -/
theorem witness_IllegalCommandWordIsReported :
    (idle params).regs.busy = false ∧
    ((0#32).extractLsb' 0 4 ≠ 1#4 ∧ (0#32).extractLsb' 0 4 ≠ 2#4) ∧
    ((0x0000000F#32).extractLsb' 0 4 ≠ 1#4 ∧ (0x0000000F#32).extractLsb' 0 4 ≠ 2#4) ∧
    (0x80000001#32).extractLsb' 4 28 ≠ 0#28 := by decide

theorem witness_CommandWhileBusyIsDropped : (running .fp 1 2).regs.busy = true := rfl

/-- Registers that differ only where acceptance overwrites them. -/
theorem witness_StartedFrameForgetsThePast :
    let s := idle params
    let s' := { idle { params with done := true, err := .bus, faultAddr := 0x2001 } with
      w := (running .fp 1 2).w, raced := [⟨0x4000, 1#4, 9#32⟩] }
    s.regs.busy = false ∧ s'.regs.busy = false ∧
    s'.regs = { s.regs with done := s'.regs.done, err := s'.regs.err, irqEn := s'.regs.irqEn,
                            faultAddr := s'.regs.faultAddr } ∧
    (nextState (exec (convertOf .sp) s)).isSome ∧ (nextState (exec (convertOf .sp) s')).isSome := by
  decide

/-- CONVERT.SP starts whatever the V plane's registers hold, and its pair step runs. -/
theorem witness_SemiPlanarIgnoresTheVPlane :
    (nextState (exec .convertSp (idle params))).isSome ∧ runningOp (running .sp 0 0).w = some .sp ∧
    (nextState (engineTurn (running .sp 0 0))).isSome ∧
    (nextState (engineTurn (running .sp 1 2))).isSome := by decide

theorem witness_StatusAccess : (idle params).regs.done = false ∧ (2#32).getLsbD 1 = true ∧ (0xFFFFFFFD#32).getLsbD 1 = false := by
  decide

theorem witness_ReservedOffsetsAndBits :
    (2#32).getLsbD 1 = (0xFFFFFFFE#32).getLsbD 1 ∧ (1#32).getLsbD 0 = (0xFFFFFFFF#32).getLsbD 0 ∧
    (0x0001FFFF#32).extractLsb' 0 16 = (0x0000FFFF#32).extractLsb' 0 16 := by decide

theorem witness_IllegalAccessGetsASlaveError :
    ((0x006#9).extractLsb' 0 8).toNat % 4 ≠ 0 ∧ ((1 : Nat) ≠ 4) ∧
    decode (.access 0x10C#9 1 9#32) = .illegalAccess .write 0x0C#8 1 9#32 := by decide

theorem witness_LegalReadReturnsTheRegister :
    (0x00#8 ≠ 0x04#8) ∧ (idle params).regs.done = false ∧ (0x00#8).toNat % 4 = 0 ∧ regAt 0x30#8 = some .faultAddr ∧ (0x34#8).toNat % 4 = 0 ∧
    regAt 0x34#8 = none ∧ (0xFC#8).toNat % 4 = 0 := by decide

theorem witness_WriteThenReadBack :
    Reg.width ∉ [Reg.cmd, Reg.status, Reg.ctrl, Reg.faultAddr] ∧
    Reg.dstBase ∉ [Reg.cmd, Reg.status, Reg.ctrl, Reg.faultAddr] ∧
    (nextState (exec (writeOf 0xFFFFFFFF#32 .width) (idle params))).isSome := by decide

theorem witness_SetupOrderDoesNotMatter :
    Reg.width ≠ Reg.dstBase ∧ Reg.width ∉ [Reg.cmd, Reg.status, Reg.ctrl, Reg.faultAddr] ∧
    Reg.dstBase ∉ [Reg.cmd, Reg.status, Reg.ctrl, Reg.faultAddr] ∧
    ((nextState (exec (writeOf 2#32 .width) (idle params))).bind
      fun t => nextState (exec (writeOf 8#32 .dstBase) t)).isSome ∧
    ((nextState (exec (writeOf 8#32 .dstBase) (idle params))).bind
      fun t => nextState (exec (writeOf 2#32 .width) t)).isSome := by decide

theorem witness_NoTransactionAltersARunningCommand :
    (running .sp 0 0).regs.busy = true ∧
    (nextState (exec (.wrCmd 2#32) (running .sp 0 0))).isSome := by decide

theorem witness_RunningCommandReadsOnlyItsCopies :
    { Regs.reset with busy := true, width := 0xFFFF }.busy = (running .sp 0 0).regs.busy ∧
    (nextState (engineTurn (running .sp 0 0))).isSome := by decide

/-- The interrupt rises when a command ends and when IRQ_EN is set, and falls by each of its causes. -/
theorem witness_InterruptIsDoneAndEnabled :
    let s := idle { params with done := true, irqEn := true }
    let off := idle { params with done := true }
    let falls := fun i => irq s.regs && (nextState (step (pending i s))).any fun t => !irq t.regs
    let rises := fun s => !irq s.regs && (nextState (step s)).any fun t => irq t.regs
    rises (pending (.transaction (encode (.wrCtrl 1#32))) off) ∧
    rises (pending (.transaction (encode (.illegalCommand 0#32))) (idle { params with irqEn := true })) ∧
    rises { running .sp 1 2 with regs := { params.started with irqEn := true } } ∧
    falls .reset ∧ falls .resetMidPair ∧ falls (.transaction (encode (.wrStatus 2#32))) ∧
    falls (.transaction (encode (.wrCtrl 0#32))) ∧ falls (.transaction (encode .convertSp)) := by
  decide

/-- BUSY falls at reset, at the last pair and at a bus error, and rises at acceptance. -/
theorem witness_BusyChangesOnlyAtStartAndEnd :
    let falls := fun s => s.regs.busy && (nextState (step s)).any fun t => !t.regs.busy
    let rises := fun s => !s.regs.busy && (nextState (step s)).any fun t => t.regs.busy
    falls (pending .reset (running .sp 0 0)) ∧ falls (running .fp 1 2) ∧
    falls (pending .engine (running .fp 1 2)) ∧
    falls { running .sp 0 0 with platform := [⟨0, 0x2000, .read, .busError⟩] } ∧
    rises (pending (.transaction (encode .convertSp)) (idle params)) ∧
    rises (pending (.transaction (encode (.wrCmd 2#32))) (idle params)) := by decide

/-- DONE rises at COMPLETE, at a bus error and at a rejection; it falls at an acceptance, by a write of
1 to STATUS bit 1 and at reset. -/
theorem witness_DoneChangesOnlyAtEndStartAndClearing :
    let rises := fun s => !s.regs.done && (nextState (step s)).any fun t => t.regs.done
    let falls := fun s => s.regs.done && (nextState (step s)).any fun t => !t.regs.done
    let ended := idle { params with done := true }
    rises (running .fp 1 2) ∧
    rises { running .sp 0 0 with platform := [⟨0, 0x2000, .read, .busError⟩] } ∧
    rises (pending (.transaction (encode (.wrCmd 3#32))) (idle params)) ∧
    falls (pending (.transaction (encode .convertSp)) ended) ∧
    falls (pending (.transaction (encode (.wrStatus 2#32))) ended) ∧
    falls (pending .resetMidPair ended) := by decide

theorem witness_BusyAndDoneAreNeverBothSet :
    ¬ ((running .sp 1 2).regs.busy = true ∧ (running .sp 1 2).regs.done = true) ∧
    (nextState (step (running .sp 1 2))).isSome := by decide

/-- ERR changes at a rejection, at an acceptance, at a bus error and at reset. -/
theorem witness_ErrChangesOnlyAtStartAndEnd :
    let changes := fun s => (nextState (step s)).any fun t => t.regs.err != s.regs.err
    changes (pending (.transaction (encode (.illegalCommand 0#32))) (idle params)) ∧
    changes (pending (.transaction (encode .convertFp)) (idle { params with err := .null })) ∧
    changes { running .sp 0 0 with platform := [⟨0, 0x2000, .read, .busError⟩] } ∧
    changes (pending .reset (idle { params with err := .null })) := by decide

theorem witness_FaultAddrChangesOnlyByBusErrorOrClearing :
    let changes := fun s => (nextState (step s)).any fun t => t.regs.faultAddr != s.regs.faultAddr
    changes { running .sp 0 0 with platform := [⟨0, 0x2000, .read, .busError⟩] } ∧
    changes (pending (.transaction (encode .convertFp)) (idle { params with faultAddr := 4 })) ∧
    changes (pending .reset (idle { params with faultAddr := 4 })) := by decide

/-- A running frame's last pair, after the host stored a byte outside the command's buffers. -/
def raced (op : Op) : State := { running op 1 2 with raced := [⟨0x8000, 0x1#4, 7#32⟩] }

theorem unraced_raced (op : Op) : ∀ b ∈ pairAccesses op (latchedParams (raced op).w)
    (raced op).w.j.toNat (raced op).w.x.toNat, b.unraced (raced op) := by
  unfold BusAccess.unraced
  cases op <;> decide

/-- Reset between steps while a command runs, and during a step: idle, with a hung access, and in a running
pair step of the invariant. -/
theorem witness_ResetClearsEveryRegisterAndSparesMemory :
    (pending .reset (running .sp 1 0)).inputs = .reset :: [] ∧
    (pending .resetMidPair (idle params)).inputs = .resetMidPair :: [] ∧
    (idle params).regs.busy = false ∧
    (pending .resetMidPair { running .sp 1 0 with hung := true }).hung = true ∧
    (let s := pending .resetMidPair (running .sp 1 0)
     s.inputs = .resetMidPair :: [] ∧ s.regs.busy = true ∧ Inv s ∧
       0x4010 + 4 ≤ 2 ^ 32 ∧ dstAddr (latchedParams s.w) s.w.j.toNat s.w.x.toNat = 0x4010) := by
  refine ⟨by decide, by decide, by decide, by decide, by decide, by decide, ?_, by decide, by decide⟩
  have h := inv_running .sp 1 0 (by decide) (by decide) rfl
  exact ⟨h.memory, h.status, h.running, h.frame, h.written⟩

/-- Admitted accesses with a store elsewhere raced, and a refused fifth access. -/
theorem witness_ResetBetweenTheWritesKeepsTheFirst (op : Op) :
    let s := pending .resetMidPair (raced op)
    let made := (pairAccesses op (latchedParams s.w) s.w.j.toNat s.w.x.toNat).take 5
    s.inputs = .resetMidPair :: [] ∧ s.regs.busy = true ∧ runningOp s.w = some op ∧
    FrameInv op s.w ∧ s.hung = false ∧ s.raced ≠ [] ∧
    (∀ b ∈ made, b.admitted s.platform) ∧ (∀ b ∈ made, b.unraced s) ∧
    ∃ b ∈ made, ¬ b.admitted [⟨0x4018, 0x401C, .write, .busError⟩] :=
  ⟨rfl, rfl, runningOp_workingAt, frameInv_running op 1 2 (by decide) (by decide) rfl, rfl,
    List.cons_ne_nil _ _, fun _ _ => admits_everything _ _ _,
    fun b hb => unraced_raced op b (List.mem_of_mem_take hb),
    ⟨0x4018, 4, .write⟩, by cases op <;> decide, by simp only [BusAccess.admitted]; decide⟩

/-- Rows of 95 section 3.1 at both edges of the table. -/
theorem witness_SaturationTable :
    SAT (-278) = some 0#8 ∧ SAT 535 = some 255#8 ∧ SAT (-279) = none ∧ SAT 536 = none := by decide

theorem witness_SaturationRomContents :
    SAT ((0 : Nat) - 278) = some (lut 0) ∧ SAT ((813 : Nat) - 278) = some (lut 813) ∧
    lut 278 = 0#8 ∧ (lut 279).toNat = 1 ∧ (lut 532).toNat = 254 ∧ lut 533 = 255#8 ∧
    romEntry 813#10 = some 255#8 ∧ romEntry 814#10 = none ∧ romEntry 1023#10 = none ∧
    romEntry (BitVec.ofNat 10 ((-278 : Int) + 278).toNat) = some 0#8 := by decide

theorem witness_SaturationLaws :
    SAT 0 = some (BitVec.ofInt 8 0) ∧ SAT 255 = some (BitVec.ofInt 8 255) ∧
    SAT (-1) = some 0#8 ∧ SAT 256 = some 255#8 := by decide

theorem witness_DivisionRealisationsAgree :
    (-70944 : Int) ≤ -70944 ∧ (136881 : Int) ≤ 136881 ∧
    SAT (tdiv (-70944) 256) = some 0#8 ∧ SAT (tdiv 65536 256) = some 255#8 := by decide

theorem witness_WordWriteIsLittleEndian :
    Memory.wf source ∧ (2 ^ 32 - 4) + 4 ≤ 2 ^ 32 ∧ (2 ^ 32 - 5 < 2 ^ 32 - 4) ∧ 0 + 4 ≤ 4 := by decide

theorem witness_CanonicalMemoryIsDeterminedByItsReads :
    Memory.wf source ∧ Memory.wf (writeByte (writeByte source 5 1#8) 5 0#8) ∧
    ∀ a, readByte source a = readByte (writeByte (writeByte source 5 1#8) 5 0#8) a :=
  ⟨by decide, by decide, fun _ => rfl⟩

/-- With a store elsewhere raced: the accesses are admitted, and none is raced. -/
theorem witness_PairStepWritesItsTwoWords (op : Op) :
    let s := raced op
    s.regs.busy = true ∧ runningOp s.w = some op ∧ FrameInv op s.w ∧ s.hung = false ∧ s.raced ≠ [] ∧
    admitsPair op s.platform (latchedParams s.w) s.w.j.toNat s.w.x.toNat ∧
    (∀ b ∈ pairAccesses op (latchedParams s.w) s.w.j.toNat s.w.x.toNat, b.unraced s) ∧ 0 < 2 ∧ 1 < 2 :=
  ⟨rfl, runningOp_workingAt, frameInv_running op 1 2 (by decide) (by decide) rfl, rfl,
    List.cons_ne_nil _ _, admitsPair_everything _ _ _ _, unraced_raced op, by decide, by decide⟩

/-- Inside a row, at the end of a row, at the end of the frame. -/
theorem witness_AdvanceMovesThroughTheFrame :
    let w := workingAt .fp params
    ((w 0 0).j.toNat < (w 0 0).height.toNat ∧ (w 0 0).x.toNat + 2 < (w 0 0).width.toNat) ∧
    ((w 0 2).x.toNat + 2 = (w 0 2).width.toNat ∧ (w 0 2).j.toNat + 1 < (w 0 2).height.toNat) ∧
    ((w 1 2).x.toNat + 2 = (w 1 2).width.toNat ∧ (w 1 2).j.toNat + 1 = (w 1 2).height.toNat ∧
      (w 1 2).x.toNat % 2 = 0 ∧ (w 1 2).width.toNat % 2 = 0) := by decide

/-- Rows E1 and E3, and the first access: the refused access is the first not admitted. -/
theorem witness_BusErrorEndsTheCommandAtItsAccess :
    let stops := fun (h : BusHole) (k : Nat) =>
      let s := { running .sp 0 0 with platform := [h], raced := [⟨0x8000, 0x1#4, 7#32⟩] }
      let as := pairAccesses .sp (latchedParams s.w) s.w.j.toNat s.w.x.toNat
      s.regs.busy = true ∧ runningOp s.w = some .sp ∧ s.hung = false ∧
      (∀ c ∈ as.take k, admits s.platform c.addr c.size c.kind = true) ∧
      (∀ c ∈ as.take k, ∀ i, i < c.size → ∀ st ∈ s.raced, st.covers (c.addr + i) = false) ∧
      (as[k]?.bind fun b => busAnswer s.platform b.addr b.size b.kind) = some h.answer
    FrameInv .sp (running .sp 0 0).w ∧ stops ⟨0x1000, 0x1001, .read, .busError⟩ 0 ∧
    stops ⟨0x2001, 0x2002, .read, .busError⟩ 2 ∧ stops ⟨0x4004, 0x4008, .write, .busError⟩ 5 :=
  ⟨frameInv_running .sp 0 0 (by decide) (by decide) rfl, by decide, by decide, by decide⟩

theorem witness_UnansweredAccessStallsTheEngine :
    let stops := fun (h : BusHole) (k : Nat) =>
      let s := { running .fp 0 0 with platform := [h], raced := [⟨0x8000, 0x1#4, 7#32⟩] }
      let as := pairAccesses .fp (latchedParams s.w) s.w.j.toNat s.w.x.toNat
      s.regs.busy = true ∧ runningOp s.w = some .fp ∧ s.hung = false ∧
      (∀ c ∈ as.take k, admits s.platform c.addr c.size c.kind = true) ∧
      (∀ c ∈ as.take k, ∀ i, i < c.size → ∀ st ∈ s.raced, st.covers (c.addr + i) = false) ∧
      (as[k]?.bind fun b => busAnswer s.platform b.addr b.size b.kind) = some h.answer
    FrameInv .fp (running .fp 0 0).w ∧ stops ⟨0x1000, 0x1001, .read, .noAnswer⟩ 0 ∧
    stops ⟨0x4000, 0x4004, .write, .noAnswer⟩ 4 ∧ stops ⟨0x4004, 0x4008, .write, .noAnswer⟩ 5 :=
  ⟨frameInv_running .fp 0 0 (by decide) (by decide) rfl, by decide, by decide, by decide⟩

theorem witness_EngineWritesOnlyTheDestination (op : Op) :
    Inv (running op 1 2) ∧ (∃ t, engineTurn (running op 1 2) = .next t) ∧
    (0x3FFF < (running op 1 2).w.db.toNat) ∧
    (running op 1 2).w.db.toNat + 4 * (running op 1 2).w.width.toNat
      * (running op 1 2).w.height.toNat ≤ 0x4020 :=
  ⟨inv_running op 1 2 (by decide) (by decide) rfl, by cases op <;> exact ⟨_, rfl⟩,
    by cases op <;> decide, by cases op <;> decide⟩

theorem witness_EveryStepKeepsTheInvariant (op : Op) :
    Inv (running op 1 2) ∧ ∃ t, step (running op 1 2) = .next t :=
  ⟨inv_running op 1 2 (by decide) (by decide) rfl, by cases op <;> exact ⟨_, rfl⟩⟩

theorem witness_TheMachineNeverStops (op : Op) : Inv (running op 0 0) :=
  inv_running op 0 0 (by decide) (by decide) rfl

/-- The first pair, and the last before COMPLETE. -/
theorem witness_FrameInProgress (op : Op) :
    (idle params).inputs = [] ∧ (idle params).mem.wf ∧ (idle params).regs.busy = false ∧
    (∀ e, ¬ checkFails (commandWord op) (idle params).regs e) ∧
    0 < params.width.toNat / 2 * params.height.toNat ∧
    3 < params.width.toNat / 2 * params.height.toNat ∧
    ∀ i, i < 3 → admitsPair op (idle params).platform params (i / (params.width.toNat / 2))
      (2 * (i % (params.width.toNat / 2))) :=
  ⟨rfl, by decide, rfl, no_check_fails op, by decide, by decide,
    fun _ _ => admitsPair_everything _ _ _ _⟩

theorem witness_WholeFrameIsConverted (op : Op) :
    (idle params).inputs = [] ∧ (idle params).mem.wf ∧ (idle params).regs.busy = false ∧
    (∀ e, ¬ checkFails (commandWord op) (idle params).regs e) ∧
    admitsFrame op (idle params).platform params :=
  ⟨rfl, by decide, rfl, no_check_fails op, fun _ _ _ _ _ => admitsPair_everything _ _ _ _⟩

/-- A byte the host overwrote during the command, one it did not, and a whole word. -/
theorem witness_RacedByteIsOldOrNew :
    let stores : List HostStore := [⟨0x1000, 0x1#4, 7#32⟩]
    formerValues stores 0x1000 = [7#8] ∧
    (∀ st ∈ stores, ¬ (st.addr = 4 * (0x1001 / 4) ∧ st.mask.getLsbD (0x1001 % 4) = true)) ∧
    (∀ st ∈ [HostStore.mk 0x4000 0xF#4 7#32], st.addr = 0x4000 → st.mask = 0xF#4) ∧ 3 < 4 := by
  decide

/-- A running frame whose first pair is written, and whose words the host has not seen. -/
def halfway (op : Op) : State :=
  { running op 0 2 with unseen := [⟨0x4004, 6#32, 0#32⟩, ⟨0x4000, 5#32, 0#32⟩] }

theorem inv_halfway (op : Op) : Inv (halfway op) :=
  ⟨show Memory.wf source by decide, by simp [halfway, running], fun _ => ⟨rfl, rfl⟩,
    fun _ => ⟨op, runningOp_workingAt, frameInv_running op 0 2 (by decide) (by decide) rfl⟩,
    fun _ => by cases op <;> decide⟩

/-- A store over a written word, over a word not yet written and, with BUSY = 0, anywhere: each form of
input, and the last word of the bus space. -/
theorem witness_HostStoreIsOldOrNew (op : Op) :
    Inv (halfway op) ∧ Inv (idle params) ∧ (idle params).regs.busy = false ∧
    (0x4001#32).toNat / 4 = (0x1000#30).toNat ∧ (2#4) = 1#4 <<< ((0x4001#32).toNat % 4) ∧
    (pending (.storeByte 0x4001#32 1#8) (halfway op)).inputs = [.storeByte 0x4001#32 1#8] ∧
    (pending (.storeWord 0x1002#30 1#32) (halfway op)).inputs = [.storeWord 0x1002#30 1#32] ∧
    (pending (.busStore 0x3FFFFFFF#30 8#4 1#32) (idle params)).inputs
      = [.busStore 0x3FFFFFFF#30 8#4 1#32] :=
  ⟨inv_halfway op, ⟨by decide, by decide, fun h => absurd h (by decide), fun h => absurd h (by decide),
    fun h => absurd h (by decide)⟩, rfl, by decide, by decide,
    rfl, rfl, rfl⟩

/-- The host's cache has a copy of a word exactly where COHERENT is false: a cleaning that stores. -/
theorem witness_HostStoreIsOldOrNew_cleaning :
    cachedCopy 0x1000 { idle params with cache := [⟨0x1000, 7#32, 3#4⟩] }
      = if Config.coherent then none else some ⟨0x1000, 7#32, 3#4⟩ := rfl

/-- The outcomes of a store, where nothing is open: it lands with BUSY = 0, and with BUSY = 1 over a word
not yet written it lands and is remembered with the former value. -/
theorem test_bus_store :
    readWord (busStore 0x1000 2#4 0x11223344#32 { idle params with mem := source }).mem 0x1000
      = 0x00003310#32 ∧
    (busStore 0x4008 0xF#4 9#32 (halfway .sp)).raced = [⟨0x4008, 0xF#4, 0#32⟩] ∧
    readWord (busStore 0x4008 0xF#4 9#32 (halfway .sp)).mem 0x4008 = 9#32 := by decide

/-- A word and a byte with no unseen write, one at the end of the bus space; BUSY plays no part. -/
theorem witness_HostLoadAfterTheCommand :
    (∀ e ∈ (halfway .sp).unseen ++ (halfway .sp).missed, e.addr ≠ 4 * (0x1002#30).toNat) ∧
    cachedCopy (4 * (0x1002#30).toNat) (halfway .sp) = none ∧
    (∀ e ∈ (idle params).unseen ++ (idle params).missed, e.addr ≠ 4 * (0x3FFFFFFF#30).toNat) ∧
    cachedCopy (4 * (0x3FFFFFFF#30).toNat) (idle params) = none ∧
    (pending (.loadWord 0x1002#30) (halfway .sp)).inputs = [.loadWord 0x1002#30] ∧
    (pending (.loadByte 0xFFFFFFFF#32) (idle params)).inputs = [.loadByte 0xFFFFFFFF#32] ∧
    (0xFFFFFFFF#32).toNat / 4 = (0x3FFFFFFF#30).toNat := by decide

theorem witness_HostLoadSeesEachWordOldOrNew :
    (pending (.loadWord 0x1000#30) (halfway .fp)).inputs = [.loadWord 0x1000#30] ∧
    (pending (.loadByte 0x4003#32) (halfway .fp)).inputs = [.loadByte 0x4003#32] ∧
    (0x4003#32).toNat / 4 = (0x1000#30).toNat ∧
    (∃ e ∈ (halfway .fp).unseen, e.addr = 4 * (0x1000#30).toNat) := by
  refine ⟨rfl, rfl, by decide, ⟨_, List.mem_cons_of_mem _ (.head _), by decide⟩⟩

/-- Both ways of seeing DONE = 1, with an unseen word, one missed before it that it covers and one that
stays; and a look at `irq` = 0. -/
theorem witness_SeeingDoneMakesTheWritesVisible :
    let s := { idle { params with done := true, irqEn := true } with
      unseen := [⟨0x4000, 1#32, 0#32⟩]
      missed := [⟨0x4000, 2#32, 0#32⟩, ⟨0x4004, 3#32, 0#32⟩] }
    let looks := fun look : Input =>
      let p := { s with inputs := [look, .cacheInvalidate 0x1000#30, .loadWord 0x1000#30] }
      p.regs.done = true ∧ p.regs.irqEn = true ∧ (nextState (step p)).any fun u =>
        u.unseen = [] ∧ u.missed = [⟨0x4004, 3#32, 0#32⟩] ∧ ∀ e ∈ u.missed, e.addr ≠ 0x4000
    looks (.transaction (encode .rdStatus)) ∧ looks .observeIrq ∧
    irq (idle params).regs = false := by decide

end Sys2Proof.Tests
end

namespace Sys2Proof.Machine

/-! ### Whose turn a step is (00_scope.md R3, log 3) -/

/-- The engine moves in its own time: no input is needed (70_reset_and_hazards.md R295). -/
theorem step_of_inputs_nil {s : State} (h : s.inputs = []) : step s = engineTurn s := by
  rw [step, h]

/-- The turn left to the engine is used up before the engine moves. -/
theorem step_of_inputs_engine {s : State} {rest : List Input} (h : s.inputs = .engine :: rest) :
    step s = engineTurn { s with inputs := rest } := by
  rw [step, h]

/-- Settles O6: the two ways a step is the engine's, one for each form of the pending inputs. -/
theorem stepOtherwiseIsTheEngines : Obligations.StepOtherwiseIsTheEngines := fun _ =>
  ⟨step_of_inputs_nil, fun _ => step_of_inputs_engine⟩

end Sys2Proof.Machine

namespace Sys2Proof

/-! ### Decoding what the encoder writes (30_encoding.md R94, R95) -/

@[simp] theorem directionOf_selectorOf (dir : Direction) (o : Offset) :
    directionOf (selectorOf dir o) = dir := by
  cases dir <;> simp only [directionOf, selectorOf, BitVec.getLsbD_append] <;> rfl

@[simp] theorem offsetBits_selectorOf (dir : Direction) (o : Offset) :
    offsetBits (selectorOf dir o) = o := by
  cases dir <;> exact BitVec.extractLsb'_append_eq_right

theorem decode_access_selectorOf (dir : Direction) (o : Offset) (size : Nat) (d : Word) :
    decode (.access (selectorOf dir o) size d) = decodeAccess dir o size d := by
  rw [decode, directionOf_selectorOf, offsetBits_selectorOf]

/-- A legal read of an offset that the register map lists. -/
theorem decode_readAt_of_listed {o : Offset} {q : Reg} (ho : alignedOffset o = true)
    (hq : regAt o = some q) : decode (readAt o) = readOf q := by
  rw [readAt, decode_access_selectorOf]
  simp [decodeAccess, ho, hq]

/-- A legal read of an offset that the register map does not list. -/
theorem decode_readAt_of_unlisted {o : Offset} (ho : alignedOffset o = true)
    (hq : regAt o = none) : decode (readAt o) = .rdReserved o := by
  rw [readAt, decode_access_selectorOf]
  simp [decodeAccess, ho, hq]

/-- A legal write of an offset that the register map lists. -/
theorem decode_writeAt_of_listed {o : Offset} {q : Reg} (ho : alignedOffset o = true)
    (hq : regAt o = some q) (d : Word) : decode (writeAt o d) = writeOf d q := by
  rw [writeAt, decode_access_selectorOf]
  simp [decodeAccess, ho, hq]

/-- A legal write of an offset that the register map does not list. -/
theorem decode_writeAt_of_unlisted {o : Offset} (ho : alignedOffset o = true)
    (hq : regAt o = none) (d : Word) : decode (writeAt o d) = .wrReserved o d := by
  rw [writeAt, decode_access_selectorOf]
  simp [decodeAccess, ho, hq]

theorem alignedOffset_offsetOf (q : Reg) : alignedOffset (offsetOf q) = true := by
  cases q <;> rfl

theorem regAt_offsetOf (q : Reg) : regAt (offsetOf q) = some q := by
  cases q <;> rfl

/-- 10_state.md R21 lists no register past 0x30. -/
theorem regAt_of_reserved {o : Offset} (h : 0x34 ≤ o.toNat) : regAt o = none := by
  have listed : ∀ e ∈ registerMap, e.1.toNat ≤ 0x30 := by decide
  rw [regAt, Option.map_eq_none_iff, List.find?_eq_none]
  intro e he heq
  have := listed e he
  rw [beq_iff_eq.mp heq] at this
  omega

/-- A read of a register decodes to its row of the opcode table. -/
theorem decode_readAt_offsetOf (q : Reg) : decode (readAt (offsetOf q)) = readOf q :=
  decode_readAt_of_listed (alignedOffset_offsetOf q) (regAt_offsetOf q)

/-- A write of a register decodes to its row of the opcode table. -/
theorem decode_writeAt_offsetOf (d : Word) (q : Reg) :
    decode (writeAt (offsetOf q) d) = writeOf d q :=
  decode_writeAt_of_listed (alignedOffset_offsetOf q) (regAt_offsetOf q) d

/-- A word that is no command decodes to itself (30_encoding.md R91, R92). -/
theorem decode_command_of_illegal {c : Word} (h1 : c ≠ 1#32) (h2 : c ≠ 2#32) :
    decode (.command c) = .illegalCommand c := by
  rw [decode, decodeCommand, opOf, if_neg h1, if_neg h2]

theorem decodeAccess_of_illegal {o : Offset} {size : Nat}
    (h : (!alignedOffset o || size != 4) = true) (dir : Direction) (d : Word) :
    decodeAccess dir o size d = .illegalAccess dir o size (carriedData dir d) := by
  unfold decodeAccess
  rw [if_pos h]

/-- Settles O1: a read or write of a register by the register map and its inverse; a reserved
offset is off the map; the other rows carry their operands unchanged. -/
theorem decodeEncodeRoundTrip : Obligations.DecodeEncodeRoundTrip := by
  intro i hwf
  cases i with
  | convertSp => rfl
  | convertFp => rfl
  | illegalCommand c =>
    simp only [Instr.wf, Bool.and_eq_true, bne_iff_ne] at hwf
    exact decode_command_of_illegal hwf.1 hwf.2
  | rdCmd => exact decode_readAt_offsetOf .cmd
  | wrCmd d => exact decode_writeAt_offsetOf d .cmd
  | rdStatus => exact decode_readAt_offsetOf .status
  | wrStatus d => exact decode_writeAt_offsetOf d .status
  | rdCtrl => exact decode_readAt_offsetOf .ctrl
  | wrCtrl d => exact decode_writeAt_offsetOf d .ctrl
  | rdWidth => exact decode_readAt_offsetOf .width
  | wrWidth d => exact decode_writeAt_offsetOf d .width
  | rdHeight => exact decode_readAt_offsetOf .height
  | wrHeight d => exact decode_writeAt_offsetOf d .height
  | rdYStride => exact decode_readAt_offsetOf .yStride
  | wrYStride d => exact decode_writeAt_offsetOf d .yStride
  | rdC0Stride => exact decode_readAt_offsetOf .c0Stride
  | wrC0Stride d => exact decode_writeAt_offsetOf d .c0Stride
  | rdC1Stride => exact decode_readAt_offsetOf .c1Stride
  | wrC1Stride d => exact decode_writeAt_offsetOf d .c1Stride
  | rdYBase => exact decode_readAt_offsetOf .yBase
  | wrYBase d => exact decode_writeAt_offsetOf d .yBase
  | rdC0Base => exact decode_readAt_offsetOf .c0Base
  | wrC0Base d => exact decode_writeAt_offsetOf d .c0Base
  | rdC1Base => exact decode_readAt_offsetOf .c1Base
  | wrC1Base d => exact decode_writeAt_offsetOf d .c1Base
  | rdDstBase => exact decode_readAt_offsetOf .dstBase
  | wrDstBase d => exact decode_writeAt_offsetOf d .dstBase
  | rdFaultAddr => exact decode_readAt_offsetOf .faultAddr
  | wrFaultAddr d => exact decode_writeAt_offsetOf d .faultAddr
  | rdReserved o =>
    simp only [Instr.wf, Bool.and_eq_true, decide_eq_true_eq] at hwf
    obtain ⟨haligned, hreserved⟩ := hwf
    exact decode_readAt_of_unlisted haligned (regAt_of_reserved hreserved)
  | wrReserved o d =>
    simp only [Instr.wf, Bool.and_eq_true, decide_eq_true_eq] at hwf
    obtain ⟨haligned, hreserved⟩ := hwf
    exact decode_writeAt_of_unlisted haligned (regAt_of_reserved hreserved) d
  | illegalAccess dir o size d =>
    simp only [Instr.wf, Bool.and_eq_true] at hwf
    obtain ⟨hillegal, hdata⟩ := hwf
    rw [encode, decode_access_selectorOf, decodeAccess_of_illegal hillegal]
    cases dir with
    | read => rw [carriedData, show d = 0#32 by simpa using hdata]
    | write => rfl

end Sys2Proof

namespace Sys2Proof.Machine

/-! ### What a transaction can do -/

/-- The parts of the state that the invariant reads are those of one command in progress: nothing a
running command rests on has changed, and no write of the engine has been added. -/
structure SameCommand (s t : State) : Prop where
  working : t.w = s.w
  hung : t.hung = s.hung
  busy : t.regs.busy = s.regs.busy
  err : t.regs.err = s.regs.err
  faultAddr : t.regs.faultAddr = s.regs.faultAddr
  done : t.regs.done = true → s.regs.done = true
  unseen : ∀ e ∈ t.unseen, ∃ e' ∈ s.unseen, e'.addr = e.addr

/-- A change of the fields no command rests on. -/
theorem SameCommand.of_eq {s t : State} (hr : t.regs = s.regs) (hw : t.w = s.w)
    (hh : t.hung = s.hung) (hu : t.unseen = s.unseen) : SameCommand s t :=
  ⟨hw, hh, by rw [hr], by rw [hr], by rw [hr], by rw [hr]; exact id,
    fun e he => ⟨e, hu ▸ he, rfl⟩⟩

theorem sameCommand_hostRead_seeDone (q : Reg) (s : State) :
    SameCommand s (hostRead q (seeDone s)) := by
  rcases seeDone_cases s with ⟨-, h⟩ | ⟨-, h⟩ <;> rw [h]
  · exact ⟨rfl, rfl, rfl, rfl, rfl, id, by simp⟩
  · exact .of_eq rfl rfl rfl rfl

theorem sameCommand_observeIrq (s : State) : SameCommand s (observeIrq s) := by
  refine ⟨by simp, by simp, by simp, by simp, by simp, by simp, ?_⟩
  intro e he
  unfold observeIrq at he
  split at he
  · rcases seeDone_cases s with ⟨-, h⟩ | ⟨-, h⟩ <;> rw [h] at he
    · cases he
    · exact ⟨e, he, rfl⟩
  · exact ⟨e, he, rfl⟩

/-- The five shapes of a transaction: a command word, a read, a read of STATUS, which lets the host
see DONE, a write, and an answer of the port alone. -/
theorem exec_shapes (i : Instr) (s : State) :
    (∃ c, exec i s = .next (hostCommand c s)) ∨ (∃ q, exec i s = .next (hostRead q s)) ∨
    exec i s = .next (hostRead .status (seeDone s)) ∨
    (∃ q d, exec i s = .next (hostWrite q d s)) ∨
    ∃ v, exec i s = .next { s with response := v } := by
  cases i
  case convertSp | convertFp | illegalCommand => exact .inl ⟨_, rfl⟩
  case rdStatus => exact .inr (.inr (.inl rfl))
  case rdCmd | rdCtrl | rdWidth | rdHeight | rdYStride | rdC0Stride | rdC1Stride | rdYBase
      | rdC0Base | rdC1Base | rdDstBase | rdFaultAddr => exact .inr (.inl ⟨_, rfl⟩)
  case wrCmd | wrStatus | wrCtrl | wrWidth | wrHeight | wrYStride | wrC0Stride | wrC1Stride
      | wrYBase | wrC0Base | wrC1Base | wrDstBase | wrFaultAddr =>
    exact .inr (.inr (.inr (.inl ⟨_, _, rfl⟩)))
  case rdReserved | wrReserved | illegalAccess =>
    exact .inr (.inr (.inr (.inr ⟨_, rfl⟩)))

/-- A transaction writes a command word, or leaves memory and the command in progress as they are.
-/
theorem exec_command_or_same {i : Instr} {s t : State} (h : exec i s = .next t) :
    (∃ c, t = acknowledge (issueCommand c s)) ∨ (t.mem = s.mem ∧ SameCommand s t) := by
  rcases exec_shapes i s with ⟨c, h'⟩ | ⟨q, h'⟩ | h' | ⟨q, d, h'⟩ | ⟨v, h'⟩ <;> rw [h'] at h <;>
    cases h
  · exact .inl ⟨c, rfl⟩
  · exact .inr ⟨rfl, .of_eq rfl rfl rfl rfl⟩
  · exact .inr ⟨seeDone_mem s, sameCommand_hostRead_seeDone _ s⟩
  · rw [hostWrite]
    rcases writeRegister_cases q d s with ⟨-, hw⟩ | ⟨-, r, hw, hb, he, hf, hd⟩ <;> rw [hw]
    · exact .inl ⟨d, rfl⟩
    · exact .inr ⟨rfl, rfl, rfl, hb, he, hf, hd, fun e he => ⟨e, he, rfl⟩⟩
  · exact .inr ⟨rfl, .of_eq rfl rfl rfl rfl⟩

/-! ### A frame at a position, and where the engine's writes lie -/

/-- The engine runs a frame of checked parameters `r`, stands at row `j` and column `x` of it, and
has reported nothing (10_state.md R36, R37; 42_command_accept.md R182). -/
structure RunsAt (op : Op) (r : Regs) (j x : Nat) (s : State) : Prop where
  checked : frameError op r = none
  row : j < r.height.toNat
  column : x < r.width.toNat
  columnEven : x % 2 = 0
  working : s.w = workingAt op r j x
  busy : s.regs.busy = true
  done : s.regs.done = false
  err : s.regs.err = .ok
  faultAddr : s.regs.faultAddr = 0#32
  memory : s.mem.wf

/-- Every word the host may not have seen yet lies in `[lo, hi)`. -/
def UnseenIn (lo hi : Nat) (s : State) : Prop := ∀ e ∈ s.unseen, lo ≤ e.addr ∧ e.addr + 4 ≤ hi

theorem UnseenIn.mono {lo hi hi' : Nat} {s : State} (h : UnseenIn lo hi s) (hh : hi ≤ hi') :
    UnseenIn lo hi' s := fun e he => ⟨(h e he).1, (h e he).2.trans hh⟩

/-- A write of the engine at or past the last one extends what it has written to its own word's
end. -/
theorem UnseenIn.after_engineWrite {lo hi k a : Nat} {v : Word} {s : State} (h : UnseenIn lo hi s)
    (hlo : lo ≤ a) (hhi : hi ≤ a + 4) : UnseenIn lo (a + 4) (engineWrite k a v s) := by
  intro e he
  rw [engineWrite_unseen, List.mem_cons] at he
  rcases he with rfl | he
  · exact ⟨hlo, le_rfl⟩
  · exact h.mono hhi e he

theorem dstAddr_succ (r : Regs) (j x : Nat) : dstAddr r j (x + 1) = dstAddr r j x + 4 := by
  unfold dstAddr
  omega

/-- The next position's word follows the two of the pair (20_memory.md R71). -/
theorem dstAddr_nextPos (r : Regs) (j x : Nat) :
    dstAddr r (nextPos r j x).1 (nextPos r j x).2 = dstAddr r j x + 8 := by
  unfold nextPos dstAddr
  split
  · rename_i h
    rw [frameW, ← h]
    ring
  · ring

section Position

variable {op : Op} {r : Regs} {j x : Nat} {s t : State}

theorem RunsAt.passed (R : RunsAt op r j x s) : Passed op r := passed_of_frameError R.checked

theorem RunsAt.runningOp_eq (R : RunsAt op r j x s) : runningOp s.w = some op := by
  rw [R.working, runningOp_workingAt]

theorem RunsAt.plan_eq (R : RunsAt op r j x s) : planOf op s.w = planAt op r j x := by
  rw [R.working, R.passed.plan R.row R.column]

/-- Both columns of the position's pair are in the frame. -/
theorem RunsAt.two_columns (R : RunsAt op r j x s) : x + 2 ≤ r.width.toNat :=
  R.passed.two_columns R.column R.columnEven

/-- Both words of the position's pair lie in the destination, which lies in the bus space. -/
theorem RunsAt.dst_bounds (R : RunsAt op r j x s) :
    r.dstBase.toNat ≤ dstAddr r j x ∧ dstAddr r j x + 8 ≤ Config.busSize := by
  have := R.two_columns
  have hB := R.passed.dst_lt (x := x + 1) R.row (by omega)
  rw [dstAddr_succ] at hB
  exact ⟨(R.passed.dst_inside R.row R.column).1, hB⟩

theorem RunsAt.engineTurn_eq (R : RunsAt op r j x s) (hh : s.hung = false) :
    engineTurn s = pairStep op (planAt op r j x) s := by
  rw [engineTurn_running R.busy hh R.runningOp_eq, R.plan_eq]

theorem RunsAt.writtenEnd_eq (R : RunsAt op r j x s) :
    writtenEnd s = dstAddr r j x + if s.hung then 4 else 0 := by
  have hx := r.width.isLt
  have hc := R.column
  rw [writtenEnd, R.working, R.passed.dp_toNat R.row, workingAt_x_toNat (by omega), dstAddr, frameW]
  ring_nf

/-- The position of a frame is that of its working registers, whatever else has changed. -/
theorem RunsAt.of_eq (R : RunsAt op r j x s) (hr : t.regs = s.regs) (hw : t.w = s.w)
    (hm : t.mem.wf) : RunsAt op r j x t := by
  refine ⟨R.checked, R.row, R.column, R.columnEven, hw ▸ R.working, ?_, ?_, ?_, ?_, hm⟩ <;> rw [hr]
  exacts [R.busy, R.done, R.err, R.faultAddr]

theorem RunsAt.after_engineWrite {k a : Nat} {v : Word} (R : RunsAt op r j x s)
    (ha : a + 4 ≤ Config.busSize) : RunsAt op r j x (engineWrite k a v s) :=
  R.of_eq rfl rfl (writeWord_wf R.memory ha)

theorem RunsAt.nextPos_inside (R : RunsAt op r j x s) (h : (nextPos r j x).1 ≠ r.height.toNat) :
    (nextPos r j x).1 < r.height.toNat ∧ (nextPos r j x).2 < r.width.toNat ∧
      (nextPos r j x).2 % 2 = 0 := by
  unfold nextPos at h ⊢
  split_ifs at h ⊢ with hx
  · exact ⟨Nat.lt_of_le_of_ne R.row h, r.width.toNat.pos_of_ne_zero (by omega), rfl⟩
  · exact ⟨R.row, Nat.lt_of_le_of_ne R.two_columns hx, (Nat.add_mod_right x 2).trans R.columnEven⟩

/-- Short of the frame's end ADVANCE moves the working registers only (43_convert_sp.md R194). -/
theorem RunsAt.advance_eq (R : RunsAt op r j x s) (h : (nextPos r j x).1 ≠ r.height.toNat) :
    advance s = { s with w := workingAt op r (nextPos r j x).1 (nextPos r j x).2 } := by
  rw [advance_workingAt R.working R.row R.two_columns, if_neg h]

/-- Short of the frame's end ADVANCE leads to the next position. -/
theorem RunsAt.advance_runsAt (R : RunsAt op r j x s) (h : (nextPos r j x).1 ≠ r.height.toNat) :
    RunsAt op r (nextPos r j x).1 (nextPos r j x).2 (advance s) := by
  obtain ⟨hj, hx, heven⟩ := R.nextPos_inside h
  rw [R.advance_eq h]
  exact ⟨R.checked, hj, hx, heven, rfl, R.busy, R.done, R.err, R.faultAddr, R.memory⟩

end Position

/-! ### The invariant, met -/

/-- With no command running the invariant asks for canonical memory only. -/
theorem Inv.of_idle {s : State} (hm : s.mem.wf) (hb : s.regs.busy = false) : Inv s :=
  ⟨hm, by simp [hb], by simp [hb], by simp [hb], by simp [hb]⟩

/-- The invariant rests on memory and the command in progress alone. -/
theorem Inv.of_sameCommand {s t : State} (h : Inv s) (hk : SameCommand s t) (hm : t.mem.wf) :
    Inv t where
  memory := hm
  status := fun ⟨hb, hd⟩ => h.status ⟨hk.busy ▸ hb, hk.done hd⟩
  running := by
    rw [hk.busy, hk.err, hk.faultAddr]
    exact h.running
  frame := by
    rw [hk.busy, hk.working]
    exact h.frame
  written := by
    intro hb e he
    obtain ⟨e', he', ha⟩ := hk.unseen e he
    rw [hk.working, ← ha, writtenEnd, hk.working, hk.hung]
    exact h.written (hk.busy ▸ hb) e' he'

/-- A frame at a position meets the invariant when its writes are those before the position. -/
theorem RunsAt.inv {op : Op} {r : Regs} {j x : Nat} {s : State} (R : RunsAt op r j x s)
    (hu : UnseenIn r.dstBase.toNat (dstAddr r j x + if s.hung then 4 else 0) s) : Inv s where
  memory := R.memory
  status := by simp [R.done]
  running := fun _ => ⟨R.err, R.faultAddr⟩
  frame := by
    refine fun _ => ⟨op, R.runningOp_eq, ?_⟩
    rw [R.working]
    exact frameInv_workingAt R.checked R.row R.column R.columnEven
  written := by
    intro _
    rw [R.writtenEnd_eq, show s.w.db = r.dstBase by rw [R.working]; rfl]
    exact hu

/-- A running machine of the invariant is a frame at a position, its writes before the position. -/
theorem Inv.runsAt {s : State} (h : Inv s) (hb : s.regs.busy = true) :
    ∃ op r j x, RunsAt op r j x s ∧
      UnseenIn r.dstBase.toNat (dstAddr r j x + if s.hung then 4 else 0) s := by
  obtain ⟨op, ho, hf⟩ := h.frame hb
  obtain ⟨r, -, hc, -, hw, hj, hx, he, -⟩ := running_facts ho hf
  obtain ⟨herr, hfa⟩ := h.running hb
  have hd : s.regs.done = false := Bool.eq_false_iff.mpr fun hd => h.status ⟨hb, hd⟩
  have R : RunsAt op r s.w.j.toNat s.w.x.toNat s :=
    ⟨hc, hj, hx, he, hw, hb, hd, herr, hfa, h.memory⟩
  refine ⟨op, r, _, _, R, ?_⟩
  have hu := h.written hb
  rw [R.writtenEnd_eq, show s.w.db = r.dstBase by rw [hw]; rfl] at hu
  exact hu

/-! ### The engine keeps the invariant -/

section Position

variable {op : Op} {r : Regs} {j x : Nat} {s t : State}

/-- A pair step stopped at an access keeps the invariant: a bus error ends the command; a hang
leaves the frame where it is, at most one word further into the destination. -/
theorem RunsAt.stopPair_keeps_inv {e : EngineStop} (R : RunsAt op r j x s)
    (hu : UnseenIn r.dstBase.toNat (dstAddr r j x + 4) s) (h : stopPair e s = .next t) : Inv t := by
  cases e with
  | busError a => cases h; exact .of_idle R.memory rfl
  | noAnswer =>
    cases h
    exact RunsAt.inv (R.of_eq rfl rfl R.memory) hu
  | fault f => cases h

/-- ADVANCE after both writes of the pair keeps the invariant: the frame is complete, or stands at
the next position, past the two words. -/
theorem RunsAt.advance_keeps_inv (R : RunsAt op r j x s)
    (hu : UnseenIn r.dstBase.toNat (dstAddr r j x + 8) s) : Inv (advance s) := by
  by_cases hend : (nextPos r j x).1 = r.height.toNat
  · rw [advance_workingAt R.working R.row R.two_columns, if_pos hend]
    exact .of_idle R.memory rfl
  · refine (R.advance_runsAt hend).inv ?_
    rw [dstAddr_nextPos, UnseenIn, advance_unseen]
    exact hu.mono (Nat.le_add_right _ _)

/-- A pair step from a position keeps the invariant, wherever it stops. -/
theorem RunsAt.pairStep_keeps_inv (R : RunsAt op r j x s)
    (hu : UnseenIn r.dstBase.toNat (dstAddr r j x) s)
    (h : pairStep op (planAt op r j x) s = .next t) : Inv t := by
  obtain ⟨hlo, hhi⟩ := R.dst_bounds
  have hdstA : (planAt op r j x).dstA = dstAddr r j x := rfl
  have hdstB : (planAt op r j x).dstB = dstAddr r j x + 4 := dstAddr_succ r j x
  have hu' := hu.mono (Nat.le_add_right _ 4)
  rcases pairStep_cases op (planAt op r j x) s with ⟨e, -, h'⟩ | ⟨v, e, -, -, h'⟩ |
    ⟨v, e, -, -, -, h'⟩ | ⟨v, -, -, -, h'⟩ <;> rw [h'] at h
  · exact R.stopPair_keeps_inv hu' h
  · exact R.stopPair_keeps_inv hu' h
  · rw [hdstA] at h
    exact (R.after_engineWrite (by omega)).stopPair_keeps_inv
      (hu.after_engineWrite hlo (by omega)) h
  · cases h
    rw [hdstA, hdstB]
    have R1 := R.after_engineWrite (k := 4) (v := v.a) (a := dstAddr r j x) (by omega)
    have R2 := R1.after_engineWrite (k := 5) (v := v.b) (a := dstAddr r j x + 4) (by omega)
    have hu2 := (hu.after_engineWrite (k := 4) (v := v.a) hlo (by omega)).after_engineWrite
      (k := 5) (v := v.b) (a := dstAddr r j x + 4) (by omega) (by omega)
    exact RunsAt.advance_keeps_inv (R2.of_eq rfl rfl R2.memory) hu2

end Position

/-- The engine's turn keeps the invariant (42_command_accept.md R184). -/
theorem engineTurn_keeps_inv {s t : State} (h : Inv s) (ht : engineTurn s = .next t) : Inv t := by
  by_cases hrun : s.regs.busy = true ∧ s.hung = false
  · obtain ⟨hb, hh⟩ := hrun
    obtain ⟨op, r, j, x, R, hu⟩ := h.runsAt hb
    rw [R.engineTurn_eq hh] at ht
    simp only [hh, Bool.false_eq_true, if_false, Nat.add_zero] at hu
    exact R.pairStep_keeps_inv hu ht
  · have idle : engineTurn s = .next s := by
      rcases engineTurn_cases s with ⟨hb, hh, -⟩ | ⟨hb, hh, -⟩ | ⟨-, h'⟩
      · exact absurd ⟨hb, hh⟩ hrun
      · exact absurd ⟨hb, hh⟩ hrun
      · exact h'
    rw [idle] at ht
    cases ht
    exact h

/-! ### The host keeps the invariant -/

/-- The latched registers of a command word are those of its frame's first position. -/
theorem latch_eq_workingAt {c : Word} {op : Op} (h : opOf c = some op) (r : Regs) :
    latch c r = workingAt op r 0 0 := by
  rcases opOf_eq_some h with ⟨rfl, rfl⟩ | ⟨rfl, rfl⟩ <;> simp [latch, workingAt, opBits]

/-- A command that passes its checks stands at its frame's first position (42_command_accept.md
R182). -/
theorem runsAt_of_started {c : Word} {op : Op} {s t : State} (hc : opOf c = some op)
    (hf : frameError op s.regs = none) (hw : t.w = latch c s.regs)
    (hr : t.regs = s.regs.started) (hm : t.mem.wf) : RunsAt op s.regs 0 0 t := by
  have P := passed_of_frameError hf
  refine ⟨hf, P.heightPos, P.widthPos, rfl, ?_, ?_, ?_, ?_, ?_, hm⟩
  · rw [hw, latch_eq_workingAt hc]
  all_goals rw [hr]; rfl

theorem issueCommand_keeps_inv {c : Word} {s : State} (h : Inv s) : Inv (issueCommand c s) := by
  rcases issueCommand_cases c s with ⟨-, h'⟩ | ⟨-, e, -, h'⟩ | ⟨-, hc, h'⟩ <;> rw [h']
  · exact h
  · exact .of_idle h.memory rfl
  · obtain ⟨op, ho, hf⟩ := commandError_eq_none hc
    refine RunsAt.inv (runsAt_of_started ho hf rfl rfl h.memory) ?_
    simp [UnseenIn]

theorem exec_keeps_inv {i : Instr} {s t : State} (h : Inv s) (ht : exec i s = .next t) : Inv t := by
  rcases exec_command_or_same ht with ⟨c, rfl⟩ | ⟨hm, hk⟩
  · have hc : Inv (issueCommand c s) := issueCommand_keeps_inv h
    exact hc.of_sameCommand (.of_eq rfl rfl rfl rfl) hc.memory
  · exact h.of_sameCommand hk (hm ▸ h.memory)

theorem assertReset_inv {s : State} (h : s.mem.wf) : Inv (assertReset s) := .of_idle h rfl

/-- A reset inside a pair step is a reset after its first write, or a reset (log 16). -/
theorem resetMidPair_cases (s : State) :
    (∃ op, s.regs.busy = true ∧ runningOp s.w = some op ∧
      resetMidPair s = assertReset (afterFirstWrite op (planOf op s.w) s)) ∨
    resetMidPair s = assertReset s := by
  unfold resetMidPair
  split
  · rename_i hb
    rw [Bool.and_eq_true] at hb
    split
    · rename_i ho
      exact .inl ⟨.sp, hb.1, by rw [runningOp, if_pos ho], rfl⟩
    · split
      · rename_i hsp hfp
        exact .inl ⟨.fp, hb.1, by rw [runningOp, if_neg hsp, if_pos hfp], rfl⟩
      · exact .inr rfl
  · exact .inr rfl

theorem resetMidPair_inv {s : State} (h : Inv s) : Inv (resetMidPair s) := by
  rcases resetMidPair_cases s with ⟨op', hb, ho, h'⟩ | h' <;> rw [h']
  · obtain ⟨op, r, j, x, R, -⟩ := h.runsAt hb
    obtain rfl : op = op' := Option.some.inj (R.runningOp_eq.symm.trans ho)
    obtain ⟨-, hhi⟩ := R.dst_bounds
    rw [R.plan_eq]
    rcases afterFirstWrite_cases op (planAt op r j x) s with h'' | ⟨v, h''⟩ <;> rw [h'']
    · exact assertReset_inv h.memory
    · exact assertReset_inv (writeWord_wf h.memory
        (show dstAddr r j x + 4 ≤ Config.busSize by omega))
  · exact assertReset_inv h.memory

theorem busStore_keeps_inv {a : Nat} {mask : BitVec 4} {v : Word} {s : State} (h : Inv s)
    (ha : a + 4 ≤ Config.busSize) : Inv (busStore a mask v s) := by
  obtain ⟨r, m, hm, h'⟩ := busStore_cases a mask v s
  rw [h']
  refine h.of_sameCommand ⟨rfl, rfl, rfl, rfl, rfl, id, ?_⟩ ?_
  · intro e he
    obtain ⟨e', he', haddr, -⟩ := mem_storeSeen he
    exact ⟨e', he', haddr⟩
  · rcases hm with rfl | ⟨-, e, -, -, rfl⟩ <;> exact writeWord_wf h.memory ha

/-- The host's cache and the count of free values are no part of the invariant. -/
theorem Inv.with_cache {s : State} (h : Inv s) (l : List CachedWord) (n : Nat) :
    Inv { s with cache := l, freeCount := n } :=
  h.of_sameCommand (.of_eq rfl rfl rfl rfl) h.memory

theorem Inv.with_response {s : State} (h : Inv s) (v : Response) : Inv { s with response := v } :=
  h.of_sameCommand (.of_eq rfl rfl rfl rfl) h.memory

theorem hostStore_keeps_inv {a : Nat} {mask : BitVec 4} {v : Word} {s : State} (h : Inv s)
    (ha : a + 4 ≤ Config.busSize) : Inv (hostStore a mask v s) := by
  rcases hostStore_cases a mask v s with h' | ⟨l, h'⟩ <;> rw [h']
  · exact busStore_keeps_inv h ha
  · exact h.with_cache l _

theorem hostLoad_keeps_inv {a : Nat} {s : State} (h : Inv s) : Inv (hostLoad a s) := by
  obtain ⟨l, h'⟩ := hostLoad_cases a s
  rw [h']
  exact h.with_cache l _

theorem cacheClean_keeps_inv {a : Nat} {s : State} (h : Inv s) (ha : a + 4 ≤ Config.busSize) :
    Inv (cacheClean a s) := by
  rcases cacheClean_cases a s with h' | ⟨mask, v, l, h'⟩ <;> rw [h']
  · exact h
  · exact busStore_keeps_inv (h.with_cache l _) ha

/-- An aligned word that the host or a bus master names lies in the bus space. -/
theorem aligned_word_fits (i : BitVec 30) : 4 * i.toNat + 4 ≤ Config.busSize := by
  have := i.isLt
  unfold Config.busSize
  omega

theorem wordBase_fits (a : Word) : wordBase a.toNat + 4 ≤ Config.busSize := by
  have := a.isLt
  unfold wordBase Config.busSize
  omega

/-- Settles O52: the engine moves a frame from one position to the next, an accepted command starts
one, and every other action leaves the command in progress and writes memory inside the bus space
only. -/
theorem everyStepKeepsTheInvariant : Obligations.EveryStepKeepsTheInvariant := by
  intro s t h ht
  have taken : ∀ rest, Inv { s with inputs := rest } := fun rest =>
    h.of_sameCommand (.of_eq rfl rfl rfl rfl) h.memory
  cases hin : s.inputs with
  | nil =>
    rw [step_of_inputs_nil hin] at ht
    exact engineTurn_keeps_inv h ht
  | cons i rest =>
    rw [step, hin] at ht
    cases i with
    | transaction m => exact exec_keeps_inv (taken rest) ht
    | engine => exact engineTurn_keeps_inv (taken rest) ht
    | reset => cases ht; exact assertReset_inv h.memory
    | resetMidPair => cases ht; exact resetMidPair_inv (taken rest)
    | storeByte a b => cases ht; exact hostStore_keeps_inv (taken rest) (wordBase_fits a)
    | storeWord i v => cases ht; exact hostStore_keeps_inv (taken rest) (aligned_word_fits i)
    | loadByte a => cases ht; exact (hostLoad_keeps_inv (taken rest)).with_response _
    | loadWord i => cases ht; exact (hostLoad_keeps_inv (taken rest)).with_response _
    | cacheClean i => cases ht; exact cacheClean_keeps_inv (taken rest) (aligned_word_fits i)
    | cacheInvalidate i => cases ht; exact (taken rest).with_cache _ _
    | busStore i mask v => cases ht; exact busStore_keeps_inv (taken rest) (aligned_word_fits i)
    | observeIrq =>
      cases ht
      refine (taken rest).of_sameCommand (sameCommand_observeIrq _) ?_
      rw [observeIrq_mem]
      exact h.memory

/-- Settles O51: State.reset is idle and lists no byte of memory. -/
theorem invariantHoldsAtReset : Obligations.InvariantHoldsAtReset := .of_idle Memory.wf_nil rfl

/-- Settles O32: every field of Regs.reset is 0, for each register in turn. -/
theorem resetRegistersReadZero : Obligations.ResetRegistersReadZero := by
  refine ⟨fun q => ?_, rfl⟩
  cases q <;> rfl

end Sys2Proof.Machine

namespace Sys2Proof.Machine

/-! ### The checks in the words of the spec (42_command_accept.md R173 to R180) -/

/-- Check `e` of checks 2 to 8 fails, as the model tests it. -/
def failing (op : Op) (r : Regs) : ErrCode → Bool
  | .zeroDim => zeroDimension r
  | .oddWidth => widthOdd r
  | .stride => strideShort op r
  | .null => baseNull op r
  | .range => outOfRange op r
  | .align => dstMisaligned r
  | .overlap => overlaps op r
  | .ok | .badCmd | .bus => false

/-- A reported check fails (42_command_accept.md R181). -/
theorem failing_of_frameError {op : Op} {r : Regs} {e : ErrCode} (h : frameError op r = some e) :
    failing op r e = true := by
  unfold frameError at h
  split_ifs at h <;> cases h <;> assumption

theorem frameError_none_iff_failing {op : Op} {r : Regs} :
    frameError op r = none ↔ ∀ e, failing op r e = false := by
  rw [frameError_eq_none]
  constructor
  · rintro ⟨h2, h3, h4, h5, h6, h7, h8⟩ e
    cases e <;> simp only [failing, h2, h3, h4, h5, h6, h7, h8]
  · intro h
    exact ⟨h .zeroDim, h .oddWidth, h .stride, h .null, h .range, h .align, h .overlap⟩

/-- The checks of CONVERT.SP's word. -/
theorem checkFails_sp_iff_failing (r : Regs) (e : ErrCode) :
    checkFails 1#32 r e ↔ failing .sp r e = true := by
  cases e with
  | ok => simp [checkFails, failing]
  | bus => simp [checkFails, failing]
  | zeroDim => exact (zeroDimension_iff r).symm
  | oddWidth => exact (widthOdd_iff r).symm
  | align => exact (dstMisaligned_iff r).symm
  | badCmd => simp [checkFails, failing]
  | stride => simp [checkFails, failing, strideShort_sp_iff]
  | null => simp [checkFails, failing, baseNull_sp_iff]
  | range =>
    simp [checkFails, failing, outOfRange_iff, sourceExtents, dstExtent, lumaExtent, chromaExtent,
      planeExtent, or_left_comm]
  | overlap =>
    simp [checkFails, failing, overlaps_iff, sourceExtents, dstExtent, lumaExtent, chromaExtent,
      planeExtent]

/-- The checks of CONVERT.FP's word. -/
theorem checkFails_fp_iff_failing (r : Regs) (e : ErrCode) :
    checkFails 2#32 r e ↔ failing .fp r e = true := by
  cases e with
  | ok => simp [checkFails, failing]
  | bus => simp [checkFails, failing]
  | zeroDim => exact (zeroDimension_iff r).symm
  | oddWidth => exact (widthOdd_iff r).symm
  | align => exact (dstMisaligned_iff r).symm
  | badCmd => simp [checkFails, failing]
  | stride => simp [checkFails, failing, strideShort_fp_iff]
  | null =>
    simp only [checkFails, failing, baseNull_fp_iff, BitVec.reduceExtractLsb', BitVec.reduceEq,
      not_false_eq_true, true_and]
    exact or_congr_right (or_congr_right or_comm)
  | range =>
    simp [checkFails, failing, outOfRange_iff, sourceExtents, dstExtent, lumaExtent, uExtent,
      vExtent, planeExtent, or_left_comm]
  | overlap =>
    simp [checkFails, failing, overlaps_iff, sourceExtents, dstExtent, lumaExtent, uExtent, vExtent,
      planeExtent]

/-- A word with no reserved bit set is its opcode (30_encoding.md R91). -/
theorem toNat_of_opcode {c : Word} {n : Nat} (hhi : c.extractLsb' 4 28 = 0#28)
    (hlo : c.extractLsb' 0 4 = BitVec.ofNat 4 n) (hn : n < 16) : c.toNat = n := by
  have hhi' := congrArg BitVec.toNat hhi
  have hlo' := congrArg BitVec.toNat hlo
  rw [BitVec.extractLsb'_toNat, Nat.shiftRight_eq_div_pow] at hhi' hlo'
  simp only [BitVec.toNat_ofNat] at hhi' hlo'
  omega

/-- Check 1 fails for a word that is neither 1 nor 2 (30_encoding.md R91). -/
theorem checkFails_badCmd_of_opOf {c : Word} (h : opOf c = none) (r : Regs) :
    checkFails c r .badCmd := by
  by_contra hno
  simp only [checkFails, not_or, not_and_or, not_not] at hno
  obtain ⟨hhi, hsp | hfp⟩ := hno
  · obtain rfl : c = 1#32 := BitVec.eq_of_toNat_eq (toNat_of_opcode hhi hsp (by decide))
    cases h
  · obtain rfl : c = 2#32 := BitVec.eq_of_toNat_eq (toNat_of_opcode hhi hfp (by decide))
    cases h

/-- The checks of a command word, in the words of the spec and as the model tests them. -/
theorem checkFails_iff_failing {c : Word} {op : Op} (hc : opOf c = some op) (r : Regs)
    (e : ErrCode) : checkFails c r e ↔ failing op r e = true := by
  rcases opOf_eq_some hc with ⟨rfl, rfl⟩ | ⟨rfl, rfl⟩
  · exact checkFails_sp_iff_failing r e
  · exact checkFails_fp_iff_failing r e

/-- A reported check fails (42_command_accept.md R181). -/
theorem checkFails_of_commandError {c : Word} {r : Regs} {e : ErrCode}
    (h : commandError c r = some e) : checkFails c r e := by
  unfold commandError at h
  split at h
  · cases h
    exact checkFails_badCmd_of_opOf ‹_› r
  · exact (checkFails_iff_failing ‹_› r e).mpr (failing_of_frameError h)

/-- No check is reported exactly when none fails (42_command_accept.md R181, R182). -/
theorem commandError_eq_none_iff {c : Word} {r : Regs} :
    commandError c r = none ↔ ∀ e, ¬ checkFails c r e := by
  constructor
  · intro h e
    obtain ⟨op, hc, hf⟩ := commandError_eq_none h
    rw [checkFails_iff_failing hc, frameError_none_iff_failing.mp hf e]
    exact Bool.false_ne_true
  · intro h
    rw [Option.eq_none_iff_forall_not_mem]
    exact fun e he => h e (checkFails_of_commandError he)

/-- A command with no failing check is a frame that passes them (42_command_accept.md R182). -/
theorem frameError_of_no_check_fails {op : Op} {r : Regs}
    (h : ∀ e, ¬ checkFails (commandWord op) r e) : frameError op r = none := by
  have := commandError_eq_none_iff.mpr h
  cases op <;> exact this

end Sys2Proof.Machine

namespace Sys2Proof.Machine

/-! ### What one step does to STATUS and FAULT_ADDR -/

/-- Only a command word decodes to a command (30_encoding.md R91, R95). -/
theorem decodeAccess_ne_command (dir : Direction) (o : Offset) (size : Nat) (d : Word) :
    decodeAccess dir o size d ≠ .convertSp ∧ decodeAccess dir o size d ≠ .convertFp ∧
      ∀ c, decodeAccess dir o size d ≠ .illegalCommand c := by
  unfold decodeAccess
  split
  · simp
  · cases dir <;> simp only <;> cases regAt o with
    | none => simp
    | some q => cases q <;> simp [readOf, writeOf]

/-- A message that decodes to a command is its word. -/
theorem message_of_command {m : Message} {c : Word}
    (h : decode m = .convertSp ∧ c = 1#32 ∨ decode m = .convertFp ∧ c = 2#32 ∨
      decode m = .illegalCommand c) : m = .command c := by
  cases m with
  | access sel size d =>
    obtain ⟨hsp, hfp, hill⟩ := decodeAccess_ne_command (directionOf sel) (offsetBits sel) size d
    rcases h with ⟨h, -⟩ | ⟨h, -⟩ | h
    · exact absurd h hsp
    · exact absurd h hfp
    · exact absurd h (hill c)
  | command c' =>
    simp only [decode, decodeCommand] at h
    split at h
    case h_1 ho =>
      obtain ⟨-, rfl⟩ | ⟨hop, -⟩ := opOf_eq_some ho
      · rw [show c = 1#32 by simpa using h]
      · cases hop
    case h_2 ho =>
      obtain ⟨hop, -⟩ | ⟨-, rfl⟩ := opOf_eq_some ho
      · cases hop
      · rw [show c = 2#32 by simpa using h]
    case h_3 => rw [show c' = c by simpa using h]

theorem decode_commandWord (op : Op) : decode (.command (commandWord op)) = convertOf op := by
  cases op <;> rfl

/-- An operation's word, for which no check fails. -/
theorem no_check_fails_of_commandError {c : Word} {r : Regs} (h : commandError c r = none) :
    ∃ op, c = commandWord op ∧ ∀ e, ¬ checkFails (commandWord op) r e := by
  obtain ⟨op, ho, -⟩ := commandError_eq_none h
  have hc : c = commandWord op := by
    rcases opOf_eq_some ho with ⟨rfl, hc⟩ | ⟨rfl, hc⟩ <;> exact hc
  exact ⟨op, hc, hc ▸ commandError_eq_none_iff.mp h⟩

/-- What one step does to BUSY, DONE, ERR and FAULT_ADDR, with its cause. -/
inductive StatusChange (s t : State) : Prop
  /-- They keep their values. -/
  | unchanged (busy : t.regs.busy = s.regs.busy) (done : t.regs.done = s.regs.done)
      (err : t.regs.err = s.regs.err) (faultAddr : t.regs.faultAddr = s.regs.faultAddr)
  /-- The engine completes the frame (43_convert_sp.md R195). -/
  | completed (turn : s.inputs = [] ∨ ∃ rest, s.inputs = .engine :: rest)
      (running : s.regs.busy = true) (regs : t.regs = s.regs.ended .ok)
  /-- The engine meets a bus error (60_exceptions.md R256). -/
  | busError (turn : s.inputs = [] ∨ ∃ rest, s.inputs = .engine :: rest)
      (running : s.regs.busy = true) (a : Word)
      (regs : t.regs = Regs.ended { s.regs with faultAddr := a } .bus)
  /-- The reset input (10_state.md R41). -/
  | reset (input : ∃ rest, s.inputs = .reset :: rest ∨ s.inputs = .resetMidPair :: rest)
      (regs : t.regs = Regs.reset)
  /-- A command word fails check `e` (42_command_accept.md R181). -/
  | rejected (m : Message) (rest : List Input) (c : Word) (e : ErrCode)
      (input : s.inputs = .transaction m :: rest) (word : m = .command c ∨ decode m = .wrCmd c)
      (idle : s.regs.busy = false) (fails : checkFails c s.regs e) (regs : t.regs = s.regs.ended e)
  /-- A command word passes every check (42_command_accept.md R182). -/
  | accepted (m : Message) (rest : List Input) (op : Op) (input : s.inputs = .transaction m :: rest)
      (word : decode m = convertOf op ∨ decode m = .wrCmd (commandWord op))
      (idle : s.regs.busy = false) (passes : ∀ e, ¬ checkFails (commandWord op) s.regs e)
      (regs : t.regs = s.regs.started)
  /-- A write of STATUS (45_register_access.md R235). -/
  | statusWritten (m : Message) (rest : List Input) (d : Word)
      (input : s.inputs = .transaction m :: rest) (write : decode m = .wrStatus d)
      (regs : t.regs = s.regs.writeStatus d)

/-- A command word's write is dropped, rejected or accepted. -/
theorem statusChange_of_command {s t : State} {m : Message} {rest : List Input} {c : Word}
    (hin : s.inputs = .transaction m :: rest) (hm : m = .command c ∨ decode m = .wrCmd c)
    (ht : t.regs = (issueCommand c { s with inputs := rest }).regs) : StatusChange s t := by
  rcases issueCommand_regs c { s with inputs := rest } with
    ⟨h, -⟩ | ⟨hb, e, he, h⟩ | ⟨hb, hc, h⟩ <;> rw [h] at ht
  · exact .unchanged (by rw [ht]) (by rw [ht]) (by rw [ht]) (by rw [ht])
  · exact .rejected m rest c e hin hm hb (checkFails_of_commandError he) ht
  · obtain ⟨op, rfl, hpass⟩ := no_check_fails_of_commandError hc
    refine .accepted m rest op hin (hm.imp_left ?_) hb hpass ht
    rintro rfl
    exact decode_commandWord op

/-- Every step is one of these. -/
theorem step_statusChange {s t : State} (h : step s = .next t) : StatusChange s t := by
  rcases step_regs h with ht | ⟨hturn, hb, ht | ⟨a, ht⟩⟩ | ⟨hin, ht⟩ | ⟨m, rest, hin, hexec⟩
  · exact .unchanged (by rw [ht]) (by rw [ht]) (by rw [ht]) (by rw [ht])
  · exact .completed hturn hb ht
  · exact .busError hturn hb a ht
  · exact .reset hin ht
  · rcases exec_regs hexec with ⟨c, hi, ht⟩ | ⟨d, hi, ht⟩ | ⟨d, -, ht⟩ | ⟨hb, hd, he, -, hf⟩
    · refine statusChange_of_command hin ?_ ht
      rcases hi with hi | hi | hi | hi
      · exact .inl (message_of_command (.inl hi))
      · exact .inl (message_of_command (.inr (.inl hi)))
      · exact .inl (message_of_command (.inr (.inr hi)))
      · exact .inr hi
    · exact .statusWritten m rest d hin hi ht
    · exact .unchanged (by rw [ht]; rfl) (by rw [ht]; rfl) (by rw [ht]; rfl) (by rw [ht]; rfl)
    · exact .unchanged hb hd he hf

/-! ### BUSY, DONE, ERR and FAULT_ADDR over a step (10_state.md R24 to R27, R33) -/

/-- Settles O27: BUSY falls by the two ends of a frame and reset, and rises by an acceptance; every
other cause keeps it or meets it at 0 and leaves it so. -/
theorem busyChangesOnlyAtStartAndEnd : Obligations.BusyChangesOnlyAtStartAndEnd := by
  intro s t h
  cases step_statusChange h with
  | unchanged hb =>
    rw [hb]
    exact ⟨fun h1 h0 => absurd (h1.symm.trans h0) nofun,
      fun h0 h1 => absurd (h0.symm.trans h1) nofun⟩
  | completed hturn hrun ht =>
    rw [ht]
    exact ⟨fun _ _ => .inr ⟨hturn, rfl, .inl rfl⟩, fun _ => nofun⟩
  | busError hturn hrun a ht =>
    rw [ht]
    exact ⟨fun _ _ => .inr ⟨hturn, rfl, .inr rfl⟩, fun _ => nofun⟩
  | reset hin ht =>
    rw [ht]
    exact ⟨fun _ _ => .inl hin, fun _ => nofun⟩
  | rejected m rest c e _ _ hidle _ ht =>
    rw [ht, hidle]
    exact ⟨nofun, fun _ => nofun⟩
  | accepted m rest op hin hword hidle hpass ht =>
    rw [ht, hidle]
    exact ⟨nofun, fun _ _ => ⟨m, rest, hin, op, hword, hpass⟩⟩
  | statusWritten m rest d _ _ ht =>
    rw [ht, Regs.writeStatus_busy]
    exact ⟨fun h1 h0 => absurd (h1.symm.trans h0) nofun,
      fun h0 h1 => absurd (h0.symm.trans h1) nofun⟩

/-- Settles O28: DONE rises by the ends of a command, and falls by reset, an acceptance and a write
of 1 to its bit. -/
theorem doneChangesOnlyAtEndStartAndClearing :
    Obligations.DoneChangesOnlyAtEndStartAndClearing := by
  intro s t h
  cases step_statusChange h with
  | unchanged _ hd =>
    rw [hd]
    exact ⟨fun h0 h1 => absurd (h0.symm.trans h1) nofun,
      fun h1 h0 => absurd (h1.symm.trans h0) nofun⟩
  | completed hturn hrun ht =>
    rw [ht]
    exact ⟨fun _ _ => ⟨rfl, .inl ⟨hrun, hturn, .inl rfl⟩⟩, fun _ => nofun⟩
  | busError hturn hrun a ht =>
    rw [ht]
    exact ⟨fun _ _ => ⟨rfl, .inl ⟨hrun, hturn, .inr rfl⟩⟩, fun _ => nofun⟩
  | reset hin ht =>
    rw [ht]
    exact ⟨fun _ => nofun, fun _ _ => .inl hin⟩
  | rejected m rest c e hin hword hidle hfails ht =>
    rw [ht]
    exact ⟨fun _ _ => ⟨rfl, .inr ⟨hidle, m, rest, c, hin, hword, hfails⟩⟩, fun _ => nofun⟩
  | accepted m rest op hin _ hidle _ ht =>
    rw [ht]
    exact ⟨fun _ => nofun, fun _ _ => .inr ⟨m, rest, hin, .inr ⟨hidle, rfl⟩⟩⟩
  | statusWritten m rest d hin hwrite ht =>
    rw [ht, Regs.writeStatus_done]
    refine ⟨fun h0 h1 => by simp [h0] at h1, fun h1 h0 => .inr ⟨m, rest, hin, .inl ⟨d, hwrite, ?_⟩⟩⟩
    simpa [h1] using h0

/-- Settles O29: the causes that set BUSY or DONE clear the other; the rest set neither. -/
theorem busyAndDoneAreNeverBothSet : Obligations.BusyAndDoneAreNeverBothSet := by
  intro s t hs h
  cases step_statusChange h with
  | unchanged hb hd => rwa [hb, hd]
  | completed _ _ ht => simp [ht]
  | busError _ _ a ht => simp [ht]
  | reset _ ht => simp [ht, Regs.reset]
  | rejected m rest c e _ _ _ _ ht => simp [ht]
  | accepted m rest op _ _ _ _ ht => simp [ht]
  | statusWritten m rest d _ _ ht =>
    rw [ht, Regs.writeStatus_busy, Regs.writeStatus_done, Bool.and_eq_true]
    exact fun ⟨hb, hd, _⟩ => hs ⟨hb, hd⟩

/-- Settles O30: the ends of a command write ERR, and an acceptance and reset set it to OK. -/
theorem errChangesOnlyAtStartAndEnd : Obligations.ErrChangesOnlyAtStartAndEnd := by
  intro s t h hne
  cases step_statusChange h with
  | unchanged _ _ he => exact absurd he hne
  | completed hturn hrun ht =>
    rw [ht]
    exact .inl ⟨rfl, rfl, .inl ⟨hrun, hturn, .inl rfl⟩⟩
  | busError hturn hrun a ht =>
    rw [ht]
    exact .inl ⟨rfl, rfl, .inl ⟨hrun, hturn, .inr rfl⟩⟩
  | reset hin ht =>
    rw [ht]
    exact .inr (.inr ⟨rfl, hin⟩)
  | rejected m rest c e hin hword hidle hfails ht =>
    rw [ht]
    exact .inl ⟨rfl, rfl, .inr ⟨hidle, m, rest, c, hin, hword, hfails⟩⟩
  | accepted m rest op _ _ hidle _ ht =>
    rw [ht]
    exact .inr (.inl ⟨hidle, rfl, rfl⟩)
  | statusWritten m rest d _ _ ht => exact absurd (by rw [ht]; rfl) hne

/-- Settles O31: a bus error writes FAULT_ADDR, and an acceptance and reset clear it. -/
theorem faultAddrChangesOnlyByBusErrorOrClearing :
    Obligations.FaultAddrChangesOnlyByBusErrorOrClearing := by
  intro s t h hne
  cases step_statusChange h with
  | unchanged _ _ _ hf => exact absurd hf hne
  | completed _ _ ht => exact absurd (by rw [ht]; rfl) hne
  | busError _ hrun a ht =>
    rw [ht]
    exact .inl ⟨hrun, rfl, rfl, rfl⟩
  | reset hin ht =>
    rw [ht]
    exact .inr (.inr ⟨rfl, hin⟩)
  | rejected m rest c e _ _ _ _ ht => exact absurd (by rw [ht]; rfl) hne
  | accepted m rest op _ _ hidle _ ht =>
    rw [ht]
    exact .inr (.inl ⟨rfl, hidle, rfl⟩)
  | statusWritten m rest d _ _ ht => exact absurd (by rw [ht]; rfl) hne

/-! ### What a command starts with (10_state.md R42) -/

/-- An operation's instruction writes its word. -/
theorem exec_convertOf (op : Op) (s : State) :
    exec (convertOf op) s = .next (hostCommand (commandWord op) s) := by
  cases op <;> rfl

theorem opOf_commandWord (op : Op) : opOf (commandWord op) = some op := by
  cases op <;> rfl

/-- A command that passes its checks starts its frame (42_command_accept.md R182). -/
theorem exec_convertOf_started {op : Op} {s : State} (hb : s.regs.busy = false)
    (hf : frameError op s.regs = none) :
    exec (convertOf op) s =
      .next (acknowledge (startFrame (commandWord op) (setAside s))) := by
  have hc : commandError (commandWord op) s.regs = none := by
    rw [commandError, opOf_commandWord]
    exact hf
  rw [exec_convertOf, hostCommand, issueCommand, hb, hc]
  rfl

/-- Settles O13: the checks and the latched registers read none of DONE, ERR, IRQ_EN and
FAULT_ADDR, and acceptance overwrites the rest. -/
theorem startedFrameForgetsThePast : Obligations.StartedFrameForgetsThePast := by
  intro op s s' t t' hb hb' hpass hregs ht ht'
  have hf := frameError_of_no_check_fails hpass
  have hf' : frameError op s'.regs = none := by
    rw [← hf, hregs]
    exact frameError_congr rfl rfl rfl rfl (fun _ => rfl) rfl rfl (fun _ => rfl) rfl
  rw [exec_convertOf_started hb hf] at ht
  rw [exec_convertOf_started hb' hf'] at ht'
  cases ht
  cases ht'
  refine ⟨?_, rfl, rfl, rfl, ?_⟩
  · change latch _ s'.regs = latch _ s.regs
    rw [hregs]
    rfl
  · change s'.regs.started = { s.regs.started with irqEn := s'.regs.irqEn }
    rw [hregs]
    rfl

end Sys2Proof.Machine

namespace Sys2Proof.Machine

/-! ### A pair step reads no register but BUSY (10_state.md R35) -/

/-- The state with other values in the host-visible registers. -/
def State.withRegs (r : Regs) (s : State) : State := { s with regs := r }

/-- Two states that the engine and the buses do not tell apart. -/
def SameEngine (t t' : State) : Prop :=
  t'.mem = t.mem ∧ t'.w = t.w ∧ t'.regs.busy = t.regs.busy

section WithRegs

variable {r : Regs} {s t : State}

theorem pairWords_withRegs (op : Op) (p : PairPlan) (r : Regs) (s : State) :
    pairWords op p (s.withRegs r) = pairWords op p s := rfl

/-- A word write lands or stops alike, whatever the registers hold. -/
theorem memWrite_withRegs (k a : Nat) (v : Word) (r : Regs) (s : State) :
    memWrite k a v (s.withRegs r) = (memWrite k a v s).map (State.withRegs r) := by
  unfold memWrite
  split_ifs
  · rfl
  · rfl
  · rw [show (s.withRegs r).platform = s.platform from rfl]
    rcases busAnswer s.platform a 4 .write with _ | (_ | _) <;> rfl

theorem stopPair_withRegs {e : EngineStop} (hr : r.busy = s.regs.busy)
    (h : stopPair e s = .next t) :
    ∃ t', stopPair e (s.withRegs r) = .next t' ∧ SameEngine t t' := by
  cases e with
  | busError a => cases h; exact ⟨_, rfl, rfl, rfl, rfl⟩
  | noAnswer => cases h; exact ⟨_, rfl, rfl, rfl, hr⟩
  | fault f => cases h

theorem advance_withRegs (hr : r.busy = s.regs.busy) :
    SameEngine (advance s) (advance (s.withRegs r)) := by
  rcases advance_cases s with ⟨hx, hj, h⟩ | ⟨hx, hj, h⟩ | ⟨hx, h⟩ <;> rw [h]
  · have h' : advance (s.withRegs r) = complete { s.withRegs r with w := nextRow s.w } :=
      (if_pos hx).trans (if_pos hj)
    exact h' ▸ ⟨rfl, rfl, rfl⟩
  · have h' : advance (s.withRegs r) = { s.withRegs r with w := nextRow s.w } :=
      (if_pos hx).trans (if_neg hj)
    exact h' ▸ ⟨rfl, rfl, hr⟩
  · have h' : advance (s.withRegs r) = { s.withRegs r with w := { s.w with x := s.w.x + 2 } } :=
      if_neg hx
    exact h' ▸ ⟨rfl, rfl, hr⟩

theorem pairStep_withRegs {op : Op} {p : PairPlan} (hr : r.busy = s.regs.busy)
    (h : pairStep op p s = .next t) :
    ∃ t', pairStep op p (s.withRegs r) = .next t' ∧ SameEngine t t' := by
  unfold pairStep
  simp only [pairWords_withRegs, memWrite_withRegs]
  rcases pairStep_cases op p s with ⟨e, hw, h'⟩ | ⟨v, e, hw, h1, h'⟩ |
    ⟨v, e, hw, h1, h2, h'⟩ | ⟨v, hw, h1, h2, h'⟩ <;> rw [h'] at h
  · rw [hw]
    exact stopPair_withRegs hr h
  · simp only [hw, h1, Except.map]
    exact stopPair_withRegs hr h
  · simp only [hw, h1, Except.map, memWrite_withRegs, h2]
    exact stopPair_withRegs hr h
  · cases h
    simp only [hw, h1, Except.map, memWrite_withRegs, h2]
    exact ⟨_, rfl, advance_withRegs hr⟩

end WithRegs

/-- Settles O25: with the same BUSY the same pair step is enabled, and it reads and writes alike. -/
theorem runningCommandReadsOnlyItsCopies : Obligations.RunningCommandReadsOnlyItsCopies := by
  intro s t r hr h
  unfold engineTurn at h ⊢
  simp only [hr] at h ⊢
  split_ifs at h ⊢
  · exact pairStep_withRegs hr h
  · exact pairStep_withRegs hr h
  · cases h
    exact ⟨_, rfl, rfl, rfl, hr⟩
  · cases h
    exact ⟨_, rfl, rfl, rfl, hr⟩

end Sys2Proof.Machine

namespace Sys2Proof.Machine

/-! ### A frame's sources lie apart from its destination (42_command_accept.md R180) -/

/-- A byte of a row of a plane lies in the plane's extent (20_memory.md R73). -/
theorem mem_planeExtent {base stride rows rowLen j x : Nat} (hj : j < rows) (hx : x < rowLen) :
    (planeExtent base stride rows rowLen).lo ≤ base + j * stride + x ∧
      base + j * stride + x < (planeExtent base stride rows rowLen).hi := by
  have := row_le (s := stride) (show j ≤ rows - 1 by omega)
  simp only [planeExtent]
  omega

section Sources

variable {op : Op} {r : Regs} {j x : Nat}

/-- The source bytes of a sample lie outside the destination. -/
theorem Passed.sources_outside_dst (P : Passed op r) (hj : j < r.height.toNat)
    (hx : x < r.width.toNat) :
    ∀ a ∈ [lumaAddr r j x, uRoleAddr op r j x, vRoleAddr op r j x],
      a < r.dstBase.toNat ∨ r.dstBase.toNat + 4 * r.width.toNat * r.height.toNat ≤ a := by
  have outside : ∀ e ∈ sourceExtents op r, ∀ a, e.lo ≤ a ∧ a < e.hi →
      a < r.dstBase.toNat ∨ r.dstBase.toNat + 4 * r.width.toNat * r.height.toNat ≤ a := by
    intro e he a ha
    have := P.apart e he
    omega
  have heven := P.widthEven
  have hc : j / 2 < chromaRows (frameH r) := by
    change j / 2 < (r.height.toNat + 1) / 2
    omega
  have luma := outside (lumaExtent r) (by cases op <;> simp [sourceExtents]) _
    (mem_planeExtent hj hx)
  simp only [List.mem_cons, List.not_mem_nil, or_false, forall_eq_or_imp, forall_eq]
  cases op with
  | sp =>
    have chroma : ∀ i, i < r.width.toNat → _ := fun i hi =>
      outside (chromaExtent r) (by simp [sourceExtents]) _ (mem_planeExtent hc hi)
    exact ⟨luma, chroma (x / 2 * 2 + 1) (by omega), chroma (x / 2 * 2) (by omega)⟩
  | fp =>
    have hx2 : x / 2 < r.width.toNat / 2 := by omega
    exact ⟨luma, outside (uExtent r) (by simp [sourceExtents]) _ (mem_planeExtent hc hx2),
      outside (vExtent r) (by simp [sourceExtents]) _ (mem_planeExtent hc hx2)⟩

/-- The frame law gives the same word from any memory that differs in the destination only. -/
theorem Passed.frameWord_congr (P : Passed op r) (hj : j < r.height.toNat)
    (hx : x < r.width.toNat) {m m' : Memory}
    (hm : ∀ a, a < r.dstBase.toNat ∨ r.dstBase.toNat + 4 * r.width.toNat * r.height.toNat ≤ a →
      readByte m' a = readByte m a) : frameWord op r m' j x = frameWord op r m j x := by
  have hs := P.sources_outside_dst hj hx
  rw [frameWord, frameWord, hm _ (hs _ (by simp)), hm _ (hs _ (by simp)), hm _ (hs _ (by simp))]

end Sources

/-! ### An admitted pair step -/

/-- Every word of the destination is aligned (42_command_accept.md R179). -/
theorem Passed.dst_aligned {op : Op} {r : Regs} {j x : Nat} (P : Passed op r)
    (hj : j < r.height.toNat) (hx : x < r.width.toNat) : dstAddr r j x % 4 = 0 := by
  obtain ⟨-, -, h⟩ := P.dst_inside hj hx
  exact h

/-- Both words of the pair at a position are written; ADVANCE is to come (43_convert_sp.md R192). -/
def pairWritten (op : Op) (r : Regs) (j x : Nat) (s : State) : State :=
  { engineWrite 5 (dstAddr r j (x + 1)) (seenWord op r s j (x + 1))
      (engineWrite 4 (dstAddr r j x) (seenWord op r s j x) s) with
    freeCount := s.freeCount + 1 }

section PairWritten

variable (op : Op) (r : Regs) (j x : Nat) (s : State)

@[simp] theorem pairWritten_inputs : (pairWritten op r j x s).inputs = s.inputs := rfl
@[simp] theorem pairWritten_platform : (pairWritten op r j x s).platform = s.platform := rfl
@[simp] theorem pairWritten_hung : (pairWritten op r j x s).hung = s.hung := rfl
@[simp] theorem pairWritten_raced : (pairWritten op r j x s).raced = s.raced := rfl

end PairWritten

/-- The two writes leave the engine at its position. -/
theorem RunsAt.pairWritten_runsAt {op : Op} {r : Regs} {j x : Nat} {s : State}
    (R : RunsAt op r j x s) : RunsAt op r j x (pairWritten op r j x s) := by
  obtain ⟨-, hhi⟩ := R.dst_bounds
  have first := R.after_engineWrite (k := 4) (v := seenWord op r s j x)
    (show dstAddr r j x + 4 ≤ Config.busSize by omega)
  have second := first.after_engineWrite (k := 5) (v := seenWord op r s j (x + 1))
    (show dstAddr r j (x + 1) + 4 ≤ Config.busSize by rw [dstAddr_succ]; omega)
  exact second.of_eq rfl rfl second.memory

/-- A pair step whose accesses are all admitted writes both words and ADVANCEs (43_convert_sp.md
R192). -/
theorem RunsAt.engineTurn_of_admitted {op : Op} {r : Regs} {j x : Nat} {s : State}
    (R : RunsAt op r j x s) (hh : s.hung = false) (ha : admitsPair op s.platform r j x) :
    engineTurn s = .next (advance (pairWritten op r j x s)) := by
  have P := R.passed
  have htwo := R.two_columns
  have words := pairWords_at P R.row R.column R.columnEven fun b hb =>
    ha b (List.mem_of_mem_take hb)
  rw [admitsPair, pairAccesses_eq] at ha
  have lands : ∀ k i v (s' : State), i < r.width.toNat → s'.platform = s.platform →
      BusAccess.admitted s.platform ⟨dstAddr r j i, 4, .write⟩ →
      memWrite k (dstAddr r j i) v s' = .ok (engineWrite k (dstAddr r j i) v s') := by
    intro k i v s' hi hp hadm
    have hlt := P.dst_lt R.row hi
    exact memWrite_admitted (P.dst_aligned R.row hi) (show _ < 2 ^ 32 by omega) (hp ▸ hadm)
  have first := lands 4 x (seenWord op r s j x) s R.column rfl (ha _ (by simp [planAt]))
  have second := lands 5 (x + 1) (seenWord op r s j (x + 1))
    (engineWrite 4 (dstAddr r j x) (seenWord op r s j x) s) (by omega) rfl (ha _ (by simp [planAt]))
  rw [R.engineTurn_eq hh, pairStep, words]
  simp only [planAt, first, second]
  rfl

/-- With no store during the command, no access is raced. -/
theorem unraced_of_raced_nil {s : State} (h : s.raced = []) (b : BusAccess) : b.unraced s := by
  intro i _ st hst
  rw [h] at hst
  cases hst

/-- With no store during the command the engine's word lands whole. -/
theorem racedWord_of_raced_nil {k a : Nat} {v : Word} {s : State} (ha : a % 4 = 0)
    (h : s.raced = []) : racedWord k a v s = v :=
  racedWord_of_not_raced ha fun i hi => unraced_of_raced_nil h ⟨a, 4, .write⟩ i hi

/-- With no store during the command, a pair step writes the frame law's words whole. -/
theorem RunsAt.pairWritten_mem {op : Op} {r : Regs} {j x : Nat} {s : State} (R : RunsAt op r j x s)
    (hr : s.raced = []) : (pairWritten op r j x s).mem =
      writeWord (writeWord s.mem (dstAddr r j x) (frameWord op r s.mem j x))
        (dstAddr r j x + 4) (frameWord op r s.mem j (x + 1)) := by
  have P := R.passed
  have htwo := R.two_columns
  obtain ⟨seenA, seenB⟩ := seenWord_of_unraced (op := op) (r := r) (j := j) R.columnEven
    fun b _ => unraced_of_raced_nil hr b
  have alignedA := P.dst_aligned R.row R.column
  have alignedB := P.dst_aligned (x := x + 1) R.row (by omega)
  simp only [pairWritten, engineWrite_mem]
  rw [racedWord_of_raced_nil alignedB (by exact hr), racedWord_of_raced_nil alignedA hr, seenA,
    seenB, dstAddr_succ]

/-! ### The words of a frame, in row order (20_memory.md R71) -/

/-- Word `n` of a frame. -/
theorem dstAddr_of_word (r : Regs) (n : Nat) :
    dstAddr r (n / r.width.toNat) (n % r.width.toNat) = r.dstBase.toNat + 4 * n := by
  rw [dstAddr, Nat.div_add_mod']

/-- The samples of pair `k` begin at word `2 * k` (10_state.md R36). -/
theorem word_of_pair (k : Nat) {w : Nat} (hw : w % 2 = 0) :
    2 * k / w = k / (w / 2) ∧ 2 * k % w = 2 * (k % (w / 2)) := by
  obtain ⟨half, rfl⟩ : ∃ half, w = 2 * half := ⟨w / 2, by omega⟩
  rw [Nat.mul_div_mul_left _ _ Nat.two_pos, Nat.mul_mod_mul_left,
    Nat.mul_div_cancel_left _ Nat.two_pos]
  exact ⟨rfl, rfl⟩

section Words

variable {r : Regs} {n : Nat}

/-- In a frame of even width a pair's second sample is in the row of its first. -/
theorem second_of_pair {w : Nat} (hw : w % 2 = 0) (hpos : 0 < w) (hn : n % 2 = 0) :
    (n + 1) / w = n / w ∧ (n + 1) % w = n % w + 1 := by
  have hmod := Nat.mod_add_div n w
  have hlt := Nat.mod_lt n hpos
  have heven : n % w % 2 = 0 := by rw [Nat.mod_mod_of_dvd n (Nat.dvd_of_mod_eq_zero hw), hn]
  rw [Nat.div_mod_unique hpos]
  omega

/-- The next position of a frame is its next pair of words. -/
theorem nextPos_of_word (hpos : 0 < r.width.toNat) (hx : n % r.width.toNat + 2 ≤ r.width.toNat) :
    nextPos r (n / r.width.toNat) (n % r.width.toNat) =
      ((n + 2) / r.width.toNat, (n + 2) % r.width.toNat) := by
  have hmod := Nat.mod_add_div n r.width.toNat
  rw [nextPos, eq_comm]
  split
  · rw [Prod.mk.injEq, Nat.div_mod_unique hpos, Nat.mul_add]
    omega
  · rw [Prod.mk.injEq, Nat.div_mod_unique hpos]
    omega

end Words

/-- The first `n` words of the frame that starts from memory `m` are the frame law's in `m'`, and
every byte outside them is as in `m` (43_convert_sp.md R197, 44_convert_fp.md R216). -/
structure Converted (op : Op) (r : Regs) (m : Memory) (n : Nat) (m' : Memory) : Prop where
  words : ∀ i, i < n → readWord m' (r.dstBase.toNat + 4 * i) =
    frameWord op r m (i / r.width.toNat) (i % r.width.toNat)
  outside : ∀ a, a < r.dstBase.toNat ∨ r.dstBase.toNat + 4 * n ≤ a → readByte m' a = readByte m a

section Converted

variable {op : Op} {r : Regs} {m m' : Memory} {n : Nat}

theorem converted_zero : Converted op r m 0 m :=
  ⟨fun i hi => absurd hi (Nat.not_lt_zero i), fun _ _ => rfl⟩

/-- The next word of the frame is written. -/
theorem Converted.succ (C : Converted op r m n m') (hm : m'.wf)
    (hn : r.dstBase.toNat + 4 * n + 4 ≤ Config.busSize) :
    Converted op r m (n + 1) (writeWord m' (r.dstBase.toNat + 4 * n)
      (frameWord op r m (n / r.width.toNat) (n % r.width.toNat))) := by
  refine ⟨fun i hi => ?_, fun a ha => ?_⟩
  · obtain hlt | rfl : i < n ∨ i = n := by omega
    · rw [readWord_writeWord_ne (by omega), C.words i hlt]
    · exact readWord_writeWord hm hn
  · rw [readByte_writeWord_ne (by omega), C.outside a (by omega)]

/-- What is converted so far changes no source byte, so the frame law's words stay what they were.
-/
theorem Converted.frameWord_eq (C : Converted op r m n m') (P : Passed op r) {j x : Nat}
    (hj : j < r.height.toNat) (hx : x < r.width.toNat) (hn : n ≤ r.width.toNat * r.height.toNat) :
    frameWord op r m' j x = frameWord op r m j x := by
  refine P.frameWord_congr hj hx fun a ha => C.outside a ?_
  rw [Nat.mul_assoc] at ha
  omega

end Converted

/-! ### A frame in progress -/

/-- The command of `op` that `s` accepted has made `k` pair steps with no access raced and none
unanswered. -/
structure FrameProgress (op : Op) (s : State) (k : Nat) (t : State) : Prop where
  runs : RunsAt op s.regs (2 * k / s.regs.width.toNat) (2 * k % s.regs.width.toNat) t
  converted : Converted op s.regs s.mem (2 * k) t.mem
  regs : t.regs = s.regs.started
  inputs : t.inputs = []
  platform : t.platform = s.platform
  answered : t.hung = false
  raced : t.raced = []

/-- A command just started has written nothing. -/
theorem frameProgress_zero {op : Op} {s : State} (hin : s.inputs = []) (hm : s.mem.wf)
    (hf : frameError op s.regs = none) :
    FrameProgress op s 0 (acknowledge (startFrame (commandWord op) (setAside s))) := by
  refine ⟨?_, converted_zero, rfl, hin, rfl, rfl, rfl⟩
  rw [Nat.mul_zero, Nat.zero_div, Nat.zero_mod]
  exact runsAt_of_started (opOf_commandWord op) hf rfl rfl hm

section Progress

variable {op : Op} {s t : State} {k : Nat}

/-- The words of the next pair, in memory. -/
theorem FrameProgress.converted_succ (F : FrameProgress op s k t) :
    Converted op s.regs s.mem (2 * (k + 1)) (pairWritten op s.regs (2 * k / s.regs.width.toNat)
      (2 * k % s.regs.width.toNat) t).mem := by
  have R := F.runs
  have P := R.passed
  obtain ⟨-, hhi⟩ := R.dst_bounds
  obtain ⟨hrow, hcol⟩ := second_of_pair P.widthEven P.widthPos (Nat.mul_mod_right 2 k)
  have htwo := R.two_columns
  obtain ⟨-, hlast, -⟩ := P.dst_inside R.row R.column
  rw [dstAddr_of_word] at hhi hlast
  have hn : 2 * k ≤ s.regs.width.toNat * s.regs.height.toNat := by
    rw [Nat.mul_assoc] at hlast
    omega
  rw [R.pairWritten_mem F.raced, F.converted.frameWord_eq P R.row R.column hn,
    F.converted.frameWord_eq P R.row (by omega) hn, dstAddr_of_word, ← hcol, Nat.add_assoc]
  conv in frameWord _ _ _ _ ((2 * k + 1) % _) => rw [← hrow]
  have first := F.converted.succ R.memory (by omega)
  exact first.succ (writeWord_wf R.memory (by omega)) (by omega)

/-- One more admitted pair step, short of the frame's end. -/
theorem FrameProgress.step_succ (F : FrameProgress op s k t)
    (hk : 2 * (k + 1) < s.regs.width.toNat * s.regs.height.toNat)
    (ha : admitsPair op s.platform s.regs (2 * k / s.regs.width.toNat)
      (2 * k % s.regs.width.toNat)) :
    ∃ t', step t = .next t' ∧ FrameProgress op s (k + 1) t' := by
  have R := F.runs
  have P := R.passed
  have next := nextPos_of_word P.widthPos R.two_columns
  have hend : (nextPos s.regs (2 * k / s.regs.width.toNat) (2 * k % s.regs.width.toNat)).1 ≠
      s.regs.height.toNat := next ▸ ne_of_lt (Nat.div_lt_of_lt_mul hk)
  have written := R.pairWritten_runsAt
  have advanced := written.advance_runsAt hend
  rw [next] at advanced
  refine ⟨_, (step_of_inputs_nil F.inputs).trans
    (R.engineTurn_of_admitted F.answered (F.platform ▸ ha)), ⟨advanced, ?_, ?_, ?_, ?_, ?_, ?_⟩⟩
  · rw [advance_mem]
    exact F.converted_succ
  · rw [written.advance_eq hend]
    exact F.regs
  · rw [advance_inputs, pairWritten_inputs, F.inputs]
  · rw [advance_platform, pairWritten_platform, F.platform]
  · rw [advance_hung, pairWritten_hung, F.answered]
  · rw [advance_raced, pairWritten_raced, F.raced]

/-- After `k` admitted pair steps, short of the frame's end, the command has made them. -/
theorem frameProgress_of_run (hin : s.inputs = []) (hm : s.mem.wf)
    (hf : frameError op s.regs = none)
    (hk : 2 * k < s.regs.width.toNat * s.regs.height.toNat)
    (ha : ∀ i, i < k → admitsPair op s.platform s.regs (2 * i / s.regs.width.toNat)
      (2 * i % s.regs.width.toNat)) :
    ∃ t, run k (acknowledge (startFrame (commandWord op) (setAside s))) = .next t ∧
      FrameProgress op s k t := by
  induction k with
  | zero => exact ⟨_, rfl, frameProgress_zero hin hm hf⟩
  | succ n ih =>
    obtain ⟨t, hrun, F⟩ := ih (by omega) fun i hi => ha i (by omega)
    obtain ⟨t', hstep, F'⟩ := F.step_succ hk (ha n (by omega))
    exact ⟨t', (run_succ hrun).trans hstep, F'⟩

end Progress

/-- Settles O54: the progress of the frame, by induction on its pair steps, read in rows and
columns. -/
theorem frameInProgress : Obligations.FrameInProgress := by
  intro op s k hin hm hb hpass r half hk hadmits
  have hf := frameError_of_no_check_fails hpass
  have heven := (passed_of_frameError hf).widthEven
  replace hk : k < s.regs.width.toNat / 2 * s.regs.height.toNat := hk
  have hwords : 2 * k < s.regs.width.toNat * s.regs.height.toNat := by
    rw [show s.regs.width.toNat = 2 * (s.regs.width.toNat / 2) by omega, Nat.mul_assoc]
    exact Nat.mul_lt_mul_of_pos_left hk Nat.two_pos
  have admitted : ∀ i, i < k → admitsPair op s.platform s.regs (2 * i / s.regs.width.toNat)
      (2 * i % s.regs.width.toNat) := by
    intro i hi
    obtain ⟨hrow, hcol⟩ := word_of_pair i heven
    rw [hrow, hcol]
    exact hadmits i hi
  obtain ⟨t, hrun, F⟩ := frameProgress_of_run hin hm hf hwords admitted
  obtain ⟨hrow, hcol⟩ := word_of_pair k heven
  have hj := F.runs.row
  have hx := F.runs.column
  have hW := s.regs.width.isLt
  have hH := s.regs.height.isLt
  refine ⟨_, t, exec_convertOf_started hb hf, hrun, F.regs, ?_, ?_, ?_, ?_⟩
  · rw [F.runs.working, workingAt_j_toNat (by omega), hrow]
  · rw [F.runs.working, workingAt_x_toNat (by omega), hcol]
  · intro i hi
    rw [dstAddr_of_word]
    exact F.converted.words i hi
  · intro a ha
    refine F.converted.outside a (ha.imp_right fun h => ?_)
    rw [show 4 * (2 * k) = 8 * k by ring]
    exact h

end Sys2Proof.Machine

namespace Sys2Proof.Machine

/-! ### The bytes of a written word (20_memory.md R64) -/

/-- CONVERT.SP's word in memory: R, G, B, 0 (41_pixel_datapath.md R148). -/
theorem bytes_of_packSp (ch : Channels) :
    (List.range 4).map (byteOf (packSp ch)) = [ch.r, ch.g, ch.b, 0#8] := by
  obtain ⟨h0, h1, h2, h3⟩ := byteOf_append 0#8 ch.b ch.g ch.r
  change [_, _, _, _] = _
  rw [packSp, h0, h1, h2, h3]

/-- CONVERT.FP's word in memory: B, G, R, 0 (41_pixel_datapath.md R149). -/
theorem bytes_of_packFp (ch : Channels) :
    (List.range 4).map (byteOf (packFp ch)) = [ch.b, ch.g, ch.r, 0#8] := by
  obtain ⟨h0, h1, h2, h3⟩ := byteOf_append 0#8 ch.r ch.g ch.b
  change [_, _, _, _] = _
  rw [packFp, h0, h1, h2, h3]

/-- Settles O44: a byte inside the written word is the word's, one outside is as before. -/
theorem wordWriteIsLittleEndian : Obligations.WordWriteIsLittleEndian := by
  intro m a c v hm ha
  have inside : ∀ w i, i < 4 → readByte (writeWord m a w) (a + i) = byteOf w i :=
    fun _ _ hi => readByte_writeWord_inside hm ha hi
  have word : ∀ w, (List.range 4).map (fun i => readByte (writeWord m a w) (a + i)) =
      (List.range 4).map (byteOf w) := fun w =>
    List.map_congr_left fun i hi => inside w i (List.mem_range.mp hi)
  refine ⟨inside v 0 (by decide), inside v 1 (by decide), inside v 2 (by decide),
    inside v 3 (by decide), readByte_writeWord_ne, fun ch => ⟨?_, ?_⟩⟩
  · rw [word, bytes_of_packSp]
  · rw [word, bytes_of_packFp]

/-! ### Canonical memory (log 6) -/

theorem readByte_cons_self (k : Nat) (b : Byte) (m : Memory) : readByte ((k, b) :: m) k = b :=
  if_pos rfl

theorem readByte_cons_ne {k a : Nat} (b : Byte) (m : Memory) (h : a ≠ k) :
    readByte ((k, b) :: m) a = readByte m a := if_neg h

/-- A canonical memory that reads as another does lists no address before the other's first. -/
theorem Memory.wf_head_le {k k' : Nat} {b b' : Byte} {m m' : Memory}
    (h : Memory.wf ((k, b) :: m)) (h' : Memory.wf ((k', b') :: m'))
    (hr : ∀ a, readByte ((k, b) :: m) a = readByte ((k', b') :: m') a) : k' ≤ k := by
  by_contra hlt
  obtain ⟨-, hb, -⟩ := Memory.wf_cons.mp h
  obtain ⟨hrise, -⟩ := Memory.wf_cons.mp h'
  have unlisted : readByte ((k', b') :: m') k = unlistedByte := readByte_of_lt fun d hd => by
    rcases List.mem_cons.mp hd with rfl | hd
    · exact not_le.mp hlt
    · exact (not_le.mp hlt).trans (hrise d hd)
  exact hb ((readByte_cons_self k b m).symm.trans ((hr k).trans unlisted))

/-- Settles O45, by induction on the two lists: their first addresses are the same by the order, and so
are the bytes there. -/
theorem canonicalMemoryIsDeterminedByItsReads :
    Obligations.CanonicalMemoryIsDeterminedByItsReads := by
  intro m
  induction m with
  | nil =>
    intro m' _ h' hr
    cases m' with
    | nil => rfl
    | cons c m' =>
      obtain ⟨-, hb, -⟩ := Memory.wf_cons.mp h'
      exact absurd ((readByte_cons_self _ _ m').symm.trans (hr c.1).symm) hb
  | cons c m ih =>
    obtain ⟨k, b⟩ := c
    intro m' h h' hr
    obtain ⟨hrise, hb, -, hm⟩ := Memory.wf_cons.mp h
    cases m' with
    | nil => exact absurd ((readByte_cons_self k b m).symm.trans (hr k)) hb
    | cons c' m' =>
      obtain ⟨k', b'⟩ := c'
      obtain rfl : k = k' := le_antisymm (Memory.wf_head_le h' h fun a => (hr a).symm)
        (Memory.wf_head_le h h' hr)
      obtain ⟨hrise', -, -, hm'⟩ := Memory.wf_cons.mp h'
      obtain rfl : b = b' := by
        rw [← readByte_cons_self k b m, hr, readByte_cons_self]
      have tails : ∀ a, readByte m a = readByte m' a := by
        intro a
        by_cases ha : a = k
        · rw [ha, readByte_of_lt hrise, readByte_of_lt hrise']
        · rw [← readByte_cons_ne b m ha, hr, readByte_cons_ne b m' ha]
      rw [ih m' hm hm' tails]

end Sys2Proof.Machine

namespace Sys2Proof.Machine

/-! ### The machine never stops (20_memory.md R65, R74) -/

theorem stopPair_next {e : EngineStop} (h : ∀ f, e ≠ .fault f) (s : State) :
    ∃ t, stopPair e s = .next t := by
  cases e with
  | busError a => exact ⟨_, rfl⟩
  | noAnswer => exact ⟨_, rfl⟩
  | fault f => exact absurd rfl (h f)

/-- A read inside the bus space raises no fault. -/
theorem memRead_error {k a : Nat} {s : State} {e : EngineStop} (ha : a < Config.busSize)
    (h : memRead k a s = .error e) (f : Fault) : e ≠ .fault f := by
  rintro rfl
  rcases memRead_cases k a s with ⟨hge, -⟩ | ⟨-, -, h'⟩ | ⟨-, -, h'⟩ | ⟨-, -, h'⟩
  · omega
  all_goals rw [h'] at h; cases h

/-- An aligned word write inside the bus space raises no fault. -/
theorem memWrite_error {k a : Nat} {v : Word} {s : State} {e : EngineStop} (hal : a % 4 = 0)
    (ha : a < Config.busSize) (h : memWrite k a v s = .error e) (f : Fault) : e ≠ .fault f := by
  rintro rfl
  rcases memWrite_cases k a v s with ⟨hne, -⟩ | ⟨hge, -⟩ | ⟨-, -, -, h'⟩ | ⟨-, -, -, h'⟩ |
    ⟨-, -, -, h'⟩
  · exact absurd hal hne
  · omega
  all_goals rw [h'] at h; cases h

/-- A pair step's four reads stop at a read or give the words. -/
theorem pairWords_error {op : Op} {p : PairPlan} {s : State} {e : EngineStop}
    (h : pairWords op p s = .error e) :
    memRead 0 p.lumaA s = .error e ∨ memRead 1 p.lumaB s = .error e ∨
      memRead 2 p.chromaU s = .error e ∨ memRead 3 p.chromaV s = .error e := by
  unfold pairWords at h
  split at h
  · cases h; exact .inl ‹_›
  split at h
  · cases h; exact .inr (.inl ‹_›)
  split at h
  · cases h; exact .inr (.inr (.inl ‹_›))
  split at h
  · cases h; exact .inr (.inr (.inr ‹_›))
  · cases h

/-- The pair step of a frame's position always has an outcome: its addresses are inside the bus space
and its words aligned (20_memory.md R74, 42_command_accept.md R184). -/
theorem RunsAt.pairStep_next {op : Op} {r : Regs} {j x : Nat} {s : State} (R : RunsAt op r j x s) :
    ∃ t, pairStep op (planAt op r j x) s = .next t := by
  have P := R.passed
  obtain ⟨hA, hB, hU, hV⟩ := P.reads_lt R.row R.column R.columnEven
  obtain ⟨-, hhi⟩ := R.dst_bounds
  have halA := P.dst_aligned R.row R.column
  have hdstB := dstAddr_succ r j x
  rcases pairStep_cases op (planAt op r j x) s with ⟨e, hw, h⟩ | ⟨v, e, -, hw, h⟩ |
    ⟨v, e, -, -, hw, h⟩ | ⟨v, -, -, -, h⟩ <;> rw [h]
  · refine stopPair_next ?_ s
    rcases pairWords_error hw with he | he | he | he
    · exact memRead_error hA he
    · exact memRead_error hB he
    · exact memRead_error hU he
    · exact memRead_error hV he
  · exact stopPair_next (memWrite_error halA (show dstAddr r j x < _ by omega) hw) s
  · exact stopPair_next (memWrite_error (show dstAddr r j (x + 1) % 4 = 0 by omega)
      (show dstAddr r j (x + 1) < _ by omega) hw) _
  · exact ⟨_, rfl⟩

theorem engineTurn_next {s : State} (h : Inv s) : ∃ t, engineTurn s = .next t := by
  by_cases hrun : s.regs.busy = true ∧ s.hung = false
  · obtain ⟨hb, hh⟩ := hrun
    obtain ⟨op, r, j, x, R, -⟩ := h.runsAt hb
    rw [R.engineTurn_eq hh]
    exact R.pairStep_next
  · rcases engineTurn_cases s with ⟨hb, hh, -⟩ | ⟨hb, hh, -⟩ | ⟨-, h'⟩
    · exact absurd ⟨hb, hh⟩ hrun
    · exact absurd ⟨hb, hh⟩ hrun
    · exact ⟨s, h'⟩

theorem exec_next (i : Instr) (s : State) : ∃ t, exec i s = .next t := by
  rcases exec_shapes i s with ⟨_, h⟩ | ⟨_, h⟩ | h | ⟨_, _, h⟩ | ⟨_, h⟩ <;> exact ⟨_, h⟩

/-- Settles O53: the engine's turn is a pair step of a checked frame or nothing, a transaction always
has a meaning, and every other input is an operation that answers. -/
theorem theMachineNeverStops : Obligations.TheMachineNeverStops := by
  intro s h
  cases hin : s.inputs with
  | nil =>
    rw [step_of_inputs_nil hin]
    exact engineTurn_next h
  | cons i rest =>
    cases i with
    | transaction m =>
      rw [step, hin]
      exact exec_next _ _
    | engine =>
      rw [step_of_inputs_engine hin]
      exact engineTurn_next (h.of_sameCommand (.of_eq rfl rfl rfl rfl) h.memory)
    | reset | resetMidPair | storeByte | storeWord | loadByte | loadWord | cacheClean
        | cacheInvalidate | busStore | observeIrq =>
      rw [step, hin]
      exact ⟨_, rfl⟩

end Sys2Proof.Machine

namespace Sys2Proof.Machine

/-! ### What a race can leave (20_memory.md R79, 93 S6, S7) -/

/-- A store covers a byte when it is into the byte's word and has its lane in the mask. -/
theorem HostStore.covers_iff (st : HostStore) (a : Nat) :
    st.covers a = true ↔ st.addr = 4 * (a / 4) ∧ st.mask.getLsbD (a % 4) = true := by
  rw [HostStore.covers, Bool.and_eq_true, beq_iff_eq, wordBase]

/-- A former value of a byte is a byte of the word some store of it replaced. -/
theorem mem_formerValues {raced : List HostStore} {a : Nat} {b : Byte} :
    b ∈ formerValues raced a ↔
      ∃ st ∈ raced, st.covers a = true ∧ byteOf st.former (a % 4) = b := by
  simp only [formerValues, List.mem_map, List.mem_filter, and_assoc]

theorem formerValues_eq_nil {raced : List HostStore} {a : Nat}
    (h : ∀ st ∈ raced, ¬ st.covers a = true) : formerValues raced a = [] := by
  rw [formerValues, List.map_eq_nil_iff, List.filter_eq_nil_iff]
  exact h

/-- Each byte of the word left by an engine write is the engine's, or, where a store during the command
wrote it, memory's. -/
theorem byteOf_racedWord (k a : Nat) (v : Word) (s : State) {i : Nat} (hi : i < 4) :
    byteOf (racedWord k a v s) i = byteOf v i ∨
      (byteOf (racedWord k a v s) i = readByte s.mem (a + i) ∧
        ∃ st ∈ s.raced, st.addr = a ∧ st.mask.getLsbD i = true) := by
  rw [racedWord, byteOf_mergeWord _ _ _ hi, mergeByte]
  split
  · rename_i hm
    obtain ⟨st, hst, hmask⟩ := (storedMask_getLsbD _ _).mp hm
    obtain ⟨hr, ha⟩ := mem_of_mem_laterStores hst
    exact .inr ⟨byteOf_readWord _ _ hi, st, hr, ha, hmask⟩
  · exact .inl rfl

/-- Whole-word stores together write every byte, if there is one. -/
theorem storedMask_of_whole {st : HostStore} {sts : List HostStore} (h : st.mask = 0xF#4) :
    storedMask (st :: sts) = 0xF#4 := by
  change st.mask ||| storedMask sts = 0xF#4
  rw [h]
  exact BitVec.allOnes_or

/-- Where only whole words were stored, the word ends whole: the engine's, or memory's. -/
theorem racedWord_of_whole {k a : Nat} {v : Word} {s : State}
    (h : ∀ st ∈ s.raced, st.addr = a → st.mask = 0xF#4) :
    racedWord k a v s = v ∨
      (racedWord k a v s = readWord s.mem a ∧ ∃ st ∈ s.raced, st.addr = a) := by
  unfold racedWord
  cases hl : laterStores k a s with
  | nil => exact .inl (mergeWord_none _ _)
  | cons st sts =>
    obtain ⟨hr, ha⟩ := mem_of_mem_laterStores (hl ▸ List.mem_cons_self : st ∈ laterStores k a s)
    rw [storedMask_of_whole (h st hr ha), mergeWord_all]
    exact .inr ⟨rfl, st, hr, ha⟩

/-- Settles O56: a read is memory's byte or a former value of it; a written word is merged byte by byte
from the engine's and the stores that land after it. -/
theorem racedByteIsOldOrNew : Obligations.RacedByteIsOldOrNew := by
  intro k a s
  refine ⟨?_, ?_, fun v => ⟨fun i hi => byteOf_racedWord k a v s hi, racedWord_of_whole⟩⟩
  · refine (engineByte_cases k a s).imp_right fun h => ?_
    obtain ⟨st, hst, hc, hb⟩ := mem_formerValues.mp h
    obtain ⟨ha, hm⟩ := (st.covers_iff a).mp hc
    exact ⟨st, hst, ha, hm, hb.symm⟩
  · intro h
    refine engineByte_of_not_raced (formerValues_eq_nil fun st hst hc => ?_)
    exact h st hst ((st.covers_iff a).mp hc)

end Sys2Proof.Machine

namespace Sys2Proof.Machine

/-! ### What a host load sees (20_memory.md R66, R78, R80) -/

/-- The cache's copy of a word counts only where COHERENT is false. -/
theorem cachedCopy_eq_some {a : Nat} {s : State} {c : CachedWord} (h : cachedCopy a s = some c) :
    Config.coherent = false ∧ c ∈ s.cache ∧ c.addr = a := by
  cases hco : Config.coherent with
  | true => rw [cachedCopy_of_coherent a s hco] at h; cases h
  | false =>
    rw [cachedCopy_of_not_coherent a s hco] at h
    exact ⟨rfl, List.mem_of_find?_eq_some h, by simpa using List.find?_some h⟩

theorem hostWord_of_copy {a : Nat} {s : State} {c : CachedWord} (h : cachedCopy a s = some c) :
    hostWord a s = c.value := by
  rw [hostWord, h]

theorem hostWord_of_no_copy {a : Nat} {s : State} (h : cachedCopy a s = none) :
    hostWord a s = busView a s := by
  rw [hostWord, h]

/-- A word with no copy and no unseen write is memory's. -/
theorem hostWord_of_seen {a : Nat} {s : State} (hc : cachedCopy a s = none)
    (h : ∀ e ∈ s.unseen ++ s.missed, e.addr ≠ a) : hostWord a s = readWord s.mem a := by
  rw [hostWord_of_no_copy hc, busView_of_seen h]

/-- The host sees a word as memory has it, as it was before a write it has not seen, or as its cache
has it. -/
theorem hostWord_cases (a : Nat) (s : State) :
    hostWord a s = readWord s.mem a ∨
    (∃ e ∈ s.unseen ++ s.missed, e.addr = a ∧ hostWord a s = e.former) ∨
    (Config.coherent = false ∧ ∃ c ∈ s.cache, c.addr = a ∧ hostWord a s = c.value) := by
  cases hc : cachedCopy a s with
  | none =>
    rw [hostWord_of_no_copy hc]
    exact (busView_cases a s).imp_right .inl
  | some c =>
    obtain ⟨hco, hmem, ha⟩ := cachedCopy_eq_some hc
    exact .inr (.inr ⟨hco, c, hmem, ha, hostWord_of_copy hc⟩)

section Load

variable {s : State} {rest : List Input} {i : BitVec 30}

/-- A load of a word answers the word as the host sees it, and changes the cache and the count of free
values only. -/
theorem step_loadWord (h : s.inputs = .loadWord i :: rest) :
    ∃ l, step s = .next { s with
      inputs := rest
      response := .loadedWord (hostWord (4 * i.toNat) s)
      cache := l
      freeCount := s.freeCount + 1 } := by
  obtain ⟨l, hl⟩ := hostLoad_cases (4 * i.toNat) { s with inputs := rest }
  refine ⟨l, ?_⟩
  rw [step, h]
  simp only [hostLoadWord, hl]
  rfl

/-- A load of a byte answers that byte of its word as the host sees it. -/
theorem step_loadByte {x : Word} (h : s.inputs = .loadByte x :: rest) (hx : x.toNat / 4 = i.toNat) :
    ∃ l, step s = .next { s with
      inputs := rest
      response := .loaded (byteOf (hostWord (4 * i.toNat) s) (x.toNat % 4))
      cache := l
      freeCount := s.freeCount + 1 } := by
  obtain ⟨l, hl⟩ := hostLoad_cases (wordBase x.toNat) { s with inputs := rest }
  refine ⟨l, ?_⟩
  rw [step, h, ← hx]
  simp only [hostLoadByte, hl]
  rfl

end Load

/-- Settles O59: the word a load answers is the one the host sees. -/
theorem hostLoadSeesEachWordOldOrNew : Obligations.HostLoadSeesEachWordOldOrNew := by
  intro s rest i
  refine ⟨fun hin => ?_, fun x hin hx => ?_⟩
  · obtain ⟨l, h⟩ := step_loadWord hin
    exact ⟨_, _, hostWord_cases _ s, h, rfl, rfl, rfl, rfl, rfl, rfl⟩
  · obtain ⟨l, h⟩ := step_loadByte hin hx
    exact ⟨_, _, hostWord_cases _ s, h, rfl, rfl, rfl, rfl, rfl, rfl⟩

/-- Settles O58: with no copy and no unseen write the host sees memory's word, and memory's byte in
it. -/
theorem hostLoadAfterTheCommand : Obligations.HostLoadAfterTheCommand := by
  intro s rest i x hseen hcopy
  have hword := hostWord_of_seen hcopy hseen
  refine ⟨fun hin => ?_, fun hin hx => ?_⟩
  · obtain ⟨l, h⟩ := step_loadWord hin
    exact ⟨_, h, by rw [hword]⟩
  · obtain ⟨l, h⟩ := step_loadByte hin hx
    have hbyte : byteOf (readWord s.mem (4 * i.toNat)) (x.toNat % 4) = readByte s.mem x.toNat := by
      rw [← hx]
      exact byteOf_readWord_base s.mem x.toNat
    exact ⟨_, h, by rw [hword, hbyte]⟩

/-! ### What seeing DONE = 1 does (20_memory.md R78, 70_reset_and_hazards.md R287) -/

/-- The host has seen DONE = 1: no write of that command is unseen, nor an earlier one to the same
words, and neither memory nor a register has changed. -/
structure DoneSeen (s u : State) : Prop where
  unseen : u.unseen = []
  missed : ∀ e, e ∈ u.missed ↔ e ∈ s.missed ∧ ∀ e' ∈ s.unseen, e'.addr ≠ e.addr
  mem : u.mem = s.mem
  regs : u.regs = s.regs
  w : u.w = s.w

theorem doneSeen_seeDone {s : State} (h : s.regs.done = true) : DoneSeen s (seeDone s) := by
  rcases seeDone_cases s with ⟨-, h'⟩ | ⟨h', -⟩
  · rw [h']
    exact ⟨rfl, fun e => by simp, rfl, rfl, rfl⟩
  · rw [h] at h'
    cases h'

/-- The input and the port's answer are no part of what the host has seen. -/
theorem DoneSeen.of_look {s u : State} {rest : List Input} (D : DoneSeen { s with inputs := rest } u)
    (v : Response) : DoneSeen s { u with response := v } :=
  ⟨D.unseen, D.missed, D.mem, D.regs, D.w⟩

/-- A read of STATUS and a look at `irq` = 1 let the host see DONE. -/
theorem step_doneSeen {s : State} {look : Input} {rest : List Input} (hd : s.regs.done = true)
    (hlook : look = .transaction (encode .rdStatus) ∨ (look = .observeIrq ∧ s.regs.irqEn = true))
    (hin : s.inputs = look :: rest) :
    ∃ u, step s = .next u ∧ u.inputs = rest ∧ DoneSeen s u := by
  have seen : DoneSeen { s with inputs := rest } (seeDone { s with inputs := rest }) :=
    doneSeen_seeDone hd
  rcases hlook with rfl | ⟨rfl, hen⟩
  · refine ⟨hostRead .status (seeDone { s with inputs := rest }), ?_, seeDone_inputs _,
      seen.of_look _⟩
    rw [step, hin]
    exact congrArg (exec · _) (decode_readAt_offsetOf .status)
  · refine ⟨{ seeDone { s with inputs := rest } with response := .irqLevel true }, ?_,
      seeDone_inputs _, seen.of_look _⟩
    have hirq : irq s.regs = true := by rw [irq, hd, hen, Bool.and_self]
    rw [step, hin]
    simp only [observeIrq, hirq, if_true]

/-- Once invalidated, a word has no copy. -/
theorem cachedCopy_cacheInvalidate (a : Nat) (s : State) :
    cachedCopy a (cacheInvalidate a s) = none := by
  have h : (cacheInvalidate a s).cache.find? (fun c => c.addr == a) = none := by
    simp [cacheInvalidate]
  rw [cachedCopy, h]

/-- A run begins with its first step. -/
theorem run_of_step {s u : State} (h : step s = .next u) (n : Nat) : run (n + 1) s = run n u := by
  induction n with
  | zero => exact h
  | succ n ih => rw [run, ih, run]

/-- A word that the host invalidates and loads is as the bus shows it. -/
theorem run_invalidate_load {s : State} {i : BitVec 30} {rest : List Input}
    (h : s.inputs = .cacheInvalidate i :: .loadWord i :: rest) :
    ∃ l, run 2 s = .next { s with
      inputs := rest
      response := .loadedWord (busView (4 * i.toNat) s)
      cache := l
      freeCount := s.freeCount + 1 } := by
  have first : step s =
      .next (cacheInvalidate (4 * i.toNat) { s with inputs := .loadWord i :: rest }) := by
    rw [step, h]
  obtain ⟨l, hl⟩ := step_loadWord (rest := rest) (i := i)
    (s := cacheInvalidate (4 * i.toNat) { s with inputs := .loadWord i :: rest }) rfl
  rw [hostWord_of_no_copy (cachedCopy_cacheInvalidate _ _)] at hl
  exact ⟨l, by rw [run_of_step first, run_of_step hl]; rfl⟩

/-- Settles O60: the look empties the command's record, so the bus shows memory's word to a load past
the cache; and `irq` = 0 is no sight of DONE. -/
theorem seeingDoneMakesTheWritesVisible : Obligations.SeeingDoneMakesTheWritesVisible := by
  intro s rest i look
  refine ⟨fun hd hlook hin => ?_, fun hirq hin => ?_⟩
  · obtain ⟨u, hstep, hinputs, D⟩ := step_doneSeen hd hlook hin
    obtain ⟨l, hload⟩ := run_invalidate_load hinputs
    refine ⟨u, _, hstep, (run_of_step hstep 2).trans hload, D.unseen, D.missed, fun hseen => ?_,
      D.mem, D.regs, D.w⟩
    have hview : busView (4 * i.toNat) u = readWord u.mem (4 * i.toNat) :=
      busView_of_seen (by rw [D.unseen]; exact hseen)
    rw [hview, D.mem]
  · rw [step, hin]
    simp only [observeIrq, hirq, Bool.false_eq_true, if_false]

end Sys2Proof.Machine

namespace Sys2Proof.Machine

/-! ### What a store of another agent does (20_memory.md R66, R79, 93 S7) -/

/-- A store into the word at `a` disturbs neither the converter nor a byte outside the word. -/
structure StoreKeeps (a : Nat) (s t : State) : Prop where
  regs : t.regs = s.regs
  w : t.w = s.w
  hung : t.hung = s.hung
  outside : ∀ c, c < a ∨ a + 4 ≤ c → readByte t.mem c = readByte s.mem c

/-- A store of the bytes in `mask` has reached the bus: it landed, or the running command had written
the word, which is the engine's. -/
def StoreOnBus (a : Nat) (mask : BitVec 4) (v : Word) (s t : State) : Prop :=
  (∀ n, n < 4 → readByte t.mem (a + n) =
    if mask.getLsbD n = true then byteOf v n else readByte s.mem (a + n)) ∨
  (s.regs.busy = true ∧ s.w.db.toNat ≤ a ∧ a + 4 ≤ writtenEnd s ∧
    ∃ e ∈ s.unseen, e.addr = a ∧ readWord t.mem a = e.value)

/-- The bytes in `mask` are in the host's cache, stored and not cleaned. -/
def StoreInCache (a : Nat) (mask : BitVec 4) (v : Word) (t : State) : Prop :=
  ∃ c, cachedCopy a t = some c ∧ ∀ n, n < 4 → mask.getLsbD n = true →
    byteOf c.value n = byteOf v n ∧ c.dirty.getLsbD n = true

section Store

variable {a : Nat} {mask : BitVec 4} {v : Word} {s : State}

theorem busStore_keeps : StoreKeeps a s (busStore a mask v s) := by
  obtain ⟨r, m, hm, h⟩ := busStore_cases a mask v s
  rw [h]
  refine ⟨rfl, rfl, rfl, fun c hc => ?_⟩
  rcases hm with rfl | ⟨-, e, -, -, rfl⟩ <;> exact readByte_writeWord_ne hc

/-- From a state of the invariant the word lands, or is the engine's, which lies before the command's
position (20_memory.md R72). -/
theorem busStore_onBus (h : Inv s) (ha : a + 4 ≤ Config.busSize) :
    StoreOnBus a mask v s (busStore a mask v s) := by
  obtain ⟨r, m, hm, hstore⟩ := busStore_cases a mask v s
  rw [hstore]
  rcases hm with rfl | ⟨hb, e, he, haddr, rfl⟩
  · refine .inl fun n hn => ?_
    rw [readByte_writeWord_inside h.memory ha hn, byteOf_mergeWord _ _ _ hn, mergeByte,
      byteOf_readWord _ _ hn]
  · obtain ⟨hlo, hhi⟩ := h.written hb e he
    exact .inr ⟨hb, haddr ▸ hlo, haddr ▸ hhi, e, he, haddr, readWord_writeWord h.memory ha⟩

/-- A copy the cache has just taken is its copy of the word, where COHERENT is false. -/
theorem cachedCopy_putCached (c : CachedWord) (s : State) (h : Config.coherent = false) :
    cachedCopy c.addr (putCached c s) = some c := by
  rw [cachedCopy_of_not_coherent _ _ h, putCached, if_neg (by simp [h])]
  exact List.find?_cons_of_pos (beq_self_eq_true _)

/-- A store of the host's own reaches the bus, or, where COHERENT is false, stays in its cache. -/
theorem hostStore_oldOrNew (h : Inv s) (ha : a + 4 ≤ Config.busSize) :
    StoreKeeps a s (hostStore a mask v s) ∧
    (StoreOnBus a mask v s (hostStore a mask v s) ∨
      (Config.coherent = false ∧ (hostStore a mask v s).mem = s.mem ∧
        StoreInCache a mask v (hostStore a mask v s))) := by
  cases hco : Config.coherent with
  | true =>
    rw [hostStore, if_pos hco]
    exact ⟨busStore_keeps, .inl (busStore_onBus h ha)⟩
  | false =>
    have hcopy := cachedCopy_putCached
      ⟨a, mergeWord (hostWord a s) v mask, dirtyMask a s ||| mask⟩ s hco
    rw [hostStore, if_neg (by simp [hco])]
    obtain ⟨l, hl⟩ := putCached_cases
      ⟨a, mergeWord (hostWord a s) v mask, dirtyMask a s ||| mask⟩ s
    rw [hl] at hcopy ⊢
    refine ⟨⟨rfl, rfl, rfl, fun _ _ => rfl⟩, .inr ⟨rfl, rfl, _, hcopy, fun n hn hm => ⟨?_, ?_⟩⟩⟩
    · rw [byteOf_mergeWord _ _ _ hn, mergeByte, if_pos hm]
    · rw [BitVec.getLsbD_or, hm, Bool.or_true]

/-- Cleaning a word with a copy is a store of the copy's stored bytes; with none stored, of no byte. -/
theorem cacheClean_oldOrNew {c : CachedWord} (h : Inv s) (ha : a + 4 ≤ Config.busSize)
    (hc : cachedCopy a s = some c) :
    StoreKeeps a s (cacheClean a s) ∧ StoreOnBus a c.dirty c.value s (cacheClean a s) := by
  simp only [cacheClean, hc]
  split
  · rename_i hclean
    exact ⟨⟨rfl, rfl, rfl, fun _ _ => rfl⟩, .inl fun n _ => by rw [hclean]; simp⟩
  · obtain ⟨l, hl⟩ := putCached_cases { c with dirty := 0#4 } s
    rw [hl]
    have on := busStore_onBus (mask := c.dirty) (v := c.value) (h.with_cache l s.freeCount) ha
    have keeps := busStore_keeps (a := a) (mask := c.dirty) (v := c.value)
      (s := { s with cache := l })
    exact ⟨⟨keeps.regs, keeps.w, keeps.hung, keeps.outside⟩, on⟩

end Store

theorem laneMask_eq_shift (a : Nat) : laneMask a = 1#4 <<< (a % 4) := by
  unfold laneMask
  obtain h | h | h | h : a % 4 = 0 ∨ a % 4 = 1 ∨ a % 4 = 2 ∨ a % 4 = 3 := by omega
  all_goals rw [h]; rfl

/-- A host's byte store is a store of its lane into the byte's word. -/
theorem hostStoreByte_eq {x : Word} {i : BitVec 30} (hx : x.toNat / 4 = i.toNat) (b : Byte)
    (s : State) : hostStoreByte x.toNat b s =
      hostStore (4 * i.toNat) (1#4 <<< (x.toNat % 4)) (b ++ b ++ b ++ b) s := by
  rw [hostStoreByte, wordBase, hx, laneMask_eq_shift, lanes]

/-- Settles O57: each form of store is one on the bus, or, for the host's own, one in its cache. -/
theorem hostStoreIsOldOrNew : Obligations.HostStoreIsOldOrNew := by
  intro s rest input i mask v h hin a own hinput
  have hinv : Inv { s with inputs := rest } := h.of_sameCommand (.of_eq rfl rfl rfl rfl) h.memory
  have ha := aligned_word_fits i
  rcases hinput with hown | rfl | ⟨rfl, c, hc, rfl, rfl⟩
  · have hstep : step s = .next (hostStore (4 * i.toNat) mask v { s with inputs := rest }) := by
      rcases hown with ⟨rfl, rfl⟩ | ⟨x, b, rfl, hx, rfl, rfl⟩
      · rw [step, hin]
      · rw [step, hin, ← hostStoreByte_eq hx]
    obtain ⟨hkeep, hword⟩ := hostStore_oldOrNew (mask := mask) (v := v) hinv ha
    refine ⟨_, hstep, hkeep.regs, hkeep.w, hkeep.hung, hkeep.outside, ?_⟩
    rcases hword with hbus | ⟨hco, hmem, hcache⟩
    · exact hbus.imp_right .inl
    · exact .inr (.inr ⟨hown, hco, hmem, hcache⟩)
  · have hkeep := busStore_keeps (a := 4 * i.toNat) (mask := mask) (v := v)
      (s := { s with inputs := rest })
    refine ⟨_, by rw [step, hin], hkeep.regs, hkeep.w, hkeep.hung, hkeep.outside, ?_⟩
    exact (busStore_onBus hinv ha).imp_right .inl
  · obtain ⟨hkeep, hbus⟩ := cacheClean_oldOrNew hinv ha hc
    exact ⟨_, by rw [step, hin], hkeep.regs, hkeep.w, hkeep.hung, hkeep.outside,
      hbus.imp_right .inl⟩

end Sys2Proof.Machine

namespace Sys2Proof.Machine

/-! ### The opcode map (30_encoding.md R91) -/

theorem decode_command_eq_convertSp_iff {c : Word} :
    decode (.command c) = .convertSp ↔ c = 1#32 := by
  constructor
  · exact fun h => Message.command.inj (message_of_command (.inl ⟨h, rfl⟩))
  · rintro rfl
    exact decode_commandWord .sp

theorem decode_command_eq_convertFp_iff {c : Word} :
    decode (.command c) = .convertFp ↔ c = 2#32 := by
  constructor
  · exact fun h => Message.command.inj (message_of_command (.inr (.inl ⟨h, rfl⟩)))
  · rintro rfl
    exact decode_commandWord .fp

/-- A word is illegal exactly when it selects neither operation (30_encoding.md R91). -/
theorem decode_command_eq_illegalCommand_iff {c : Word} :
    decode (.command c) = .illegalCommand c ↔ c ≠ 1#32 ∧ c ≠ 2#32 := by
  constructor
  · intro h
    rw [← not_or, ← decode_command_eq_convertSp_iff, ← decode_command_eq_convertFp_iff, h]
    simp
  · exact fun ⟨h1, h2⟩ => decode_command_of_illegal h1 h2

/-- Settles O3: one equivalence for each of the three rows a command word can decode to. -/
theorem commandWordMap : Obligations.CommandWordMap := fun _ =>
  ⟨decode_command_eq_convertSp_iff, decode_command_eq_convertFp_iff,
    decode_command_eq_illegalCommand_iff⟩

/-! ### A step with a transaction pending (30_encoding.md R94, 45_register_access.md R231) -/

/-- The transaction is taken from the pending inputs before it is executed. -/
theorem step_of_inputs_transaction {s : State} {m : Message} {rest : List Input}
    (h : s.inputs = .transaction m :: rest) :
    step s = exec (decode m) { s with inputs := rest } := by
  rw [step, h]

/-- A table word the decoder reads is a message's, and decodes to what the message does. -/
theorem tableMessage_of_decodeTableWord {nbits w : Nat} {i : Instr}
    (h : decodeTableWord nbits w = some i) :
    ∃ m, tableMessage nbits w = .ok m ∧ decode m = i := by
  rw [decodeTableWord] at h
  split at h
  · rename_i m hm
    exact ⟨m, hm, Option.some.inj h⟩
  · cases h

/-- A table word with a message puts it before the pending inputs (log 4). -/
theorem withFetchWord_of_tableMessage {nbits w : Nat} {m : Message}
    (h : tableMessage nbits w = .ok m) (s : State) :
    s.withFetchWord nbits w = { s with inputs := .transaction m :: s.inputs } := by
  rw [State.withFetchWord, h]

/-- A placed table word is the next transaction executed, on the state it was placed in. -/
theorem step_withFetchWord {nbits w : Nat} {i : Instr} (h : decodeTableWord nbits w = some i)
    (s : State) : step (s.withFetchWord nbits w) = exec i s := by
  obtain ⟨m, hm, rfl⟩ := tableMessage_of_decodeTableWord h
  rw [withFetchWord_of_tableMessage hm]
  exact step_of_inputs_transaction rfl

/-- Settles O5: the decoded transaction, read back through the encoding's round trip and through the
message of a table word. -/
theorem stepRunsTheDecodedTransaction : Obligations.StepRunsTheDecodedTransaction := by
  intro s rest
  refine ⟨fun m hin => step_of_inputs_transaction hin, fun i hwf hin => ?_,
    fun nbits w i h => step_withFetchWord h s⟩
  rw [step_of_inputs_transaction hin, decodeEncodeRoundTrip i hwf]

end Sys2Proof.Machine

namespace Sys2Proof.Machine

/-! ### The clamp (40_saturation.md R122) -/

/-- The clamp in the arithmetic of its value, with no case left to split. -/
theorem clampByte_toNat_cast (v : Int) : ((clampByte v).toNat : Int) = max 0 (min 255 v) := by
  rw [clampByte]
  split
  · rw [show (0 : Byte).toNat = 0 from rfl]
    omega
  · split
    · rw [show (255 : Byte).toNat = 255 from rfl]
      omega
    · rw [BitVec.toNat_ofInt]
      omega

/-- A byte is the clamp of `v` exactly when its value is. -/
theorem clampByte_eq_iff {v : Int} {b : Byte} :
    clampByte v = b ↔ max 0 (min 255 v) = (b.toNat : Int) := by
  rw [← BitVec.toNat_inj, ← Int.ofNat_inj, clampByte_toNat_cast]

theorem clampByte_eq_zero_iff {v : Int} : clampByte v = 0#8 ↔ v ≤ 0 := by
  rw [clampByte_eq_iff, BitVec.toNat_ofNat]
  omega

theorem clampByte_eq_255_iff {v : Int} : clampByte v = 255#8 ↔ 255 ≤ v := by
  rw [clampByte_eq_iff, BitVec.toNat_ofNat]
  omega

/-- A byte's value is its own clamp. -/
@[simp] theorem clampByte_toNat (b : Byte) : clampByte (b.toNat : Int) = b := by
  have := b.isLt
  rw [clampByte_eq_iff]
  omega

theorem clampByte_of_byte {v : Int} (h0 : 0 ≤ v) (h255 : v ≤ 255) :
    clampByte v = BitVec.ofInt 8 v := by
  rw [clampByte, if_neg (by omega), if_neg (by omega)]

theorem clampByte_toNat_mono {v₁ v₂ : Int} (h : v₁ ≤ v₂) :
    (clampByte v₁).toNat ≤ (clampByte v₂).toNat := by
  have h₁ := clampByte_toNat_cast v₁
  have h₂ := clampByte_toNat_cast v₂
  omega

/-! ### The Saturation Table (40_saturation.md R120, R121, R126) -/

/-- What a look into the table can give, and when. -/
theorem SAT_eq_some_iff {v : Int} {b : Byte} :
    SAT v = some b ↔ (-278 ≤ v ∧ v ≤ 535) ∧ clampByte v = b :=
  Option.ite_none_right_eq_some.trans (and_congr_right fun _ => Option.some_inj)

theorem SAT_of_domain {v : Int} (hlo : -278 ≤ v) (hhi : v ≤ 535) : SAT v = some (clampByte v) :=
  SAT_eq_some_iff.mpr ⟨⟨hlo, hhi⟩, rfl⟩

theorem SAT_of_not_domain {v : Int} (h : ¬ (-278 ≤ v ∧ v ≤ 535)) : SAT v = none := if_neg h

/-- Settles O35: inside the domain the table is the clamp, whose value is `max 0 (min 255 v)`. -/
theorem saturationTable : Obligations.SaturationTable := by
  refine fun v => ⟨fun ⟨hlo, hhi⟩ => ⟨clampByte v, SAT_of_domain hlo hhi, ?_⟩, SAT_of_not_domain⟩
  rw [clampByte_toNat_cast]
  omega

/-- Settles O37: each law of the table is the same law of the clamp. -/
theorem saturationLaws : Obligations.SaturationLaws := by
  refine ⟨fun v h0 h255 => ?_, fun v₁ v₂ b₁ b₂ hle h₁ h₂ => ?_, fun v b h => ?_⟩
  · rw [SAT_of_domain (by omega) (by omega), clampByte_of_byte h0 h255]
  · obtain ⟨-, rfl⟩ := SAT_eq_some_iff.mp h₁
    obtain ⟨-, rfl⟩ := SAT_eq_some_iff.mp h₂
    exact clampByte_toNat_mono hle
  · obtain ⟨-, rfl⟩ := SAT_eq_some_iff.mp h
    have hbyte := (clampByte v).isLt
    refine ⟨clampByte_eq_zero_iff, clampByte_eq_255_iff, ?_⟩
    rw [SAT_of_domain (by omega) (by omega), clampByte_toNat]

/-! ### The Saturation ROM (40_saturation.md R123) -/

/-- The ROM holds the clamp, its index 278 above the argument. -/
theorem lut_eq_clampByte (i : Fin 814) : lut i = clampByte ((i.val : Int) - 278) := by
  rw [lut, eq_comm]
  split
  · exact clampByte_eq_zero_iff.mpr (by omega)
  · split
    · rw [clampByte_eq_iff, BitVec.toNat_ofNat]
      omega
    · exact clampByte_eq_255_iff.mpr (by omega)

theorem SAT_eq_lut (i : Fin 814) : SAT ((i.val : Int) - 278) = some (lut i) := by
  rw [lut_eq_clampByte, SAT_of_domain (by omega) (by omega)]

theorem romEntry_of_lt {i : BitVec 10} (h : i.toNat < 814) :
    romEntry i = some (lut ⟨i.toNat, h⟩) := dif_pos h

theorem romEntry_of_le {i : BitVec 10} (h : 814 ≤ i.toNat) : romEntry i = none :=
  dif_neg (Nat.not_lt.mpr h)

/-- The ten bits of the index hold every argument's position. -/
theorem toNat_romIndex {v : Int} (hlo : -278 ≤ v) (hhi : v ≤ 535) :
    ((BitVec.ofNat 10 (v + 278).toNat).toNat : Int) = v + 278 := by
  rw [BitVec.toNat_ofNat]
  omega

theorem SAT_eq_romEntry {v : Int} (hlo : -278 ≤ v) (hhi : v ≤ 535) :
    SAT v = romEntry (BitVec.ofNat 10 (v + 278).toNat) := by
  have hindex := toNat_romIndex hlo hhi
  rw [romEntry_of_lt (by omega), ← SAT_eq_lut, hindex, Int.add_sub_cancel]

/-- Settles O36: every entry is the clamp at its argument, and a 10-bit index below 814 is an entry's
own. -/
theorem saturationRomContents : Obligations.SaturationRomContents := by
  refine ⟨fun i => ⟨SAT_eq_lut i, fun h => ?_, fun h278 h533 => ?_, fun h => ?_⟩,
    fun _ h => romEntry_of_lt h, fun _ h => romEntry_of_le h, fun _ hlo hhi => SAT_eq_romEntry hlo hhi⟩
  · rw [lut_eq_clampByte, clampByte_eq_zero_iff]
    omega
  · have hvalue := clampByte_toNat_cast ((i.val : Int) - 278)
    rw [lut_eq_clampByte]
    omega
  · rw [lut_eq_clampByte, clampByte_eq_255_iff]
    omega

/-! ### The numerators and their division (41_pixel_datapath.md R140, R146) -/

theorem redNum_range (y v : Byte) : -57120 ≤ redNum y v ∧ redNum y v ≤ 123165 := by
  have := y.isLt
  have := v.isLt
  rw [redNum, lumaOffset, chromaOffset]
  omega

theorem greenNum_range (y u v : Byte) : -43884 ≤ greenNum y u v ∧ greenNum y u v ≤ 110646 := by
  have := y.isLt
  have := u.isLt
  have := v.isLt
  rw [greenNum, lumaOffset, chromaOffset, chromaOffset]
  omega

theorem blueNum_range (y u : Byte) : -70944 ≤ blueNum y u ∧ blueNum y u ≤ 136881 := by
  have := y.isLt
  have := u.isLt
  rw [blueNum, lumaOffset, chromaOffset]
  omega

/-- Truncating division by a positive divisor is monotone, so a numerator's ends give its quotient's. -/
theorem tdiv_mono {d n m : Int} (hd : 0 < d) (h : n ≤ m) : tdiv n d ≤ tdiv m d := by
  rw [tdiv, tdiv]
  split
  case isTrue hn =>
    rw [if_pos (hn.trans h)]
    exact Int.ediv_le_ediv hd h
  case isFalse hn =>
    split
    case isTrue hm =>
      have hneg : 0 ≤ -n / d := Int.ediv_nonneg (by omega) hd.le
      have hpos : 0 ≤ m / d := Int.ediv_nonneg hm hd.le
      omega
    case isFalse hm => exact Int.neg_le_neg (Int.ediv_le_ediv hd (Int.neg_le_neg h))

/-- A numerator between `lo` and `hi` has its quotient between theirs, which evaluate where the two are
literals. -/
theorem tdiv_range {lo hi n : Int} (h : lo ≤ n ∧ n ≤ hi) :
    tdiv lo 256 ≤ tdiv n 256 ∧ tdiv n 256 ≤ tdiv hi 256 :=
  ⟨tdiv_mono (by decide) h.1, tdiv_mono (by decide) h.2⟩

/-! ### No channel intermediate leaves the table (40_saturation.md R125) -/

theorem tdiv_redNum_range (y v : Byte) :
    -223 ≤ tdiv (redNum y v) 256 ∧ tdiv (redNum y v) 256 ≤ 481 :=
  tdiv_range (redNum_range y v)

theorem tdiv_greenNum_range (y u v : Byte) :
    -171 ≤ tdiv (greenNum y u v) 256 ∧ tdiv (greenNum y u v) 256 ≤ 432 :=
  tdiv_range (greenNum_range y u v)

theorem tdiv_blueNum_range (y u : Byte) :
    -277 ≤ tdiv (blueNum y u) 256 ∧ tdiv (blueNum y u) 256 ≤ 534 :=
  tdiv_range (blueNum_range y u)

/-- Settles O38: the quotients' ranges lie inside the domain, where the table is the clamp PIXEL
uses. -/
theorem channelIntermediatesStayInTheTable : Obligations.ChannelIntermediatesStayInTheTable := by
  refine ⟨fun y u v => ?_, by decide, by decide⟩
  have red := tdiv_redNum_range y v
  have green := tdiv_greenNum_range y u v
  have blue := tdiv_blueNum_range y u
  exact ⟨red, green, blue, SAT_of_domain (by omega) (by omega), SAT_of_domain (by omega) (by omega),
    SAT_of_domain (by omega) (by omega)⟩

end Sys2Proof.Machine

namespace Sys2Proof.Machine

/-! ### The division realisations (41_pixel_datapath.md R145, R147) -/

/-- The model's division is the core library's truncating one (00_scope.md R8). -/
theorem tdiv_eq_intTdiv (n d : Int) : tdiv n d = Int.tdiv n d := by
  rw [tdiv]
  split
  case isTrue hn => exact (Int.tdiv_eq_ediv_of_nonneg hn).symm
  case isFalse hn =>
    rw [← Int.tdiv_eq_ediv_of_nonneg (by omega), Int.neg_tdiv, neg_neg]

theorem tdiv_of_nonneg {n : Int} (d : Int) (hn : 0 ≤ n) : tdiv n d = n / d := if_pos hn

theorem tdiv_nonpos {n d : Int} (hd : 0 < d) (hn : n ≤ 0) : tdiv n d ≤ 0 := by
  calc tdiv n d ≤ tdiv 0 d := tdiv_mono hd hn
    _ = 0 := by rw [tdiv_of_nonneg d le_rfl, Int.zero_ediv]

/-- The two quotients differ only below 0, where both clamp to 0. -/
theorem clampByte_tdiv_eq_clampByte_ediv {d : Int} (hd : 0 < d) (n : Int) :
    clampByte (tdiv n d) = clampByte (n / d) := by
  obtain hn | hn := le_total 0 n
  · rw [tdiv_of_nonneg d hn]
  · rw [clampByte_eq_zero_iff.mpr (tdiv_nonpos hd hn),
      clampByte_eq_zero_iff.mpr (Int.ediv_nonpos_of_nonpos_of_neg hn hd)]

/-- The threshold form of the floor quotient's clamp: no division, two comparisons and a shift. -/
theorem clampByte_ediv_256 (n : Int) :
    clampByte (n / 256) =
      if n < 0 then 0#8 else if n ≥ 65536 then 255#8 else BitVec.ofNat 8 (n.toNat >>> 8) := by
  split
  · exact clampByte_eq_zero_iff.mpr (by omega)
  · split
    · exact clampByte_eq_255_iff.mpr (by omega)
    · rw [clampByte_eq_iff, BitVec.toNat_ofNat, Nat.shiftRight_eq_div_pow]
      omega

/-- Settles O39: each numerator is linear in its bytes, so their ends bound it;
blue reaches both. -/
theorem numeratorRanges : Obligations.NumeratorRanges :=
  ⟨fun y u v => ⟨redNum_range y v, greenNum_range y u v, blueNum_range y u⟩,
    by decide, by decide, by decide, by decide, by decide⟩

/-- A channel of PIXEL, from its numerator. -/
theorem clampByte_tdiv_toNat_cast (n : Int) :
    ((clampByte (tdiv n 256)).toNat : Int) = max 0 (min 255 (Int.tdiv n 256)) := by
  rw [clampByte_toNat_cast, tdiv_eq_intTdiv]

/-- Green's two subtractions are the model's sum of two negative products. -/
theorem greenNum_eq_sub (ys us vs : Byte) :
    greenNum ys us vs = 298 * lumaOffset ys - 208 * chromaOffset vs - 100 * chromaOffset us := by
  rw [greenNum]
  ring

/-- Settles O40: every channel is the clamped quotient of its numerator, and only green's
numerator is written otherwise in the model. -/
theorem pixelIsTheClampedMatrixProduct : Obligations.PixelIsTheClampedMatrixProduct := by
  intro ys us vs
  refine ⟨clampByte_tdiv_toNat_cast (redNum ys vs), ?_,
    clampByte_tdiv_toNat_cast (blueNum ys us)⟩
  exact (clampByte_tdiv_toNat_cast (greenNum ys us vs)).trans (by rw [greenNum_eq_sub]; rfl)

/-- Settles O41: both quotients lie in the table's domain, where it is the clamp. -/
theorem divisionRealisationsAgree : Obligations.DivisionRealisationsAgree := by
  intro n hlo hhi
  have hquot : -277 ≤ tdiv n 256 ∧ tdiv n 256 ≤ 534 := tdiv_range ⟨hlo, hhi⟩
  have htrunc : SAT (tdiv n 256) = some (clampByte (n / 256)) := by
    rw [SAT_of_domain (by omega) (by omega), clampByte_tdiv_eq_clampByte_ediv (by decide)]
  have hfloor : SAT (n / 256) = some (clampByte (n / 256)) := SAT_of_domain (by omega) (by omega)
  exact ⟨htrunc.trans hfloor.symm, by rw [htrunc, clampByte_ediv_256]⟩

/-! ### The packings (41_pixel_datapath.md R148 to R151) -/

theorem toNat_append_byte {n : Nat} (v : BitVec n) (b : Byte) :
    (v ++ b).toNat = v.toNat * 2 ^ 8 + b.toNat := by
  rw [BitVec.toNat_append, ← Nat.shiftLeft_add_eq_or_of_lt b.isLt, Nat.shiftLeft_eq]

theorem byteOf_packSp (c : Channels) :
    byteOf (packSp c) 0 = c.r ∧ byteOf (packSp c) 1 = c.g ∧
    byteOf (packSp c) 2 = c.b ∧ byteOf (packSp c) 3 = 0#8 :=
  byteOf_append 0#8 c.b c.g c.r

theorem byteOf_packFp (c : Channels) :
    byteOf (packFp c) 0 = c.b ∧ byteOf (packFp c) 1 = c.g ∧
    byteOf (packFp c) 2 = c.r ∧ byteOf (packFp c) 3 = 0#8 :=
  byteOf_append 0#8 c.r c.g c.b

/-- A word of three bytes under a zero top byte, as a number. -/
theorem toNat_threeBytes (b2 b1 b0 : Byte) :
    (0#8 ++ b2 ++ b1 ++ b0).toNat = b2.toNat * 2 ^ 16 + b1.toNat * 2 ^ 8 + b0.toNat := by
  rw [toNat_append_byte, toNat_append_byte, toNat_append_byte, BitVec.toNat_zero]
  ring

/-- Settles O42: both packings are three bytes under a zero top byte. -/
theorem packingByteLayout : Obligations.PackingByteLayout := by
  intro c
  obtain ⟨-, -, -, sp3⟩ := byteOf_packSp c
  obtain ⟨-, -, -, fp3⟩ := byteOf_packFp c
  exact ⟨toNat_threeBytes c.b c.g c.r, toNat_threeBytes c.r c.g c.b, sp3, fp3⟩

/-- The SP word from the FP word's bytes, the lowest and the third exchanged. -/
theorem packSp_eq_exchange_packFp (c : Channels) :
    packSp c = byteOf (packFp c) 3 ++ byteOf (packFp c) 0 ++ byteOf (packFp c) 1 ++
      byteOf (packFp c) 2 := by
  obtain ⟨h0, h1, h2, h3⟩ := byteOf_packFp c
  rw [h0, h1, h2, h3, packSp]

theorem packSp_eq_packFp_iff (c : Channels) : packSp c = packFp c ↔ c.r = c.b := by
  constructor
  · intro h
    obtain ⟨sp0, -, -, -⟩ := byteOf_packSp c
    obtain ⟨fp0, -, -, -⟩ := byteOf_packFp c
    rw [← sp0, h, fp0]
  · intro h
    rw [packSp, packFp, h]

/-- Settles O43: the law holds of any three channels, so of PIXEL's. -/
theorem channelOrderLaw : Obligations.ChannelOrderLaw := fun ys us vs =>
  ⟨packSp_eq_exchange_packFp (pixel ys us vs), packSp_eq_packFp_iff (pixel ys us vs)⟩

end Sys2Proof.Machine

namespace Sys2Proof.Machine

/-! ### The first failing check (42_command_accept.md R173 to R180; 60_exceptions.md R252) -/

/-- Checks 2 to 8, in their order. -/
def frameChecks : List ErrCode :=
  [.zeroDim, .oddWidth, .stride, .null, .range, .align, .overlap]

theorem frameError_eq_find? (op : Op) (r : Regs) :
    frameError op r = frameChecks.find? (failing op r) := by
  unfold frameError
  split_ifs <;> simp [frameChecks, failing, *]

/-- The checks' codes rise in their order (60_exceptions.md R250). -/
theorem frameChecks_pairwise_code :
    frameChecks.Pairwise fun e e' => e.code.toNat < e'.code.toNat := by
  decide

theorem mem_frameChecks_of_failing {op : Op} {r : Regs} {e : ErrCode} (h : failing op r e = true) :
    e ∈ frameChecks := by
  cases e with
  | ok | badCmd | bus => cases h
  | zeroDim | oddWidth | stride | null | range | align | overlap => decide

/-- No check before the reported one fails. -/
theorem not_failing_of_lower {op : Op} {r : Regs} {e e' : ErrCode} (h : frameError op r = some e)
    (hlt : e'.code.toNat < e.code.toNat) : failing op r e' = false := by
  rw [frameError_eq_find?, List.find?_eq_some_iff_append] at h
  obtain ⟨-, before, after, hsplit, hpass⟩ := h
  by_contra hfail
  rw [Bool.not_eq_false] at hfail
  have hmem := mem_frameChecks_of_failing hfail
  have hrise := frameChecks_pairwise_code
  rw [hsplit, List.mem_append, List.mem_cons] at hmem
  rw [hsplit, List.pairwise_append, List.pairwise_cons] at hrise
  obtain ⟨-, ⟨hafter, -⟩, -⟩ := hrise
  rcases hmem with hmem | rfl | hmem
  · simpa [hfail] using hpass e' hmem
  · exact absurd hlt (lt_irrefl _)
  · exact absurd hlt (hafter e' hmem).asymm

/-- No check comes before check 1 (42_command_accept.md R173). -/
theorem not_checkFails_below_badCmd {e : ErrCode} (c : Word) (r : Regs)
    (hlt : e.code.toNat < ErrCode.badCmd.code.toNat) : ¬ checkFails c r e := by
  cases e with
  | ok => exact id
  | _ => exact absurd hlt (by decide)

/-- No check before the reported one fails, in the words of the spec. -/
theorem not_checkFails_of_lower {c : Word} {r : Regs} {e e' : ErrCode}
    (h : commandError c r = some e) (hlt : e'.code.toNat < e.code.toNat) : ¬ checkFails c r e' := by
  cases ho : opOf c with
  | none =>
    rw [commandError, ho] at h
    cases h
    exact not_checkFails_below_badCmd c r hlt
  | some op =>
    rw [commandError, ho] at h
    rw [checkFails_iff_failing ho, not_failing_of_lower h hlt]
    exact Bool.false_ne_true

/-- The codes number the results, so no two share one (60_exceptions.md R250). -/
theorem ErrCode.ofNat_code (e : ErrCode) : ErrCode.ofNat e.code.toNat = e := by
  cases e <;> rfl

/-- The reported check is the failing one of lowest code. -/
theorem commandError_eq_some_iff {c : Word} {r : Regs} {e : ErrCode} :
    commandError c r = some e ↔
      checkFails c r e ∧ ∀ e' : ErrCode, e'.code.toNat < e.code.toNat → ¬ checkFails c r e' := by
  constructor
  · exact fun h => ⟨checkFails_of_commandError h, fun e' => not_checkFails_of_lower h⟩
  · rintro ⟨hfail, hfirst⟩
    cases h : commandError c r with
    | none => exact absurd hfail (commandError_eq_none_iff.mp h e)
    | some e₀ =>
      have hle := not_lt.mp fun hlt => hfirst e₀ hlt (checkFails_of_commandError h)
      have hge := not_lt.mp fun hlt => not_checkFails_of_lower h hlt hfail
      rw [← ErrCode.ofNat_code e, ← ErrCode.ofNat_code e₀, hge.antisymm hle]

/-- Settles O8: the reported check is the lowest that fails, and one is reported unless none does. -/
theorem firstFailingCheckIsReported : Obligations.FirstFailingCheckIsReported := fun _ _ =>
  ⟨fun _ => commandError_eq_some_iff, commandError_eq_none_iff, rfl⟩

/-! ### The write of a command word (42_command_accept.md R171, R181, R182) -/

theorem hostCommand_dropped {s : State} (c : Word) (hb : s.regs.busy = true) :
    hostCommand c s = acknowledge s := by
  rw [hostCommand, issueCommand, if_pos hb]

theorem hostCommand_rejected {c : Word} {s : State} {e : ErrCode} (hb : s.regs.busy = false)
    (he : commandError c s.regs = some e) :
    hostCommand c s = acknowledge (endCommand e (setAside s)) := by
  rw [hostCommand, issueCommand, hb, he]
  rfl

theorem hostCommand_started {c : Word} {s : State} (hb : s.regs.busy = false)
    (hc : commandError c s.regs = none) :
    hostCommand c s = acknowledge (startFrame c (setAside s)) := by
  rw [hostCommand, issueCommand, hb, hc]
  rfl

/-- The write of a word to CMD is that word as a command (30_encoding.md R90). -/
theorem exec_wrCmd (c : Word) (s : State) : exec (.wrCmd c) s = .next (hostCommand c s) := rfl

theorem exec_illegalCommand (c : Word) (s : State) :
    exec (.illegalCommand c) s = .next (hostCommand c s) := rfl

/-- A command word, whatever it decodes to, is the write of it to CMD (30_encoding.md R90). -/
theorem exec_decode_command (c : Word) (s : State) :
    exec (decode (.command c)) s = .next (hostCommand c s) := by
  by_cases hsp : c = 1#32
  · rw [hsp]
    exact exec_convertOf .sp s
  by_cases hfp : c = 2#32
  · rw [hfp]
    exact exec_convertOf .fp s
  rw [decode_command_of_illegal hsp hfp, exec_illegalCommand]

/-- Settles O12: both forms of a command leave a busy machine as it is; CMD stores nothing to read. -/
theorem commandWhileBusyIsDropped : Obligations.CommandWhileBusyIsDropped := by
  refine ⟨fun c s hb => ?_, fun _ => rfl⟩
  rw [exec_wrCmd, exec_decode_command, hostCommand_dropped c hb]
  exact ⟨rfl, rfl⟩

/-- Settles O10: both forms of a command end it with the reported check. -/
theorem rejectedCommandReportsItsCheck : Obligations.RejectedCommandReportsItsCheck := by
  intro c s e hb hfail hfirst
  rw [exec_wrCmd, exec_decode_command,
    hostCommand_rejected hb (commandError_eq_some_iff.mpr ⟨hfail, hfirst⟩), endCommand,
    setAside_regs]
  exact ⟨rfl, rfl⟩

/-- A word whose check 1 fails is reported for it, whatever the parameters (42_command_accept.md
R173). -/
theorem commandError_of_badCmd {c : Word} {r : Regs} (h : checkFails c r .badCmd) :
    commandError c r = some .badCmd :=
  commandError_eq_some_iff.mpr ⟨h, fun _ => not_checkFails_below_badCmd c r⟩

/-- Settles O11: check 1 is the first, so an illegal word is reported for it. -/
theorem illegalCommandWordIsReported : Obligations.IllegalCommandWordIsReported := by
  intro c s hb hbad
  rw [exec_illegalCommand, exec_wrCmd, hostCommand_rejected hb (commandError_of_badCmd hbad)]
  exact ⟨rfl, rfl, rfl⟩

/-- Settles O9: the state a started frame begins in, and the pair step its operation enables. -/
theorem passingCommandStartsTheFrame : Obligations.PassingCommandStartsTheFrame := by
  intro op s hb hpass t
  have started : exec (convertOf op) s = .next t := by
    rw [exec_convertOf_started hb (frameError_of_no_check_fails hpass)]
    cases op <;> rfl
  refine ⟨started, ?_, ?_⟩
  · rw [exec_wrCmd, ← exec_convertOf, started]
  · cases op <;> rfl

end Sys2Proof.Machine

namespace Sys2Proof.Machine

/-! ### ADVANCE, case by case (43_convert_sp.md R194) -/

theorem advance_of_frame_end {s : State} (hx : s.w.x + 2 = s.w.width)
    (hj : s.w.j + 1 = s.w.height) : advance s = complete { s with w := nextRow s.w } := by
  rw [advance, if_pos hx, if_pos hj]

theorem advance_of_row_end {s : State} (hx : s.w.x + 2 = s.w.width)
    (hj : s.w.j + 1 ≠ s.w.height) : advance s = { s with w := nextRow s.w } := by
  rw [advance, if_pos hx, if_neg hj]

theorem advance_of_inside_row {s : State} (hx : s.w.x + 2 ≠ s.w.width) :
    advance s = { s with w := { s.w with x := s.w.x + 2 } } := by
  rw [advance, if_neg hx]

/-! ### CONVERT.SP and the V plane's registers (42_command_accept.md R172, 43_convert_sp.md R190) -/

/-- The state with other values in w.CS1 and w.CP1. -/
def State.withV (cs cp : Word) (s : State) : State :=
  { s with w := { s.w with cs1 := cs, cp1 := cp } }

/-- Two states that differ in w.CS1 and w.CP1 at most. -/
def SameButV (t u : State) : Prop := u = t.withV u.w.cs1 u.w.cp1

section WithV

variable {cs cp : Word} {s t : State}

theorem pairWords_withV (op : Op) (p : PairPlan) (cs cp : Word) (s : State) :
    pairWords op p (s.withV cs cp) = pairWords op p s := rfl

/-- A word write lands or stops alike, whatever w.CS1 and w.CP1 hold. -/
theorem memWrite_withV (k a : Nat) (v : Word) (cs cp : Word) (s : State) :
    memWrite k a v (s.withV cs cp) = (memWrite k a v s).map (State.withV cs cp) := by
  unfold memWrite
  split_ifs
  · rfl
  · rfl
  · rw [show (s.withV cs cp).platform = s.platform from rfl]
    rcases busAnswer s.platform a 4 .write with _ | (_ | _) <;> rfl

theorem stopPair_withV {e : EngineStop} (cs cp : Word) (h : stopPair e s = .next t) :
    ∃ u, stopPair e (s.withV cs cp) = .next u ∧ SameButV t u := by
  cases e with
  | busError a => cases h; exact ⟨_, rfl, rfl⟩
  | noAnswer => cases h; exact ⟨_, rfl, rfl⟩
  | fault f => cases h

theorem advance_withV (cs cp : Word) (s : State) :
    SameButV (advance s) (advance (s.withV cs cp)) := by
  rcases advance_cases s with ⟨hx, hj, h⟩ | ⟨hx, hj, h⟩ | ⟨hx, h⟩ <;> rw [h]
  · rw [advance_of_frame_end (s := s.withV cs cp) hx hj]
    rfl
  · rw [advance_of_row_end (s := s.withV cs cp) hx hj]
    rfl
  · rw [advance_of_inside_row (s := s.withV cs cp) hx]
    rfl

/-- A pair step reads w.CS1 and w.CP1 through its addresses only. -/
theorem pairStep_withV {op : Op} {p : PairPlan} (cs cp : Word) (h : pairStep op p s = .next t) :
    ∃ u, pairStep op p (s.withV cs cp) = .next u ∧ SameButV t u := by
  unfold pairStep
  simp only [pairWords_withV, memWrite_withV]
  rcases pairStep_cases op p s with ⟨e, hw, h'⟩ | ⟨v, e, hw, h1, h'⟩ |
    ⟨v, e, hw, h1, h2, h'⟩ | ⟨v, hw, h1, h2, h'⟩ <;> rw [h'] at h
  · rw [hw]
    exact stopPair_withV cs cp h
  · simp only [hw, h1, Except.map]
    exact stopPair_withV cs cp h
  · simp only [hw, h1, Except.map, memWrite_withV, h2]
    exact stopPair_withV cs cp h
  · cases h
    simp only [hw, h1, Except.map, memWrite_withV, h2]
    exact ⟨_, rfl, advance_withV cs cp _⟩

end WithV

/-- With no command running, or one that hangs, the engine's turn does nothing. -/
theorem engineTurn_of_not_running {s : State} (h : ¬ (s.regs.busy = true ∧ s.hung = false)) :
    engineTurn s = .next s := by
  rcases engineTurn_cases s with ⟨hb, hh, -⟩ | ⟨hb, hh, -⟩ | ⟨-, h'⟩
  · exact absurd ⟨hb, hh⟩ h
  · exact absurd ⟨hb, hh⟩ h
  · exact h'

/-- CONVERT.SP's addresses are none of the V plane's, so its turn reads neither w.CS1 nor w.CP1. -/
theorem engineTurn_withV {s t : State} (cs cp : Word) (ho : runningOp s.w = some .sp)
    (h : engineTurn s = .next t) :
    ∃ u, engineTurn (s.withV cs cp) = .next u ∧ SameButV t u := by
  by_cases hrun : s.regs.busy = true ∧ s.hung = false
  · obtain ⟨hb, hh⟩ := hrun
    rw [engineTurn_running hb hh ho] at h
    rw [engineTurn_running (s := s.withV cs cp) hb hh ho]
    exact pairStep_withV cs cp h
  · rw [engineTurn_of_not_running hrun] at h
    cases h
    exact ⟨_, engineTurn_of_not_running hrun, rfl⟩

/-- The parameter registers with other values in C1_STRIDE and C1_BASE. -/
def Regs.withVPlane (cs cb : Word) (r : Regs) : Regs := { r with c1Stride := cs, c1Base := cb }

theorem frameError_sp_withVPlane (cs cb : Word) (r : Regs) :
    frameError .sp (r.withVPlane cs cb) = frameError .sp r :=
  frameError_congr rfl rfl rfl rfl nofun rfl rfl nofun rfl

/-- The state with other values in C1_STRIDE and C1_BASE. -/
def State.withVPlane (cs cb : Word) (s : State) : State :=
  { s with regs := s.regs.withVPlane cs cb }

/-- Acceptance of CONVERT.SP copies C1_STRIDE and C1_BASE and reads them for nothing else. -/
theorem hostCommand_sp_withVPlane (cs cb : Word) (s : State) :
    SameButV ((hostCommand 1#32 s).withVPlane cs cb) (hostCommand 1#32 (s.withVPlane cs cb)) := by
  have hchecks : commandError 1#32 (s.withVPlane cs cb).regs = commandError 1#32 s.regs :=
    frameError_sp_withVPlane cs cb s.regs
  cases hb : s.regs.busy with
  | true =>
    rw [hostCommand_dropped _ hb, hostCommand_dropped (s := s.withVPlane cs cb) _ hb]
    rfl
  | false =>
    cases hc : commandError 1#32 s.regs with
    | some e =>
      rw [hostCommand_rejected hb hc,
        hostCommand_rejected (s := s.withVPlane cs cb) hb (hchecks.trans hc)]
      rfl
    | none =>
      rw [hostCommand_started hb hc,
        hostCommand_started (s := s.withVPlane cs cb) hb (hchecks.trans hc)]
      rfl

/-- Settles O14: the checks, the frame law and the acceptance read no V plane, nor do the pair
steps' addresses. -/
theorem semiPlanarIgnoresTheVPlane : Obligations.SemiPlanarIgnoresTheVPlane := by
  intro cs cb
  refine ⟨fun r m j x => ⟨frameError_sp_withVPlane cs cb r, rfl⟩, fun s t h => ?_,
    fun s t ho h => engineTurn_withV cs cb ho h⟩
  cases h
  exact ⟨_, rfl, hostCommand_sp_withVPlane cs cb s⟩

end Sys2Proof.Machine

namespace Sys2Proof.Machine

/-! ### The bytes an engine turn changes (42_command_accept.md R184, 20_memory.md R62) -/

theorem stopPair_mem {e : EngineStop} {s t : State} (h : stopPair e s = .next t) :
    t.mem = s.mem := by
  cases e with
  | busError a => cases h; rfl
  | noAnswer => cases h; rfl
  | fault f => cases h

/-- A word write of the engine changes its four bytes at most, whatever the races. -/
theorem readByte_engineWrite_ne {k a c : Nat} {v : Word} {s : State} (hc : c < a ∨ a + 4 ≤ c) :
    readByte (engineWrite k a v s).mem c = readByte s.mem c := readByte_writeWord_ne hc

/-- A pair step changes the bytes of its two words at most, wherever it stops. -/
theorem readByte_pairStep_ne {op : Op} {p : PairPlan} {s t : State} {c : Nat}
    (h : pairStep op p s = .next t) (hA : c < p.dstA ∨ p.dstA + 4 ≤ c)
    (hB : c < p.dstB ∨ p.dstB + 4 ≤ c) : readByte t.mem c = readByte s.mem c := by
  rcases pairStep_cases op p s with ⟨e, -, h'⟩ | ⟨v, e, -, -, h'⟩ | ⟨v, e, -, -, -, h'⟩ |
    ⟨v, -, -, -, h'⟩ <;> rw [h'] at h
  · rw [stopPair_mem h]
  · rw [stopPair_mem h]
  · rw [stopPair_mem h, readByte_engineWrite_ne hA]
  · cases h
    rw [advance_mem, readByte_engineWrite_ne hB, readByte_engineWrite_ne hA]

/-- Settles O50: both words of the position's pair lie in the destination. -/
theorem engineWritesOnlyTheDestination : Obligations.EngineWritesOnlyTheDestination := by
  intro s t a hinv h hout
  by_cases hrun : s.regs.busy = true ∧ s.hung = false
  · obtain ⟨hb, hh⟩ := hrun
    obtain ⟨op, r, j, x, R, -⟩ := hinv.runsAt hb
    have htwo := R.two_columns
    obtain ⟨hlo, -⟩ := R.dst_bounds
    obtain ⟨-, hhi, -⟩ := R.passed.dst_inside (x := x + 1) R.row (by omega)
    have hoff : a < r.dstBase.toNat ∨
        r.dstBase.toNat + 4 * r.width.toNat * r.height.toNat ≤ a := by
      have := hout hb
      rwa [R.working] at this
    rw [dstAddr_succ] at hhi
    rw [R.engineTurn_eq hh] at h
    refine readByte_pairStep_ne h (show a < dstAddr r j x ∨ dstAddr r j x + 4 ≤ a by omega) ?_
    change a < dstAddr r j (x + 1) ∨ dstAddr r j (x + 1) + 4 ≤ a
    rw [dstAddr_succ]
    omega
  · rw [engineTurn_of_not_running hrun] at h
    cases h
    rfl

end Sys2Proof.Machine

namespace Sys2Proof.Machine

/-! ### The pair step of a running frame (43_convert_sp.md R192, 44_convert_fp.md R212) -/

/-- The plan of a running frame's pair step, by the parameters it latched. -/
theorem FrameInv.plan_eq {op : Op} {w : Working} (h : FrameInv op w) (ho : runningOp w = some op) :
    planOf op w = planAt op (latchedParams w) w.j.toNat w.x.toNat := by
  obtain ⟨hw, hchecks⟩ := workingAt_of_frameInv ho h
  have hplan := (passed_of_frameError hchecks).plan (j := w.j.toNat) (x := w.x.toNat)
    (by cases op <;> exact h.row) (by cases op <;> exact h.column)
  rw [← hw] at hplan
  rw [hplan]
  cases op <;> rfl

section PairStep

variable {op : Op} {r : Regs} {j x : Nat} {s : State}

/-- An admitted write of a word of the destination lands. -/
theorem Passed.memWrite_dst (P : Passed op r) (hj : j < r.height.toNat) (hx : x < r.width.toNat)
    (ha : BusAccess.admitted s.platform ⟨dstAddr r j x, 4, .write⟩) (k : Nat) (v : Word) :
    memWrite k (dstAddr r j x) v s = .ok (engineWrite k (dstAddr r j x) v s) := by
  have hlt := P.dst_lt hj hx
  exact memWrite_admitted (P.dst_aligned hj hx) (show _ < 2 ^ 32 by omega) ha

/-- A pair step whose accesses are all admitted writes both words and ADVANCEs, whatever the
registers and memory hold. -/
theorem Passed.pairStep_of_admitted (P : Passed op r) (hj : j < r.height.toNat)
    (hx : x < r.width.toNat) (he : x % 2 = 0) (ha : admitsPair op s.platform r j x) :
    pairStep op (planAt op r j x) s = .next (advance (pairWritten op r j x s)) := by
  have htwo := P.two_columns hx he
  have words := pairWords_at P hj hx he fun b hb => ha b (List.mem_of_mem_take hb)
  rw [admitsPair, pairAccesses_eq] at ha
  have first := P.memWrite_dst hj hx (ha _ (by simp [planAt])) 4 (seenWord op r s j x)
  have second := P.memWrite_dst (x := x + 1)
    (s := engineWrite 4 (dstAddr r j x) (seenWord op r s j x) s) hj (by omega)
    (ha _ (by simp [planAt])) 5 (seenWord op r s j (x + 1))
  rw [pairStep, words]
  simp only [planAt, first, second]
  rfl

/-- What the two writes of a pair leave: the words apart, neither sees the other's. -/
theorem pairWritten_eq (he : x % 2 = 0) : pairWritten op r j x s =
    { s with
      mem := writeWord (writeWord s.mem (dstAddr r j x) (landedWord op r s j x))
        (dstAddr r j (x + 1)) (landedWord op r s j (x + 1))
      unseen :=
        ⟨dstAddr r j (x + 1), seenWord op r s j (x + 1), readWord s.mem (dstAddr r j (x + 1))⟩ ::
        ⟨dstAddr r j x, seenWord op r s j x, readWord s.mem (dstAddr r j x)⟩ :: s.unseen
      freeCount := s.freeCount + 1 } := by
  have apart : dstAddr r j x + 4 ≤ dstAddr r j (x + 1) := (dstAddr_succ r j x).ge
  have hA : racedWord 4 (dstAddr r j x) (seenWord op r s j x) s = landedWord op r s j x := by
    rw [landedWord, he]
  have hB : racedWord 5 (dstAddr r j (x + 1)) (seenWord op r s j (x + 1))
      (engineWrite 4 (dstAddr r j x) (seenWord op r s j x) s) = landedWord op r s j (x + 1) := by
    rw [racedWord_after_engineWrite (.inr apart), landedWord, show (x + 1) % 2 = 1 by omega]
  have hformer : readWord (writeWord s.mem (dstAddr r j x) (landedWord op r s j x))
      (dstAddr r j (x + 1)) = readWord s.mem (dstAddr r j (x + 1)) :=
    readWord_writeWord_ne (.inr apart)
  rw [pairWritten, engineWrite, hB, engineWrite_mem, hA, hformer]
  rfl

/-- With no byte of the pair raced, both words are the frame law's and land whole. -/
theorem Passed.words_of_unraced (P : Passed op r) (hj : j < r.height.toNat)
    (hx : x < r.width.toNat) (he : x % 2 = 0) (hu : ∀ b ∈ pairAccesses op r j x, b.unraced s) :
    ∀ i, i < 2 → seenWord op r s j (x + i) = frameWord op r s.mem j (x + i) ∧
      landedWord op r s j (x + i) = frameWord op r s.mem j (x + i) := by
  have htwo := P.two_columns hx he
  obtain ⟨seenA, seenB⟩ := seenWord_of_unraced he fun b hb => hu b (List.mem_of_mem_take hb)
  rw [pairAccesses_eq] at hu
  have landedA := landedWord_of_unraced P hj hx (hu _ (by simp [planAt]))
  have landedB := landedWord_of_unraced P hj (x := x + 1) (by omega) (hu _ (by simp [planAt]))
  intro i hi
  obtain rfl | rfl : i = 0 ∨ i = 1 := by omega
  · exact ⟨seenA, landedA.trans seenA⟩
  · exact ⟨seenB, landedB.trans seenB⟩

end PairStep

/-- Settles O46: the running frame's pair step at its position, its two writes in closed form. -/
theorem pairStepWritesItsTwoWords : Obligations.PairStepWritesItsTwoWords := by
  intro op s hb ho hf hh r j x half
  have P : Passed op (latchedParams s.w) := passed_of_frameError hf.checked
  refine ⟨fun ha => ?_, P.words_of_unraced hf.row hf.column hf.columnEven⟩
  rw [engineTurn_running hb hh ho, hf.plan_eq ho,
    P.pairStep_of_admitted hf.row hf.column hf.columnEven ha, pairWritten_eq hf.columnEven]

/-! ### ADVANCE in numbers (43_convert_sp.md R194, R195) -/

/-- A counter meets its bound as a number does, while it has not passed it. -/
theorem add_ofNat_eq_iff_toNat {a b : Half} {n : Nat} (h : a.toNat + n ≤ b.toNat) :
    a + BitVec.ofNat 16 n = b ↔ a.toNat + n = b.toNat := by
  have := b.isLt
  rw [← BitVec.toNat_inj, BitVec.toNat_add, BitVec.toNat_ofNat]
  omega

/-- A row is odd when its bit 0 is set (43_convert_sp.md R194). -/
theorem getLsbD_zero_iff_odd (j : Half) : j.getLsbD 0 = true ↔ j.toNat % 2 = 1 := by
  rw [BitVec.getLsbD, Nat.testBit_zero, decide_eq_true_eq]

/-- The working registers after a row, in numbers. -/
theorem nextRow_eq_ofNat (w : Working) : nextRow w =
    { w with
      x := 0#16
      yp := BitVec.ofNat 32 (w.yp.toNat + w.ys.toNat)
      cp0 := if w.j.toNat % 2 = 1 then BitVec.ofNat 32 (w.cp0.toNat + w.cs0.toNat) else w.cp0
      cp1 := if w.j.toNat % 2 = 1 ∧ w.op = 2#4
        then BitVec.ofNat 32 (w.cp1.toNat + w.cs1.toNat) else w.cp1
      dp := BitVec.ofNat 32 (w.dp.toNat + 4 * w.width.toNat)
      j := BitVec.ofNat 16 (w.j.toNat + 1) } := by
  have hdst : (4#32 * w.width.setWidth 32).toNat = 4 * w.width.toNat := by
    have := w.width.isLt
    rw [BitVec.toNat_mul, BitVec.toNat_setWidth, BitVec.toNat_ofNat]
    omega
  simp only [nextRow, getLsbD_zero_iff_odd, Bool.and_eq_true, beq_iff_eq, BitVec.add_def, hdst]
  rfl

/-- Settles O47: the three cases of ADVANCE, told apart by numbers. -/
theorem advanceMovesThroughTheFrame : Obligations.AdvanceMovesThroughTheFrame := by
  intro s w row hj hx heven hwidth
  have hcol : s.w.x + 2 = s.w.width ↔ s.w.x.toNat + 2 = s.w.width.toNat :=
    add_ofNat_eq_iff_toNat (show w.x.toNat + 2 ≤ w.width.toNat by omega)
  have hrow : s.w.j + 1 = s.w.height ↔ s.w.j.toNat + 1 = s.w.height.toNat :=
    add_ofNat_eq_iff_toNat hj
  have hnext : nextRow s.w = row := nextRow_eq_ofNat s.w
  refine ⟨fun hin => ?_, fun hend hmore => ?_, fun hend hlast => ?_⟩
  · rw [advance_of_inside_row (hcol.not.mpr hin.ne), BitVec.add_def]
    rfl
  · rw [advance_of_row_end (hcol.mpr hend) (hrow.not.mpr hmore.ne), hnext]
  · rw [advance_of_frame_end (hcol.mpr hend) (hrow.mpr hlast), hnext]
    rfl

/-! ### The end of a frame (43_convert_sp.md R195, R197) -/

/-- At the frame's end ADVANCE completes the command. -/
theorem RunsAt.advance_completes {op : Op} {r : Regs} {j x : Nat} {s : State}
    (R : RunsAt op r j x s) (h : (nextPos r j x).1 = r.height.toNat) :
    advance s = complete { s with w := workingAt op r (nextPos r j x).1 (nextPos r j x).2 } := by
  rw [advance_workingAt R.working R.row R.two_columns, if_pos h]

/-- The pairs of an admitted frame are admitted, in word order. -/
theorem admitsPair_of_word {op : Op} {p : List BusHole} {r : Regs} {i : Nat} (P : Passed op r)
    (ha : admitsFrame op p r) (hi : 2 * i < r.width.toNat * r.height.toNat) :
    admitsPair op p r (2 * i / r.width.toNat) (2 * i % r.width.toNat) := by
  refine ha _ _ (Nat.div_lt_of_lt_mul hi) (Nat.mod_lt _ P.widthPos) ?_
  rw [(word_of_pair i P.widthEven).2, Nat.mul_mod_right]

/-- The last admitted pair step ends the command with its whole frame written. -/
theorem FrameProgress.step_last {op : Op} {s t : State} {k : Nat} (F : FrameProgress op s k t)
    (hk : 2 * (k + 1) = s.regs.width.toNat * s.regs.height.toNat)
    (ha : admitsPair op s.platform s.regs (2 * k / s.regs.width.toNat)
      (2 * k % s.regs.width.toNat)) :
    ∃ t', step t = .next t' ∧ t'.regs = s.regs.started.ended .ok ∧
      Converted op s.regs s.mem (s.regs.width.toNat * s.regs.height.toNat) t'.mem := by
  have R := F.runs
  have P := R.passed
  have hend : (nextPos s.regs (2 * k / s.regs.width.toNat) (2 * k % s.regs.width.toNat)).1 =
      s.regs.height.toNat := by
    rw [nextPos_of_word P.widthPos R.two_columns, ← Nat.mul_add_one, hk]
    exact Nat.mul_div_cancel_left _ P.widthPos
  refine ⟨_, (step_of_inputs_nil F.inputs).trans
    (R.engineTurn_of_admitted F.answered (F.platform ▸ ha)), ?_, ?_⟩
  · rw [R.pairWritten_runsAt.advance_completes hend, ← F.regs]
    rfl
  · rw [advance_mem, ← hk]
    exact F.converted_succ

/-- The words of a converted frame, by row and column (20_memory.md R71). -/
theorem Converted.word_at {op : Op} {r : Regs} {m m' : Memory} {j x : Nat}
    (C : Converted op r m (r.width.toNat * r.height.toNat) m') (hj : j < r.height.toNat)
    (hx : x < r.width.toNat) : readWord m' (dstAddr r j x) = frameWord op r m j x := by
  have hlast := Nat.mul_le_mul_left r.width.toNat (Nat.succ_le_of_lt hj)
  have hword := C.words (r.width.toNat * j + x) (by rw [Nat.mul_succ] at hlast; omega)
  rw [Nat.mul_add_div (by omega), Nat.mul_add_mod, Nat.div_eq_of_lt hx,
    Nat.mod_eq_of_lt hx] at hword
  rw [dstAddr, Nat.mul_comm j]
  exact hword

/-- Settles O55: every pair step but the last by the progress of the frame, the last by COMPLETE. -/
theorem wholeFrameIsConverted : Obligations.WholeFrameIsConverted := by
  intro op s hin hm hb hpass hadmits r
  have hf := frameError_of_no_check_fails hpass
  have P := passed_of_frameError hf
  have hpos := Nat.mul_pos P.widthPos P.heightPos
  have heven := (Nat.dvd_of_mod_eq_zero P.widthEven).mul_right s.regs.height.toNat
  obtain ⟨k, hk⟩ : ∃ k, 2 * (k + 1) = s.regs.width.toNat * s.regs.height.toNat :=
    ⟨s.regs.width.toNat * s.regs.height.toNat / 2 - 1, by omega⟩
  have hsteps : s.regs.width.toNat * s.regs.height.toNat / 2 = k + 1 := by omega
  obtain ⟨t, hrun, F⟩ := frameProgress_of_run hin hm hf (by omega) fun i (hi : i < k) =>
    admitsPair_of_word P hadmits (by omega)
  obtain ⟨t', hstep, hregs, C⟩ := F.step_last hk (admitsPair_of_word P hadmits (by omega))
  refine ⟨_, t', exec_convertOf_started hb hf, ?_, hregs, fun j x => C.word_at, fun a ha => ?_⟩
  · rw [hsteps]
    exact (run_succ hrun).trans hstep
  · exact C.outside a (by rwa [← Nat.mul_assoc])

end Sys2Proof.Machine

namespace Sys2Proof

/-! ### Encoding what the decoder reads (30_encoding.md R94, R95; 45_register_access.md R232) -/

theorem readOf_wf (q : Reg) : (readOf q).wf = true := by
  cases q <;> rfl

theorem writeOf_wf (d : Word) (q : Reg) : (writeOf d q).wf = true := by
  cases q <;> rfl

theorem encode_readOf (q : Reg) : encode (readOf q) = readAt (offsetOf q) := by
  cases q <;> rfl

theorem encode_writeOf (d : Word) (q : Reg) : encode (writeOf d q) = writeAt (offsetOf q) d := by
  cases q <;> rfl

/-- The register map lists each register at its own offset only (10_state.md R21). -/
theorem offsetOf_of_regAt {o : Offset} {q : Reg} (h : regAt o = some q) : offsetOf q = o := by
  have listed : ∀ e ∈ registerMap, offsetOf e.2 = e.1 := by decide
  obtain ⟨e, hfind, rfl⟩ := Option.map_eq_some_iff.mp h
  rw [listed e (List.mem_of_find?_eq_some hfind)]
  simpa using List.find?_some hfind

/-- Every multiple of 4 below 0x34 is listed, so the others are reserved (45_register_access.md
R233). -/
theorem reserved_of_regAt_eq_none {o : Offset} (ho : alignedOffset o = true)
    (h : regAt o = none) : 0x34 ≤ o.toNat := by
  have listed : ∀ n < 13, regAt (BitVec.ofNat 8 (4 * n)) ≠ none := by decide
  by_contra hlow
  refine listed (o.toNat / 4) (by omega) ?_
  rwa [Nat.mul_div_cancel' (Nat.dvd_of_mod_eq_zero (beq_iff_eq.mp ho)), BitVec.ofNat_toNat,
    BitVec.setWidth_eq]

/-- A selector is its direction and its offset (30_encoding.md R94). -/
theorem selectorOf_directionOf_offsetBits (sel : Selector) :
    selectorOf (directionOf sel) (offsetBits sel) = sel := by
  have top : sel.extractLsb' 8 1 = BitVec.ofBool (sel.getLsbD 8) :=
    BitVec.eq_of_getLsbD_eq fun i hi => by
      obtain rfl : i = 0 := by omega
      simp
  have halves : sel.extractLsb' 8 1 ++ offsetBits sel = sel :=
    BitVec.extractLsb'_append_extractLsb' (w := 1)
  rw [top] at halves
  rw [directionOf]
  cases hb : sel.getLsbD 8 <;> rw [hb] at halves <;> exact halves

/-- A transaction that carries data only as a write is one of its direction, offset and data. -/
theorem access_eq_selectorOf {sel : Selector} {size : Nat} {d : Word}
    (h : (Message.access sel size d).wf = true) :
    Message.access sel size d = .access (selectorOf (directionOf sel) (offsetBits sel)) size
      (carriedData (directionOf sel) d) := by
  rw [selectorOf_directionOf_offsetBits, directionOf]
  cases hb : sel.getLsbD 8 with
  | true => rfl
  | false =>
    rw [Message.wf, hb, Bool.false_or, beq_iff_eq] at h
    rw [h]
    rfl

theorem carriedData_idem (dir : Direction) (d : Word) :
    carriedData dir (carriedData dir d) = carriedData dir d := by
  cases dir <;> rfl

/-- A message decodes to a well-formed instruction whose encoding it is. -/
def HasOneMeaning (m : Message) : Prop := (decode m).wf = true ∧ encode (decode m) = m

theorem hasOneMeaning_command (c : Word) : HasOneMeaning (.command c) := by
  by_cases hsp : c = 1#32
  · rw [hsp]
    exact ⟨rfl, rfl⟩
  by_cases hfp : c = 2#32
  · rw [hfp]
    exact ⟨rfl, rfl⟩
  rw [HasOneMeaning, decode_command_of_illegal hsp hfp]
  exact ⟨by simp [Instr.wf, hsp, hfp], rfl⟩

theorem hasOneMeaning_readAt {o : Offset} (ho : alignedOffset o = true) :
    HasOneMeaning (readAt o) := by
  rw [HasOneMeaning]
  cases hq : regAt o with
  | some q =>
    rw [decode_readAt_of_listed ho hq, encode_readOf, offsetOf_of_regAt hq]
    exact ⟨readOf_wf q, rfl⟩
  | none =>
    rw [decode_readAt_of_unlisted ho hq]
    exact ⟨by simp [Instr.wf, ho, reserved_of_regAt_eq_none ho hq], rfl⟩

theorem hasOneMeaning_writeAt {o : Offset} (ho : alignedOffset o = true) (d : Word) :
    HasOneMeaning (writeAt o d) := by
  rw [HasOneMeaning]
  cases hq : regAt o with
  | some q =>
    rw [decode_writeAt_of_listed ho hq, encode_writeOf, offsetOf_of_regAt hq]
    exact ⟨writeOf_wf d q, rfl⟩
  | none =>
    rw [decode_writeAt_of_unlisted ho hq]
    exact ⟨by simp [Instr.wf, ho, reserved_of_regAt_eq_none ho hq], rfl⟩

theorem hasOneMeaning_of_illegal {o : Offset} {size : Nat}
    (h : (!alignedOffset o || size != 4) = true) (dir : Direction) (d : Word) :
    HasOneMeaning (.access (selectorOf dir o) size (carriedData dir d)) := by
  rw [HasOneMeaning, decode_access_selectorOf, decodeAccess_of_illegal h, carriedData_idem]
  refine ⟨?_, rfl⟩
  rw [Instr.wf, h]
  cases dir <;> rfl

/-- Settles O2: a command word is its own code; an illegal transaction keeps its operands; a legal
one is the read or the write of the register its offset lists, or of a reserved offset. -/
theorem encodeDecodeRoundTrip : Obligations.EncodeDecodeRoundTrip := by
  intro m hwf
  cases m with
  | command c => exact hasOneMeaning_command c
  | access sel size d =>
    rw [access_eq_selectorOf hwf]
    by_cases hillegal : (!alignedOffset (offsetBits sel) || size != 4) = true
    · exact hasOneMeaning_of_illegal hillegal _ d
    · obtain ⟨haligned, rfl⟩ : alignedOffset (offsetBits sel) = true ∧ size = 4 := by
        simpa using hillegal
      cases directionOf sel with
      | read => exact hasOneMeaning_readAt haligned
      | write => exact hasOneMeaning_writeAt haligned d

end Sys2Proof

namespace Sys2Proof.Machine

/-! ### The reads and writes of the register window (45_register_access.md R230, R231) -/

theorem exec_rdStatus (s : State) : exec .rdStatus s = .next (hostRead .status (seeDone s)) := rfl

/-- The reads of the other registers let the host see nothing of a command's end. -/
theorem exec_readOf {q : Reg} (h : q ≠ .status) (s : State) :
    exec (readOf q) s = .next (hostRead q s) := by
  cases q
  case status => exact absurd rfl h
  all_goals rfl

theorem exec_writeOf (d : Word) (q : Reg) (s : State) :
    exec (writeOf d q) s = .next (hostWrite q d s) := by
  cases q <;> rfl

theorem exec_rdReserved (o : Offset) (s : State) :
    exec (.rdReserved o) s = .next (hostReadReserved s) := rfl

theorem exec_wrReserved (o : Offset) (d : Word) (s : State) :
    exec (.wrReserved o d) s = .next (hostWriteReserved s) := rfl

theorem exec_illegalAccess (dir : Direction) (o : Offset) (size : Nat) (d : Word) (s : State) :
    exec (.illegalAccess dir o size d) s = .next (hostSlaveError s) := rfl

/-- Seeing DONE changes the model's records of unseen writes only (log 15). -/
theorem seeDone_eq (s : State) :
    seeDone s = { s with unseen := (seeDone s).unseen, missed := (seeDone s).missed } := by
  rcases seeDone_cases s with ⟨-, h⟩ | ⟨-, h⟩ <;> rw [h]

theorem seeDone_of_not_done {s : State} (h : s.regs.done = false) : seeDone s = s := by
  rcases seeDone_cases s with ⟨hdone, -⟩ | ⟨-, h'⟩
  · rw [h] at hdone
    cases hdone
  · exact h'

/-- A read that lets the host see DONE changes the model's records of unseen writes only (log 15). -/
theorem hostRead_seeDone_eq (q : Reg) (s : State) :
    hostRead q (seeDone s) = { s with
      response := .data (readValue q s.regs)
      unseen := (seeDone s).unseen
      missed := (seeDone s).missed } := by
  rcases seeDone_cases s with ⟨-, h⟩ | ⟨-, h⟩ <;> rw [h, hostRead]

/-! ### The fields of the values read (45_register_access.md R235 to R237) -/

theorem statusWord_busy (r : Regs) : (statusWord r).getLsbD 0 = r.busy :=
  BitVec.getLsbD_append.trans (by simp)

theorem statusWord_done (r : Regs) : (statusWord r).getLsbD 1 = r.done :=
  BitVec.getLsbD_append.trans (BitVec.getLsbD_append.trans (by simp))

/-- STATUS above BUSY and DONE. -/
theorem statusWord_extractLsb' (r : Regs) (i n : Nat) :
    (statusWord r).extractLsb' (i + 2) n = (0#24 ++ r.err.code ++ 0#2).extractLsb' i n :=
  (BitVec.extractLsb'_append_eq_of_le (Nat.le_add_left 1 (i + 1))).trans
    (BitVec.extractLsb'_append_eq_of_le (Nat.le_add_left 1 i))

theorem statusWord_reserved_low (r : Regs) : (statusWord r).extractLsb' 2 2 = 0#2 :=
  (statusWord_extractLsb' r 0 2).trans BitVec.extractLsb'_append_eq_right

theorem statusWord_err (r : Regs) : (statusWord r).extractLsb' 4 4 = r.err.code := by
  refine (statusWord_extractLsb' r 2 4).trans ?_
  rw [BitVec.extractLsb'_append_eq_of_le (Nat.le_refl 2)]
  exact BitVec.extractLsb'_append_eq_right

theorem statusWord_reserved_high (r : Regs) : (statusWord r).extractLsb' 8 24 = 0#24 := by
  refine (statusWord_extractLsb' r 6 24).trans ?_
  rw [BitVec.extractLsb'_append_eq_of_le (by decide : 2 ≤ 6)]
  exact BitVec.extractLsb'_append_eq_left

theorem ctrlWord_reserved (r : Regs) : (ctrlWord r).extractLsb' 1 31 = 0#31 :=
  BitVec.extractLsb'_append_eq_left

/-- WIDTH and HEIGHT read with 0 above the stored half-word. -/
theorem half_setWidth_eq_append (h : Half) : h.setWidth 32 = 0#16 ++ h :=
  BitVec.setWidth_eq_append (by decide)

theorem half_reserved (h : Half) : (h.setWidth 32).extractLsb' 16 16 = 0#16 := by
  rw [half_setWidth_eq_append, BitVec.extractLsb'_append_eq_left]

/-- WIDTH and HEIGHT read back a written word cut to its low 16 bits. -/
theorem half_of_word_eq_and (d : Word) :
    (d.extractLsb' 0 16).setWidth 32 = d &&& 0xFFFF#32 := by
  rw [half_setWidth_eq_append, ← BitVec.setWidth_eq_extractLsb' (by decide)]
  exact (BitVec.and_setWidth_allOnes 16 16 d).symm

/-! ### STATUS and CTRL written (45_register_access.md R235, R236) -/

theorem exec_wrStatus (d : Word) (s : State) :
    exec (.wrStatus d) s = .next (acknowledge (clearReport d s)) := rfl

theorem exec_wrCtrl (d : Word) (s : State) :
    exec (.wrCtrl d) s = .next (acknowledge { s with regs := s.regs.writeCtrl d }) := rfl

theorem Regs.writeStatus_of_set {d : Word} (h : d.getLsbD 1 = true) (r : Regs) :
    r.writeStatus d = { r with done := false } := by
  rw [Regs.writeStatus, h, Bool.not_true, Bool.and_false]

theorem Regs.writeStatus_of_clear {d : Word} (h : d.getLsbD 1 = false) (r : Regs) :
    r.writeStatus d = r := by
  rw [Regs.writeStatus, h, Bool.not_false, Bool.and_true]

/-- Settles O16: the fields of the word read; the write by its bit 1. -/
theorem statusAccess : Obligations.StatusAccess := by
  intro d s
  refine ⟨⟨statusWord s.regs, hostRead .status (seeDone s), exec_rdStatus s,
    hostRead_seeDone_eq .status s, fun h => ?_, statusWord_busy _, statusWord_done _,
    statusWord_reserved_low _, statusWord_err _, statusWord_reserved_high _⟩,
    fun h => ⟨_, ?_, ?_, rfl⟩, fun h => ?_⟩
  · rw [seeDone_of_not_done h]
    exact ⟨rfl, rfl⟩
  · rw [exec_wrStatus, clearReport, Regs.writeStatus_of_set h]
    rfl
  · exact Bool.false_and _
  · rw [exec_wrStatus, clearReport, Regs.writeStatus_of_clear h]
    rfl

/-- Settles O17: CTRL's one bit, and `irq` of the registers written. -/
theorem ctrlAccess : Obligations.CtrlAccess := fun d s =>
  ⟨exec_readOf (q := .ctrl) nofun s, _, exec_wrCtrl d s, rfl, rfl⟩

/-- Settles O18: the write rule of FAULT_ADDR leaves the state to the acknowledgement. -/
theorem faultAddrAccess : Obligations.FaultAddrAccess := fun d s =>
  ⟨exec_readOf (q := .faultAddr) nofun s, exec_writeOf d .faultAddr s⟩

/-! ### The parameter registers (45_register_access.md R237) -/

/-- Settles O15: the write rule and the read value of each of the nine registers. -/
theorem parameterRegisterAccess : Obligations.ParameterRegisterAccess := by
  intro d s
  refine ⟨exec_writeOf d .width s, exec_writeOf d .height s, exec_writeOf d .yStride s,
    exec_writeOf d .c0Stride s, exec_writeOf d .c1Stride s, exec_writeOf d .yBase s,
    exec_writeOf d .c0Base s, exec_writeOf d .c1Base s, exec_writeOf d .dstBase s, ?_, ?_,
    exec_readOf (q := .yStride) nofun s, exec_readOf (q := .c0Stride) nofun s,
    exec_readOf (q := .c1Stride) nofun s, exec_readOf (q := .yBase) nofun s,
    exec_readOf (q := .c0Base) nofun s, exec_readOf (q := .c1Base) nofun s,
    exec_readOf (q := .dstBase) nofun s⟩
  · rw [← half_setWidth_eq_append]
    exact exec_readOf (q := .width) nofun s
  · rw [← half_setWidth_eq_append]
    exact exec_readOf (q := .height) nofun s

/-- A write of a register other than CMD changes what that register reads and no other. -/
theorem readValue_writeRegister {q : Reg} (hcmd : q ≠ .cmd) (q' : Reg) (d : Word) (s : State) :
    readValue q' (writeRegister q d s).regs =
      if q' = q then readValue q (writeRegister q d s).regs else readValue q' s.regs := by
  cases q
  case cmd => exact absurd rfl hcmd
  all_goals cases q' <;> rfl

/-- A parameter register reads back the word written, cut to its width. -/
theorem readValue_writeRegister_same {q : Reg}
    (hq : q ∉ [Reg.cmd, Reg.status, Reg.ctrl, Reg.faultAddr]) (d : Word) (s : State) :
    readValue q (writeRegister q d s).regs =
      if q = .width ∨ q = .height then d &&& 0xFFFF#32 else d := by
  cases q
  case cmd | status | ctrl | faultAddr => exact absurd (by decide) hq
  case width | height => exact half_of_word_eq_and d
  all_goals rfl

/-- Settles O22: the write changes what its own register reads, which is the word it cuts. -/
theorem writeThenReadBack : Obligations.WriteThenReadBack := by
  intro q d s t hq ht
  rw [exec_writeOf] at ht
  cases ht
  have hcmd : q ≠ .cmd := by rintro rfl; simp at hq
  have hstatus : q ≠ .status := by rintro rfl; simp at hq
  refine ⟨?_, fun q' hne => ?_⟩
  · rw [exec_readOf hstatus, ← readValue_writeRegister_same hq d s]
    rfl
  · exact (readValue_writeRegister hcmd q' d s).trans (if_neg hne)

/-! ### Reserved offsets and bits, illegal accesses (45_register_access.md R230, R232, R233) -/

/-- Settles O19: the reserved fields of the values read, and the bits a write rule looks at. -/
theorem reservedOffsetsAndBits : Obligations.ReservedOffsetsAndBits := by
  intro o d d' s
  refine ⟨exec_rdReserved o s, exec_wrReserved o d s, statusWord_reserved_low _,
    statusWord_reserved_high _, ctrlWord_reserved _, half_reserved _, half_reserved _,
    fun h => ?_, fun h => ?_, fun h => ?_⟩
  · rw [exec_wrStatus, exec_wrStatus, clearReport, clearReport, Regs.writeStatus, h]
    rfl
  · rw [exec_wrCtrl, exec_wrCtrl, Regs.writeCtrl, h]
    rfl
  · obtain ⟨hwidth, hheight, -⟩ := parameterRegisterAccess d s
    obtain ⟨hwidth', hheight', -⟩ := parameterRegisterAccess d' s
    rw [hwidth, hwidth', hheight, hheight', h]
    exact ⟨rfl, rfl⟩

/-- Settles O20: the decoder's test for an illegal access, and the port's answer to one. -/
theorem illegalAccessGetsASlaveError : Obligations.IllegalAccessGetsASlaveError := by
  intro sel size d s h
  have hillegal : (!alignedOffset (offsetBits sel) || size != 4) = true := by
    rw [Bool.or_eq_true, Bool.not_eq_true', bne_iff_ne, alignedOffset, beq_eq_false_iff_ne]
    exact h.symm
  exact ⟨⟨_, _, _, decodeAccess_of_illegal hillegal _ d⟩,
    fun dir o d' => exec_illegalAccess dir o size d' s⟩

/-- Settles O21: a reserved offset, STATUS, whose read lets the host see DONE, or another register. -/
theorem legalReadReturnsTheRegister : Obligations.LegalReadReturnsTheRegister := by
  intro o s ho
  have haligned : alignedOffset o = true := beq_iff_eq.mpr ho
  change ∃ t, exec (decode (readAt o)) s = .next t ∧ _
  cases hq : regAt o with
  | none =>
    rw [decode_readAt_of_unlisted haligned hq]
    exact ⟨_, exec_rdReserved o s, rfl, fun _ => ⟨rfl, rfl⟩⟩
  | some q =>
    rw [decode_readAt_of_listed haligned hq]
    by_cases hstatus : q = .status
    · subst hstatus
      refine ⟨_, exec_rdStatus s, hostRead_seeDone_eq .status s, fun h => ?_⟩
      have hdone : s.regs.done = false := h.resolve_left (not_not.mpr (offsetOf_of_regAt hq).symm)
      rw [seeDone_of_not_done hdone]
      exact ⟨rfl, rfl⟩
    · exact ⟨_, exec_readOf hstatus s, rfl, fun _ => ⟨rfl, rfl⟩⟩

/-! ### A running command (45_register_access.md R239, 10_state.md R25) -/

/-- Settles O24: while BUSY a command word is dropped, and every other transaction changes neither the
engine's state nor BUSY, ERR and FAULT_ADDR. -/
theorem noTransactionAltersARunningCommand : Obligations.NoTransactionAltersARunningCommand := by
  intro i s t hb ht
  rcases exec_shapes i s with ⟨c, h⟩ | ⟨q, h⟩ | h | ⟨q, d, h⟩ | ⟨v, h⟩ <;> rw [h] at ht <;> cases ht
  · rw [hostCommand_dropped c hb]
    exact ⟨hb, rfl, rfl, rfl, rfl, rfl⟩
  · exact ⟨hb, rfl, rfl, rfl, rfl, rfl⟩
  · rw [hostRead_seeDone_eq]
    exact ⟨hb, rfl, rfl, rfl, rfl, rfl⟩
  · rw [hostWrite]
    rcases writeRegister_cases q d s with ⟨-, hw⟩ | ⟨-, r, hw, hbusy, herr, hfault, -⟩ <;> rw [hw]
    · rw [← hostCommand, hostCommand_dropped d hb]
      exact ⟨hb, rfl, rfl, rfl, rfl, rfl⟩
    · exact ⟨hbusy.trans hb, rfl, rfl, rfl, herr, hfault⟩
  · exact ⟨hb, rfl, rfl, rfl, rfl, rfl⟩

end Sys2Proof.Machine

namespace Sys2Proof.Machine

/-! ### What a transaction leaves alone (42_command_accept.md R181, 45_register_access.md R232) -/

/-- What no host transaction touches: memory, the platform, the pending inputs, the host's cache and
the count of free values. -/
def SparesMemory (s t : State) : Prop :=
  t.mem = s.mem ∧ t.platform = s.platform ∧ t.inputs = s.inputs ∧ t.cache = s.cache ∧
    t.freeCount = s.freeCount

/-- A command word, dropped, rejected or accepted, touches no memory: its frame is the engine's. -/
theorem issueCommand_sparesMemory (c : Word) (s : State) : SparesMemory s (issueCommand c s) := by
  rcases issueCommand_cases c s with ⟨-, h⟩ | ⟨-, e, -, h⟩ | ⟨-, -, h⟩ <;> rw [h] <;>
    exact ⟨rfl, rfl, rfl, rfl, rfl⟩

theorem writeRegister_sparesMemory (q : Reg) (d : Word) (s : State) :
    SparesMemory s (writeRegister q d s) := by
  rcases writeRegister_cases q d s with ⟨-, h⟩ | ⟨-, r, h, -⟩ <;> rw [h]
  · exact issueCommand_sparesMemory d s
  · exact ⟨rfl, rfl, rfl, rfl, rfl⟩

/-- Settles O7: a transaction is a command word, a read, a write or an answer of the port alone. -/
theorem everyTransactionCompletesAndSparesMemory :
    Obligations.EveryTransactionCompletesAndSparesMemory := by
  intro i s
  rcases exec_shapes i s with ⟨c, h⟩ | ⟨q, h⟩ | h | ⟨q, d, h⟩ | ⟨v, h⟩ <;> rw [h]
  · exact ⟨_, rfl, issueCommand_sparesMemory c s⟩
  · exact ⟨_, rfl, rfl, rfl, rfl, rfl, rfl⟩
  · rw [hostRead_seeDone_eq]
    exact ⟨_, rfl, rfl, rfl, rfl, rfl, rfl⟩
  · exact ⟨_, rfl, writeRegister_sparesMemory q d s⟩
  · exact ⟨_, rfl, rfl, rfl, rfl, rfl, rfl⟩

/-! ### The interrupt output over a step (60_exceptions.md R260) -/

theorem ctrlWord_irqEn (r : Regs) : (ctrlWord r).getLsbD 0 = r.irqEn :=
  BitVec.getLsbD_append.trans (by simp)

theorem irq_eq_true_iff (r : Regs) : irq r = true ↔ r.done = true ∧ r.irqEn = true :=
  Bool.and_eq_true_iff

/-- No command touches CTRL. -/
theorem issueCommand_irqEn (c : Word) (s : State) :
    (issueCommand c s).regs.irqEn = s.regs.irqEn := by
  rcases issueCommand_cases c s with ⟨-, h⟩ | ⟨-, e, -, h⟩ | ⟨-, -, h⟩ <;>
    exact congrArg (fun t => t.regs.irqEn) h

/-- IRQ_EN keeps its value over a step, but for a write of CTRL, which changes nothing else, and
reset. -/
theorem step_irqEn {s t : State} (h : step s = .next t) :
    t.regs.irqEn = s.regs.irqEn ∨
    (∃ m rest d, s.inputs = .transaction m :: rest ∧ decode m = .wrCtrl d ∧
      t.regs = s.regs.writeCtrl d) ∨
    ((∃ rest, s.inputs = .reset :: rest ∨ s.inputs = .resetMidPair :: rest) ∧
      t.regs = Regs.reset) := by
  rcases step_regs h with ht | ⟨-, -, ht | ⟨a, ht⟩⟩ | hreset | ⟨m, rest, hin, hexec⟩
  · exact .inl (by rw [ht])
  · exact .inl (by rw [ht]; rfl)
  · exact .inl (by rw [ht]; rfl)
  · exact .inr (.inr hreset)
  · rcases exec_regs hexec with ⟨c, -, ht⟩ | ⟨d, -, ht⟩ | ⟨d, hi, ht⟩ | ⟨-, -, -, hen, -⟩
    · exact .inl (by rw [ht, issueCommand_irqEn])
    · exact .inl (by rw [ht]; rfl)
    · exact .inr (.inl ⟨m, rest, d, hin, hi, ht⟩)
    · exact .inl hen

/-- `irq` rises with DONE, at the end of a command, or with IRQ_EN. -/
theorem irq_rises {s t : State} (h : step s = .next t) (h0 : irq s.regs = false)
    (h1 : irq t.regs = true) :
    (s.regs.irqEn = true ∧ s.regs.done = false ∧ t.regs.done = true ∧ t.regs.busy = false) ∨
    (s.regs.done = true ∧ ∃ m rest d, s.inputs = .transaction m :: rest ∧ decode m = .wrCtrl d ∧
      d.getLsbD 0 = true) := by
  obtain ⟨hdone, hen⟩ := (irq_eq_true_iff _).mp h1
  rcases step_irqEn h with hkeep | ⟨m, rest, d, hin, hm, ht⟩ | ⟨-, ht⟩
  · rw [hkeep] at hen
    have hnot : s.regs.done = false := by rwa [irq, hen, Bool.and_true] at h0
    obtain ⟨hrise, -⟩ := doneChangesOnlyAtEndStartAndClearing s t h
    obtain ⟨hidle, -⟩ := hrise hnot hdone
    exact .inl ⟨hen, hnot, hdone, hidle⟩
  · rw [ht] at hdone hen
    exact .inr ⟨hdone, m, rest, d, hin, hm, hen⟩
  · rw [ht] at hdone
    cases hdone

/-- `irq` falls with DONE, by a write of STATUS or an acceptance, with IRQ_EN, or at reset. -/
theorem irq_falls {s t : State} (h : step s = .next t) (h1 : irq s.regs = true)
    (h0 : irq t.regs = false) :
    (∃ rest, s.inputs = .reset :: rest ∨ s.inputs = .resetMidPair :: rest) ∨
    (∃ m rest, s.inputs = .transaction m :: rest ∧
      ((∃ d, decode m = .wrStatus d ∧ d.getLsbD 1 = true) ∨
       (∃ d, decode m = .wrCtrl d ∧ d.getLsbD 0 = false) ∨
       (s.regs.busy = false ∧ t.regs.busy = true))) := by
  obtain ⟨hdone, hen⟩ := (irq_eq_true_iff _).mp h1
  rcases step_irqEn h with hkeep | ⟨m, rest, d, hin, hm, ht⟩ | ⟨hin, -⟩
  · have hnot : t.regs.done = false := by rwa [irq, hkeep, hen, Bool.and_true] at h0
    obtain ⟨-, hfall⟩ := doneChangesOnlyAtEndStartAndClearing s t h
    rcases hfall hdone hnot with hreset | ⟨m, rest, hin, hstatus | hstart⟩
    · exact .inl hreset
    · exact .inr ⟨m, rest, hin, .inl hstatus⟩
    · exact .inr ⟨m, rest, hin, .inr (.inr hstart)⟩
  · rw [ht, irq, Regs.writeCtrl_done, hdone, Bool.true_and] at h0
    exact .inr ⟨m, rest, hin, .inr (.inl ⟨d, hm, h0⟩)⟩
  · exact .inl hin

/-- Settles O26: the bits of STATUS and CTRL; a change of `irq` is one of DONE or of IRQ_EN. -/
theorem interruptIsDoneAndEnabled : Obligations.InterruptIsDoneAndEnabled := by
  refine ⟨fun r => ?_, fun _ _ => irq_rises, fun _ _ => irq_falls⟩
  change irq r = ((statusWord r).getLsbD 1 && (ctrlWord r).getLsbD 0)
  rw [statusWord_done, ctrlWord_irqEn, irq]

/-! ### A pair step at its first refused access (60_exceptions.md R256, R252) -/

/-- What stops the engine at an access to `a` that the platform refuses (20_memory.md R61, 93 S12). -/
def BusAnswer.stop (a : Nat) : BusAnswer → EngineStop
  | .busError => .busError (BitVec.ofNat 32 a)
  | .noAnswer => .noAnswer

theorem memRead_refused {k a : Nat} {s : State} {ans : BusAnswer} (ha : a < Config.busSize)
    (h : busAnswer s.platform a 1 .read = some ans) : memRead k a s = .error (ans.stop a) := by
  rw [memRead, if_neg (not_le.mpr ha), h]
  cases ans <;> rfl

theorem memWrite_refused {k a : Nat} {v : Word} {s : State} {ans : BusAnswer} (hal : a % 4 = 0)
    (ha : a < Config.busSize) (h : busAnswer s.platform a 4 .write = some ans) :
    memWrite k a v s = .error (ans.stop a) := by
  rw [memWrite, if_neg (not_not.mpr hal), if_neg (not_le.mpr ha), h]
  cases ans <;> rfl

/-- The state in which the pair step at a position makes its access `k`: the first word is written
before the second write only (20_memory.md R72). -/
def beforeAccess (op : Op) (r : Regs) (j x k : Nat) (s : State) : State :=
  if k = 5 then engineWrite 4 (dstAddr r j x) (seenWord op r s j x) s else s

section Refused

variable {op : Op} {r : Regs} {j x k : Nat} {b : BusAccess} {ans : BusAnswer} {s : State}

/-- Only memory and the model's record of unseen words (log 15) differ before an access. -/
theorem beforeAccess_eq (op : Op) (r : Regs) (j x k : Nat) (s : State) :
    beforeAccess op r j x k s = { s with
      mem := (beforeAccess op r j x k s).mem
      unseen := (beforeAccess op r j x k s).unseen } := by
  unfold beforeAccess
  split <;> rfl

/-- The first word is in memory as it lands (20_memory.md R79, log 14). -/
theorem beforeAccess_mem (he : x % 2 = 0) : (beforeAccess op r j x k s).mem =
    if k = 5 then writeWord s.mem (dstAddr r j x) (landedWord op r s j x) else s.mem := by
  unfold beforeAccess
  split
  · rw [engineWrite_mem, landedWord, he]
  · rfl

/-- Every access of a pair is to an address of the bus space (20_memory.md R74). -/
theorem Passed.access_lt (P : Passed op r) (hj : j < r.height.toNat) (hx : x < r.width.toNat)
    (he : x % 2 = 0) (hb : b ∈ pairAccesses op r j x) : b.addr < 2 ^ 32 := by
  have htwo := P.two_columns hx he
  obtain ⟨hA, hB, hU, hV⟩ := P.reads_lt hj hx he
  have hdstA := P.dst_lt hj hx
  have hdstB := P.dst_lt (x := x + 1) hj (by omega)
  rw [pairAccesses_eq] at hb
  simp only [List.mem_cons, List.not_mem_nil, or_false] at hb
  rcases hb with rfl | rfl | rfl | rfl | rfl | rfl
  · exact hA
  · exact hB
  · exact hU
  · exact hV
  · exact show dstAddr r j x < 2 ^ 32 by omega
  · exact show dstAddr r j (x + 1) < 2 ^ 32 by omega

/-- The first refused read stops the reads there. -/
theorem Passed.pairWords_of_refused (P : Passed op r) (hj : j < r.height.toNat)
    (hx : x < r.width.toNat) (he : x % 2 = 0) (hk : k < 4)
    (hb : (pairAccesses op r j x)[k]? = some b)
    (hadm : ∀ c ∈ (pairAccesses op r j x).take k, c.admitted s.platform)
    (href : busAnswer s.platform b.addr b.size b.kind = some ans) :
    pairWords op (planAt op r j x) s = .error (ans.stop b.addr) := by
  obtain ⟨hA, hB, hU, hV⟩ := P.reads_lt hj hx he
  have read : ∀ i a, a < Config.busSize → ⟨a, 1, .read⟩ ∈ (pairAccesses op r j x).take k →
      memRead i a s = .ok (engineByte i a s) := fun _ _ ha hc => memRead_admitted ha (hadm _ hc)
  rw [pairAccesses_eq] at hb read
  unfold pairWords
  match k, hk with
  | 0, _ =>
    obtain rfl := Option.some.inj hb
    rw [memRead_refused hA href]
  | 1, _ =>
    obtain rfl := Option.some.inj hb
    rw [read 0 _ hA (by simp), memRead_refused hB href]
  | 2, _ =>
    obtain rfl := Option.some.inj hb
    rw [read 0 _ hA (by simp), read 1 _ hB (by simp), memRead_refused hU href]
  | 3, _ =>
    obtain rfl := Option.some.inj hb
    rw [read 0 _ hA (by simp), read 1 _ hB (by simp), read 2 _ hU (by simp),
      memRead_refused hV href]

/-- The first refused access of a pair stops the pair step there, with what was written before it. -/
theorem Passed.pairStep_of_refused (P : Passed op r) (hj : j < r.height.toNat)
    (hx : x < r.width.toNat) (he : x % 2 = 0) (hb : (pairAccesses op r j x)[k]? = some b)
    (hadm : ∀ c ∈ (pairAccesses op r j x).take k, c.admitted s.platform)
    (href : busAnswer s.platform b.addr b.size b.kind = some ans) :
    pairStep op (planAt op r j x) s =
      stopPair (ans.stop b.addr) (beforeAccess op r j x k s) := by
  have htwo := P.two_columns hx he
  have hlt := P.access_lt hj hx he (List.mem_of_getElem? hb)
  have hlen : k < 6 := by
    obtain ⟨hk, -⟩ := List.getElem?_eq_some_iff.mp hb
    rwa [pairAccesses_eq] at hk
  by_cases hread : k < 4
  · rw [pairStep, P.pairWords_of_refused hj hx he hread hb hadm href, beforeAccess,
      if_neg (show ¬ k = 5 by omega)]
  have words := pairWords_at P hj hx he fun c hc =>
    hadm c (List.take_subset_take_left _ (not_lt.mp hread) hc)
  rw [pairAccesses_eq] at hb hadm
  obtain rfl | rfl : k = 4 ∨ k = 5 := by omega
  · obtain rfl := Option.some.inj hb
    rw [pairStep, words]
    simp only [memWrite_refused (P.dst_aligned hj hx) hlt href, planAt]
    rfl
  · obtain rfl := Option.some.inj hb
    have first := P.memWrite_dst hj hx (hadm _ (by simp [planAt])) 4 (seenWord op r s j x)
    have second := memWrite_refused (k := 5) (v := seenWord op r s j (x + 1))
      (s := engineWrite 4 (dstAddr r j x) (seenWord op r s j x) s)
      (P.dst_aligned (x := x + 1) hj (by omega)) hlt href
    rw [pairStep, words]
    simp only [planAt, first] at second ⊢
    rw [second]
    rfl

/-- With no byte of the accesses before the second write raced, the first word is the frame law's and
lands whole. -/
theorem Passed.first_word_of_unraced (P : Passed op r) (hj : j < r.height.toNat)
    (hx : x < r.width.toNat) (he : x % 2 = 0)
    (hu : ∀ c ∈ (pairAccesses op r j x).take 5, c.unraced s) :
    seenWord op r s j x = frameWord op r s.mem j x ∧
      landedWord op r s j x = frameWord op r s.mem j x := by
  obtain ⟨seen, -⟩ := seenWord_of_unraced he fun c hc =>
    hu c (List.take_subset_take_left _ (by decide) hc)
  rw [pairAccesses_eq] at hu
  have landed := landedWord_of_unraced P hj hx (hu _ (by simp [planAt]))
  exact ⟨seen, landed.trans seen⟩

end Refused

/-- Settles O48: the running frame's pair step stops at the refused access, and the bus error ends the
command in the state its earlier accesses left. -/
theorem busErrorEndsTheCommandAtItsAccess : Obligations.BusErrorEndsTheCommandAtItsAccess := by
  intro op s k b hbusy ho hf hh r j x hb hadm href
  have P : Passed op r := passed_of_frameError hf.checked
  refine ⟨⟨busErrorEnd (BitVec.ofNat 32 b.addr) (beforeAccess op r j x k s), ?_, ?_,
    P.access_lt hf.row hf.column hf.columnEven (List.mem_of_getElem? hb), rfl,
    beforeAccess_mem hf.columnEven, ?_⟩, ?_⟩
  · rw [engineTurn_running hbusy hh ho, hf.plan_eq ho,
      P.pairStep_of_refused hf.row hf.column hf.columnEven hb hadm href]
    rfl
  · rw [beforeAccess_eq]
    rfl
  · rw [beforeAccess_eq]
    exact ⟨rfl, rfl, rfl⟩
  · rintro rfl hu
    obtain ⟨-, landed⟩ := P.first_word_of_unraced hf.row hf.column hf.columnEven hu
    exact landed

end Sys2Proof.Machine

namespace Sys2Proof.Machine

/-! ### Reset, between steps or during one (70_reset_and_hazards.md R280 to R282) -/

theorem step_of_inputs_reset {s : State} {rest : List Input} (h : s.inputs = .reset :: rest) :
    step s = .next (assertReset { s with inputs := rest }) := by
  rw [step, h]

theorem step_of_inputs_resetMidPair {s : State} {rest : List Input}
    (h : s.inputs = .resetMidPair :: rest) :
    step s = .next (resetMidPair { s with inputs := rest }) := by
  rw [step, h]

/-- A reset during a step is one between steps but for memory and the model's record of unseen words
(log 15, 16). -/
theorem resetMidPair_eq (s : State) : resetMidPair s = assertReset { s with
    mem := (resetMidPair s).mem
    unseen := (resetMidPair s).unseen } := by
  rcases resetMidPair_cases s with ⟨op, -, -, h⟩ | h
  · rcases afterFirstWrite_cases op (planOf op s.w) s with h' | ⟨v, h'⟩ <;> rw [h, h'] <;> rfl
  · rw [h]
    rfl

@[simp] theorem resetMidPair_platform (s : State) : (resetMidPair s).platform = s.platform := by
  rw [resetMidPair_eq]
  rfl

@[simp] theorem resetMidPair_inputs (s : State) : (resetMidPair s).inputs = s.inputs := by
  rw [resetMidPair_eq]
  rfl

/-- In a running frame a reset during the step falls after its first write (20_memory.md R66,
log 16). -/
theorem resetMidPair_running {op : Op} {s : State} (hb : s.regs.busy = true) (hh : s.hung = false)
    (ho : runningOp s.w = some op) :
    resetMidPair s = assertReset (afterFirstWrite op (planOf op s.w) s) := by
  unfold runningOp at ho
  rw [resetMidPair, hb, hh, Bool.not_false, Bool.and_self, if_pos rfl]
  split_ifs at ho ⊢ with hsp hfp <;> cases ho <;> rfl

/-- With no pair step under way a reset during a step is one between steps. -/
theorem resetMidPair_of_not_running {s : State} (h : s.regs.busy = false ∨ s.hung = true) :
    resetMidPair s = assertReset s := by
  rw [resetMidPair, if_neg]
  rcases h with h | h <;> rw [h] <;> simp

/-- A reset during a step changes the first word of the pair at the engine's position at most,
whatever the platform and the races. -/
theorem readByte_resetMidPair_ne {s : State} {a : Nat}
    (hf : s.regs.busy = true → ∃ op, runningOp s.w = some op ∧ FrameInv op s.w)
    (ha : a < dstAddr (latchedParams s.w) s.w.j.toNat s.w.x.toNat ∨
      dstAddr (latchedParams s.w) s.w.j.toNat s.w.x.toNat + 4 ≤ a) :
    readByte (resetMidPair s).mem a = readByte s.mem a := by
  rcases resetMidPair_cases s with ⟨op, hb, ho, h⟩ | h <;> rw [h, assertReset_mem]
  obtain ⟨op', ho', hf'⟩ := hf hb
  obtain rfl : op' = op := Option.some.inj (ho'.symm.trans ho)
  rw [hf'.plan_eq ho]
  rcases afterFirstWrite_cases op' (planAt op' (latchedParams s.w) s.w.j.toNat s.w.x.toNat) s with
    h' | ⟨v, h'⟩ <;> rw [h']
  exact readByte_engineWrite_ne ha

/-- Settles O33: both forms of reset set the registers; the one during a step writes the pair's first
word at most, and none where no pair step is under way. -/
theorem resetClearsEveryRegisterAndSparesMemory :
    Obligations.ResetClearsEveryRegisterAndSparesMemory := by
  intro s rest hin d
  obtain ⟨readsZero, irqLow⟩ := resetRegistersReadZero
  rcases hin with hin | hin
  · exact ⟨_, step_of_inputs_reset hin, readsZero, irqLow, rfl, rfl, rfl, fun _ => rfl,
      fun _ _ _ => rfl⟩
  · refine ⟨_, step_of_inputs_resetMidPair hin, readsZero, irqLow, rfl, resetMidPair_platform _,
      resetMidPair_inputs _, fun h => ?_, fun hinv a ha => ?_⟩
    · have hidle : s.regs.busy = false ∨ s.hung = true :=
        h.resolve_left fun hreset => by rw [hin] at hreset; cases hreset
      rw [resetMidPair_of_not_running (s := { s with inputs := rest }) hidle]
      rfl
    · exact readByte_resetMidPair_ne (s := { s with inputs := rest }) hinv.frame ha

/-! ### The first of a pair step's two writes (20_memory.md R66, R72) -/

theorem admitted_of_memRead {k a : Nat} {b : Byte} {s : State} (h : memRead k a s = .ok b) :
    BusAccess.admitted s.platform ⟨a, 1, .read⟩ := by
  rcases memRead_cases k a s with ⟨-, h'⟩ | ⟨-, -, h'⟩ | ⟨-, -, h'⟩ | ⟨-, ha, -⟩
  case inr.inr.inr => rw [BusAccess.admitted, admits, ha]; rfl
  all_goals rw [h'] at h; cases h

theorem admitted_of_memWrite {k a : Nat} {v : Word} {s t : State} (h : memWrite k a v s = .ok t) :
    BusAccess.admitted s.platform ⟨a, 4, .write⟩ := by
  rcases memWrite_cases k a v s with ⟨-, h'⟩ | ⟨-, h'⟩ | ⟨-, -, -, h'⟩ | ⟨-, -, -, h'⟩ |
    ⟨-, -, ha, -⟩
  case inr.inr.inr.inr => rw [BusAccess.admitted, admits, ha]; rfl
  all_goals rw [h'] at h; cases h

/-- A pair step that computes its words was admitted to all of its reads. -/
theorem admitted_of_pairWords {op : Op} {r : Regs} {j x : Nat} {s : State} {v : PairWords}
    (h : pairWords op (planAt op r j x) s = .ok v) :
    ∀ b ∈ (pairAccesses op r j x).take 4, b.admitted s.platform := by
  rw [pairAccesses_eq]
  simp only [List.take_succ_cons, List.take_zero, List.forall_mem_cons, List.not_mem_nil]
  unfold pairWords at h
  split at h
  · cases h
  split at h
  · cases h
  split at h
  · cases h
  split at h
  · cases h
  · exact ⟨admitted_of_memRead ‹_›, admitted_of_memRead ‹_›, admitted_of_memRead ‹_›,
      admitted_of_memRead ‹_›, nofun⟩

section FirstWrite

variable {op : Op} {r : Regs} {j x : Nat} {s : State}

/-- A pair step whose first five accesses are admitted makes its first write. -/
theorem Passed.afterFirstWrite_of_admitted (P : Passed op r) (hj : j < r.height.toNat)
    (hx : x < r.width.toNat) (he : x % 2 = 0)
    (ha : ∀ b ∈ (pairAccesses op r j x).take 5, b.admitted s.platform) :
    afterFirstWrite op (planAt op r j x) s = beforeAccess op r j x 5 s := by
  have words := pairWords_at P hj hx he fun b hb =>
    ha b (List.take_subset_take_left _ (by decide) hb)
  rw [pairAccesses_eq] at ha
  have first := P.memWrite_dst hj hx (ha _ (by simp [planAt])) 4 (seenWord op r s j x)
  rw [afterFirstWrite, words]
  simp only [planAt, first]
  rfl

/-- A pair step that is not admitted to one of its first five accesses writes nothing. -/
theorem afterFirstWrite_of_refused
    (h : ∃ b ∈ (pairAccesses op r j x).take 5, ¬ b.admitted s.platform) :
    afterFirstWrite op (planAt op r j x) s = s := by
  unfold afterFirstWrite
  cases hwords : pairWords op (planAt op r j x) s with
  | error e => rfl
  | ok v =>
    cases hfirst : memWrite 4 (planAt op r j x).dstA v.a s with
    | error e => simp only [hfirst]
    | ok t =>
      obtain ⟨b, hb, hrefused⟩ := h
      have reads := admitted_of_pairWords hwords
      rw [pairAccesses_eq] at hb reads
      rw [List.take_succ_eq_append_getElem (by simp), List.mem_append] at hb
      rcases hb with hb | hb
      · exact absurd (reads b hb) hrefused
      · obtain rfl := List.mem_singleton.mp hb
        exact absurd (admitted_of_memWrite hfirst) hrefused

end FirstWrite

/-- Settles O34: the reset finds memory as the second write would have found it, or, where the step
stopped before its first write, as it was. -/
theorem resetBetweenTheWritesKeepsTheFirst : Obligations.ResetBetweenTheWritesKeepsTheFirst := by
  intro op s rest hin hb ho hf hh r j x made
  have P : Passed op r := passed_of_frameError hf.checked
  have reset : (resetMidPair { s with inputs := rest }).mem =
      (afterFirstWrite op (planAt op r j x) { s with inputs := rest }).mem := by
    rw [resetMidPair_running (s := { s with inputs := rest }) hb hh ho, assertReset_mem,
      hf.plan_eq ho]
  refine ⟨_, step_of_inputs_resetMidPair hin, rfl, resetMidPair_platform _, resetMidPair_inputs _,
    fun ha => ?_, fun hr => ?_, fun a ha => ?_, fun hu => ?_⟩
  · rw [reset, P.afterFirstWrite_of_admitted (s := { s with inputs := rest }) hf.row hf.column
      hf.columnEven ha, beforeAccess_mem hf.columnEven]
    rfl
  · rw [reset, afterFirstWrite_of_refused (s := { s with inputs := rest }) hr]
  · exact readByte_resetMidPair_ne (s := { s with inputs := rest }) (fun _ => ⟨op, ho, hf⟩) ha
  · obtain ⟨-, landed⟩ := P.first_word_of_unraced hf.row hf.column hf.columnEven hu
    exact landed

/-! ### An access that is never answered (70_reset_and_hazards.md R295, 93 S12) -/

/-- The first word is recorded as unseen, with its former value (log 15). -/
theorem beforeAccess_unseen (op : Op) (r : Regs) (j x k : Nat) (s : State) :
    (beforeAccess op r j x k s).unseen =
      if k = 5 then
        ⟨dstAddr r j x, seenWord op r s j x, readWord s.mem (dstAddr r j x)⟩ :: s.unseen
      else s.unseen := by
  unfold beforeAccess
  split <;> rfl

/-- Settles O49: the running frame's pair step stops at the access in the state its earlier accesses
left, and the hang leaves the engine no further turn. -/
theorem unansweredAccessStallsTheEngine : Obligations.UnansweredAccessStallsTheEngine := by
  intro op s k b hbusy ho hf hh r j x t hb hadm href
  have P : Passed op r := passed_of_frameError hf.checked
  refine ⟨⟨?_, engineTurn_of_not_running fun ⟨_, hnot⟩ => nomatch hnot⟩, ?_⟩
  · rw [engineTurn_running hbusy hh ho, hf.plan_eq ho,
      P.pairStep_of_refused hf.row hf.column hf.columnEven hb hadm href, beforeAccess_eq,
      beforeAccess_mem hf.columnEven, beforeAccess_unseen]
    rfl
  · rintro rfl hu
    exact P.first_word_of_unraced hf.row hf.column hf.columnEven hu

/-! ### The order of parameter writes (70_reset_and_hazards.md R285) -/

/-- The host-visible registers are determined by what they read. -/
theorem Regs.eq_of_readValue {r r' : Regs} (h : ∀ q, readValue q r = readValue q r') : r = r' := by
  have status : statusWord r = statusWord r' := h .status
  have ctrl : ctrlWord r = ctrlWord r' := h .ctrl
  have half : ∀ {a b : Half}, a.setWidth 32 = b.setWidth 32 → a = b := fun hab => by
    simpa using congrArg (BitVec.setWidth 16) hab
  have busy : r.busy = r'.busy := by rw [← statusWord_busy, status, statusWord_busy]
  have done : r.done = r'.done := by rw [← statusWord_done, status, statusWord_done]
  have err : r.err = r'.err := by
    rw [← ErrCode.ofNat_code r.err, ← statusWord_err, status, statusWord_err, ErrCode.ofNat_code]
  have irqEn : r.irqEn = r'.irqEn := by rw [← ctrlWord_irqEn, ctrl, ctrlWord_irqEn]
  have width : r.width = r'.width := half (h .width)
  have height : r.height = r'.height := half (h .height)
  obtain ⟨⟩ := r
  obtain ⟨⟩ := r'
  simp only at busy done err irqEn width height
  simp only [Regs.mk.injEq]
  exact ⟨busy, done, err, irqEn, width, height, h .yStride, h .c0Stride, h .c1Stride, h .yBase,
    h .c0Base, h .c1Base, h .dstBase, h .faultAddr⟩

/-- The write of a register other than CMD changes the registers and the port's answer only. -/
theorem hostWrite_eq {q : Reg} (hcmd : q ≠ .cmd) (d : Word) (s : State) :
    hostWrite q d s = { s with regs := (hostWrite q d s).regs, response := .written } := by
  rcases writeRegister_cases q d s with ⟨h, -⟩ | ⟨-, r, h, -⟩
  · exact absurd h hcmd
  · rw [hostWrite, h]
    rfl

/-- What the registers read after the write of a parameter register. -/
theorem readValue_hostWrite {q : Reg} (hq : q ∉ [Reg.cmd, Reg.status, Reg.ctrl, Reg.faultAddr])
    (q' : Reg) (d : Word) (s : State) :
    readValue q' (hostWrite q d s).regs =
      if q' = q then if q = .width ∨ q = .height then d &&& 0xFFFF#32 else d
      else readValue q' s.regs := by
  rw [← readValue_writeRegister_same hq d s]
  exact readValue_writeRegister (List.ne_of_not_mem_cons hq) q' d s

/-- Settles O23: either order leaves every register reading the same, and the registers are all that
the two writes change but the port's answer. -/
theorem setupOrderDoesNotMatter : Obligations.SetupOrderDoesNotMatter := by
  intro q q' d d' s t u t' u' hne hq hq' ht hu ht' hu'
  rw [exec_writeOf] at ht hu ht' hu'
  cases ht; cases hu; cases ht'; cases hu'
  have hcmd : q ≠ .cmd := List.ne_of_not_mem_cons hq
  have hcmd' : q' ≠ .cmd := List.ne_of_not_mem_cons hq'
  have regs : (hostWrite q' d' (hostWrite q d s)).regs =
      (hostWrite q d (hostWrite q' d' s)).regs := by
    refine Regs.eq_of_readValue fun q₀ => ?_
    simp only [readValue_hostWrite hq, readValue_hostWrite hq']
    by_cases h : q₀ = q
    · rw [if_neg (h ▸ hne), if_pos h, if_pos h]
    · rw [if_neg h, if_neg h]
  rw [hostWrite_eq hcmd', hostWrite_eq hcmd d (hostWrite q' d' s), regs, hostWrite_eq hcmd d s,
    hostWrite_eq hcmd' d' s]

end Sys2Proof.Machine

namespace Sys2Proof

/-! ### Table words (30_encoding.md R91, R94, log 2) -/

/-- A table word that numbers an instruction's message decodes to that instruction. -/
theorem decodeTableWord_of_encode {nbits w : Nat} {i : Instr} (hwf : i.wf = true)
    (h : tableMessage nbits w = .ok (encode i)) : decodeTableWord nbits w = some i := by
  rw [decodeTableWord, h]
  exact congrArg some (decodeEncodeRoundTrip i hwf)

/-- Settles O4: each word numbers the encoded message of the instruction named, so the encoding's
round trip reads it back. The last transaction has no table word, and is the encoded message itself. -/
theorem tableWordsDecode : Obligations.TableWordsDecode := by
  refine ⟨?_, ?_, ?_, ?_, ?_, ?_, ?_, ?_, ?_, ?_,
    decodeEncodeRoundTrip (.illegalAccess .write 0x0C#8 1 0x55#32) rfl⟩ <;>
  exact decodeTableWord_of_encode rfl rfl

end Sys2Proof
